-- ==== Sys2Proof/Word.lean ====
section
/-! DEFINITION. The word types of the block (R9, R10): unsigned integers of fixed width, and binary64 values held as their
64-bit patterns, which is what CAL_WRITE stores and CAL_READ returns (R85, R94). -/

namespace Sys2Proof

/-- A byte of a payload. -/
abbrev Byte := BitVec 8

/-- A 16-bit field: identifier, rotational position, distance, length (R54, R80). -/
abbrev U16 := BitVec 16

/-- A command word, a register value, a timestamp, a counter (R23 to R28, R73, R80). -/
abbrev U32 := BitVec 32

/-- An IEEE 754 binary64 value as its bit pattern (R10, R32): sign 63, exponent 62:52, fraction 51:0. -/
abbrev F64 := BitVec 64

end Sys2Proof
end

