-- ==== Sys2Proof/Syntax.lean ====
section
/-! DEFINITION. The command set: one constructor per row of spec/opcode_table.json (R80), with its operands as R82 to R85 give
them; the command transaction; and the pseudo-commands of R88. Field and register selectors are constructors, so that a reserved
selector is not an instruction. -/

namespace Sys2Proof

/-- A command as the command channel delivers it (R30, R80). -/
structure Command where
  word : U32
  payload : List Byte
  deriving DecidableEq, Repr

/-- The five base fields of a calibration entry, which CAL_WRITE accepts (R32, R83). -/
inductive BaseField where
  | azCorr | vertCorr | distCorr | vOffCorr | hOffCorr
  deriving DecidableEq, Repr

/-- The four derived fields of a calibration entry, read-only (R32, R83). -/
inductive DerivedField where
  | sinVert | cosVert | sinVOff | cosVOff
  deriving DecidableEq, Repr

/-- A field of a calibration entry, which CAL_READ accepts (R83). -/
inductive CalField where
  | base (f : BaseField)
  | derived (f : DerivedField)
  deriving DecidableEq, Repr

/-- A register that REG_READ reads (R84). -/
inductive Reg where
  | status | lastAz | pendingSkip | frameCount | curFramePoints | dataPktCount | nondataPktCount
  deriving DecidableEq, Repr

/-- The ten commands (R80), with their operands. -/
inductive Instr where
  /-- NOP (R230). -/
  | nop
  /-- PACKET: LEN and the payload, which is the packet buffer (R140, R34). -/
  | packet (len : U16) (payload : List Byte)
  /-- FLUSH (R207). -/
  | flush
  /-- SESSION_RESET (R208). -/
  | sessionReset
  /-- SET_SKIP (R209). -/
  | setSkip (skip : BitVec 4)
  /-- LOAD_DEFAULT (R117). -/
  | loadDefault
  /-- CAL_WRITE: the binary64 of the 8-byte payload into a base field (R118, R85). -/
  | calWrite (laser : Byte) (field : BaseField) (value : F64)
  /-- CAL_READ (R119). -/
  | calRead (laser : Byte) (field : CalField)
  /-- REG_READ (R231). -/
  | regRead (reg : Reg)
  /-- STATUS_CLEAR (R232). -/
  | statusClear (mask : BitVec 4)
  deriving DecidableEq, Repr

/-- The pseudo-commands of R88. -/
inductive Pseudo where
  | seekResume (skip : BitVec 4)
  | calSet (laser : Byte) (az vert dist voff hoff : F64)
  | clearStatus
  deriving DecidableEq, Repr

end Sys2Proof
end

