-- ==== Sys2Proof/Machine/Events.lean ====
section
/-! DEFINITION. The records of the event channel (R90 to R95), and what the host can do to the block (R30, R31, R280). -/

namespace Sys2Proof.Machine

/-- A Point (R91): the fields of EV_POINT. -/
structure Point where
  x : F64
  y : F64
  z : F64
  distance : F64
  intensity : Byte
  laserId : BitVec 6
  azimuth : U16
  timestamp : U32
  deriving DecidableEq, Repr

/-- Why a frame closed (R92). -/
inductive FrameCause where
  | split | flush
  deriving DecidableEq, Repr

/-- The class of a packet (R93). -/
inductive PacketKind where
  | data | notData
  deriving DecidableEq, Repr

/-- The errors of R250, R251. -/
inductive ErrorKind where
  | azRange | unknownLaser | illegalCmd
  deriving DecidableEq, Repr

/-- A record of the event channel (R90). -/
inductive Event where
  | point (p : Point)
  | frameEnd (cause : FrameCause) (block : BitVec 4) (points : U32) (frame : U32)
  | packet (kind : PacketKind) (len : U16) (timestamp : U32) (first : BitVec 4)
  | calData (laser : BitVec 6) (field : BitVec 4) (value : F64)
  | regData (reg : BitVec 4) (value : U32)
  | error (kind : ErrorKind) (word : U32) (a1 a2 a3 : U16)
  deriving DecidableEq, Repr

/-- The tag of a record (R90). -/
def Event.tag : Event → Nat
  | .point _ => 0
  | .frameEnd _ _ _ _ => 1
  | .packet _ _ _ _ => 2
  | .calData _ _ _ => 3
  | .regData _ _ => 4
  | .error _ _ _ _ _ => 5

/-- The value of the `cause` field (R90). -/
def FrameCause.code : FrameCause → BitVec 1
  | .split => 0 | .flush => 1

/-- The value of the `kind` field (R90). -/
def PacketKind.code : PacketKind → BitVec 1
  | .data => 0 | .notData => 1

/-- The value of the `code` field of EV_ERROR; 0 and 4..15 are never emitted (R95, R251). -/
def ErrorKind.code : ErrorKind → BitVec 4
  | .azRange => 1 | .unknownLaser => 2 | .illegalCmd => 3

/-- What the host does next: issue a command, remove one event from the head of the event channel, or assert reset. -/
inductive HostAction where
  | command (c : Command)
  | takeEvent
  | reset
  deriving DecidableEq, Repr

end Sys2Proof.Machine
end

