-- ==== Sys2Proof/Config.lean ====
section
/-! DEFINITION. What an implementation of the block fixes (R7, R36): the OPEN parameters BLKID_LO, BLKID_HI, DEFAULT_VERT
and TRIG, and the capacity of the event channel; and the free values, opaque constants nothing can evaluate. The default values
stand in Machine/Profile.lean. -/

namespace Sys2Proof

/-- The binary64 operations whose NaN results are free (R179). -/
inductive FloatOp where
  | add | sub | mul | div | sin | cos
  deriving DecidableEq, Repr

/-- The trig unit TRIG = (SIN, COS) of R7 and decision D9. -/
inductive TrigUnit where
  /-- The default: the correctly rounded sine and cosine of the exact binary64 argument. -/
  | correctlyRounded
  /-- Any other pair of total functions; `n` only tells one such unit from another. -/
  | other (n : Nat)
  deriving DecidableEq, Repr

/-- The configuration of one block (R7, R36). It is plain data and rides in State as a field that no step writes (log 1). -/
structure Config where
  /-- The identifier of a block that reports lasers 0..31 (R71). -/
  blkidLo : U16
  /-- The identifier of a block that reports lasers 32..63 (R71). -/
  blkidHi : U16
  /-- DEFAULT_VERT[1..30] in degrees; entries 0 and 31 are fixed by the source (R116). -/
  vertMiddle : Vector F64 30
  /-- The trig unit (R7). -/
  trig : TrigUnit
  /-- How many events the event channel can hold; `none` is an unbounded channel (R31, D25; log 7). -/
  eventCapacity : Option Nat
  deriving DecidableEq, Repr

/-- FREE VALUE (log 5): sign and payload of the NaN that an operation gives on these operands (R179, I3). -/
opaque Config.freeNaNBits : FloatOp → F64 → F64 → F64

/-- FREE VALUE (log 4): SIN of the trig unit `other n` at a nonzero argument (D9, I1). -/
opaque Config.otherSin : Nat → F64 → F64

/-- FREE VALUE (log 4): COS of the trig unit `other n` at a nonzero argument (D9, I1). -/
opaque Config.otherCos : Nat → F64 → F64

end Sys2Proof
end

