-- ==== Sys2Proof/Machine/Float.lean ====
section
/-! DEFINITION. IEEE 754 binary64 with round to nearest, ties to even, subnormals kept and no flags (R10, D6).

Every finite binary64 value is a whole multiple of 2^-1074, so a magnitude is a natural number counted in that unit. An operation
computes the exact result as a fraction of such numbers and narrows it once, in `roundMag`. -/

namespace Sys2Proof.Machine

/-! ### Fields and classes -/

/-- The sign bit: true for a negative value, -0 included. -/
def signBit (a : F64) : Bool := a.msb

/-- The biased exponent, bits 62:52. -/
def expBits (a : F64) : Nat := (a.extractLsb' 52 11).toNat

/-- The fraction, bits 51:0. -/
def fracBits (a : F64) : Nat := (a.extractLsb' 0 52).toNat

/-- Exponent field all ones: an infinity or a NaN. -/
def isSpecial (a : F64) : Bool := expBits a == 2047

def isNaN (a : F64) : Bool := isSpecial a && fracBits a != 0

def isInf (a : F64) : Bool := isSpecial a && fracBits a == 0

def isFinite (a : F64) : Bool := !isSpecial a

def isZero (a : F64) : Bool := expBits a == 0 && fracBits a == 0

/-- The value with the other sign: adding the sign bit flips it, its carry leaving the word. -/
def fneg (a : F64) : F64 := a + 0x8000000000000000

/-- The magnitude of a finite value in units of 2^-1074. -/
def mag (a : F64) : Nat :=
  if expBits a = 0 then fracBits a else (2 ^ 52 + fracBits a) <<< (expBits a - 1)

/-! ### Narrowing -/

/-- `n / d` rounded to the nearest integer, ties to even. -/
def roundDiv (n d : Nat) : Nat :=
  if 2 * (n % d) > d ∨ (2 * (n % d) = d ∧ n / d % 2 = 1) then n / d + 1 else n / d

/-- The exponent of the last place kept of `n / d` units of 2^-1074: 53 significant bits, or the unit itself for a subnormal. -/
def ulpExp (n d : Nat) : Nat := Nat.log2 (n / d) - 52

/-- The bit pattern, sign bit 0, of infinity. -/
def infMag : Nat := 0x7FF0000000000000

/-- The bit pattern, sign bit 0, of the binary64 value nearest to `n / d` units of 2^-1074, ties to even, overflow to infinity.
The exponent field and the significand are added, so that a carry out of the significand moves into the exponent. -/
def roundMag (n d : Nat) : Nat :=
  min (ulpExp n d * 2 ^ 52 + roundDiv n (d <<< ulpExp n d)) infMag

/-- The sign bit put on magnitude bits. -/
def withSign (neg : Bool) (m : Nat) : F64 := BitVec.ofNat 64 (m + if neg then 2 ^ 63 else 0)

/-! ### The NaN of an operation -/

/-- A NaN with the sign and the fraction of `w`, a zero fraction taken as the top fraction bit; every NaN is one of these. -/
def nanOfBits (w : F64) : F64 :=
  if fracBits w = 0 then (w &&& 0x8000000000000000) ||| 0x7FF8000000000000 else w ||| 0x7FF0000000000000

/-- The NaN an operation gives: its sign and payload are free (R179, I3; log 5). -/
def freeNaN (op : FloatOp) (a b : F64) : F64 := nanOfBits (Config.freeNaNBits op a b)

/-! ### The operations of R10 -/

/-- The exact sum of two finite values, in units of 2^-1074. -/
def exactSum (a b : F64) : Int :=
  (if signBit a then -(mag a : Int) else mag a) + (if signBit b then -(mag b : Int) else mag b)

/-- The sum of two finite values: an exact zero is -0 only when both operands are -0. -/
def finiteSum (a b : F64) : F64 :=
  let v := exactSum a b
  if v = 0 then withSign (signBit a && signBit b) 0 else withSign (decide (v < 0)) (roundMag v.natAbs 1)

/-- Addition with the given NaN: opposite infinities are an invalid operation. -/
def addWith (nan a b : F64) : F64 :=
  if isNaN a || isNaN b || (isInf a && isInf b && signBit a != signBit b) then nan
  else if isInf a then a
  else if isInf b then b
  else finiteSum a b

def fadd (a b : F64) : F64 := addWith (freeNaN .add a b) a b

def fsub (a b : F64) : F64 := addWith (freeNaN .sub a b) a (fneg b)

def fmul (a b : F64) : F64 :=
  let neg := signBit a != signBit b
  if isNaN a || isNaN b || (isInf a && isZero b) || (isZero a && isInf b) then freeNaN .mul a b
  else if isInf a || isInf b then withSign neg infMag
  else withSign neg (roundMag (mag a * mag b) (1 <<< 1074))

def fdiv (a b : F64) : F64 :=
  let neg := signBit a != signBit b
  if isNaN a || isNaN b || (isInf a && isInf b) || (isZero a && isZero b) then freeNaN .div a b
  else if isInf a || isZero b then withSign neg infMag
  else if isInf b then withSign neg 0
  else withSign neg (roundMag (mag a <<< 1074) (mag b))

/-- IEEE equality: +0 equals -0 and a NaN equals nothing (R10, D32). -/
def feq (a b : F64) : Bool :=
  !isNaN a && !isNaN b && (a == b || (isZero a && isZero b))

/-- The exact conversion of a u16 (R10, D38). -/
def i2f (n : U16) : F64 := BitVec.ofNat 64 (roundMag (n.toNat <<< 1074) 1)

/-! ### Literals (D7) -/

/-- 0.0 -/
def zero64 : F64 := 0x0000000000000000

/-- 1.0 -/
def one64 : F64 := 0x3FF0000000000000

/-- 0.002, DIST_LSB (R7). -/
def distLsb : F64 := 0x3F60624DD2F1A9FC

/-- 100.0 -/
def hundred64 : F64 := 0x4059000000000000

/-- 180.0 -/
def oneEighty64 : F64 := 0x4066800000000000

/-- PI64, the binary64 value nearest to pi. -/
def pi64 : F64 := 0x400921FB54442D18

/-- Degrees to radians: `(d * pi) / 180`, in this order (R10, D8). -/
def toRadians (d : F64) : F64 := fdiv (fmul d pi64) oneEighty64

end Sys2Proof.Machine
end

