-- ==== Sys2Proof/Laws/Float.lean ====
section
/-! SUPPORT. The laws of the binary64 arithmetic: the classes of a value, the magnitude a bit pattern stands for, and that `roundMag`
gives the nearest binary64 magnitude, ties to even. -/

namespace Sys2Proof.Machine

/-! ### Bit fields -/

theorem signBit_eq (a : F64) : signBit a = decide (2 ^ 63 ≤ a.toNat) := by
  simp [signBit, BitVec.msb_eq_decide]

theorem expBits_eq (a : F64) : expBits a = a.toNat / 2 ^ 52 % 2 ^ 11 := by
  simp [expBits, BitVec.extractLsb'_toNat, Nat.shiftRight_eq_div_pow]

theorem fracBits_eq (a : F64) : fracBits a = a.toNat % 2 ^ 52 := by
  simp [fracBits, BitVec.extractLsb'_toNat]

theorem fracBits_lt (a : F64) : fracBits a < 2 ^ 52 := by
  rw [fracBits_eq]; exact Nat.mod_lt _ (by decide)

theorem expBits_lt (a : F64) : expBits a < 2 ^ 11 := by
  rw [expBits_eq]; exact Nat.mod_lt _ (by decide)

/-- A zero is one of the two patterns +0 and -0. -/
theorem isZero_iff (a : F64) : isZero a = true ↔ a = 0#64 ∨ a = 0x8000000000000000#64 := by
  have ha := a.isLt
  simp only [isZero, Bool.and_eq_true, beq_iff_eq, expBits_eq, fracBits_eq, ← BitVec.toNat_inj, BitVec.toNat_ofNat]
  omega

/-- A zero has no magnitude, and nothing else has none. -/
theorem mag_eq_zero_iff (a : F64) : mag a = 0 ↔ isZero a = true := by
  unfold mag isZero
  split <;> rename_i h
  · simp [h]
  · simp [h, Nat.shiftLeft_eq]

theorem fneg_toNat (a : F64) : (fneg a).toNat = (a.toNat + 2 ^ 63) % 2 ^ 64 := by
  have h : (0x8000000000000000#64).toNat = 2 ^ 63 := by decide
  show (a + 0x8000000000000000#64).toNat = _
  rw [BitVec.toNat_add, h]

@[simp] theorem signBit_fneg (a : F64) : signBit (fneg a) = !signBit a := by
  have ha := a.isLt
  rw [signBit_eq, signBit_eq, fneg_toNat, ← decide_not, decide_eq_decide]
  omega

@[simp] theorem expBits_fneg (a : F64) : expBits (fneg a) = expBits a := by
  rw [expBits_eq, expBits_eq, fneg_toNat]; omega

@[simp] theorem fracBits_fneg (a : F64) : fracBits (fneg a) = fracBits a := by
  rw [fracBits_eq, fracBits_eq, fneg_toNat]; omega

@[simp] theorem mag_fneg (a : F64) : mag (fneg a) = mag a := by simp [mag]

@[simp] theorem isNaN_fneg (a : F64) : isNaN (fneg a) = isNaN a := by simp [isNaN, isSpecial]

@[simp] theorem isInf_fneg (a : F64) : isInf (fneg a) = isInf a := by simp [isInf, isSpecial]

@[simp] theorem isFinite_fneg (a : F64) : isFinite (fneg a) = isFinite a := by simp [isFinite, isSpecial]

/-- The NaN of an operation is a NaN, whatever the free bits (R179). -/
theorem isNaN_nanOfBits (w : F64) : isNaN (nanOfBits w) = true := by
  have key (v : F64) (m : F64) (hm : m = 0x7FF8000000000000#64 ∨ m = 0x7FF0000000000000#64)
      (hf : fracBits (v ||| m) ≠ 0) : isNaN (v ||| m) = true := by
    have he : expBits (v ||| m) = 2047 := by
      have : (v ||| m).extractLsb' 52 11 = 2047#11 := by
        rw [BitVec.extractLsb'_or]
        rcases hm with rfl | rfl
        · rw [show (0x7FF8000000000000#64).extractLsb' 52 11 = BitVec.allOnes 11 from rfl, BitVec.or_allOnes]; rfl
        · rw [show (0x7FF0000000000000#64).extractLsb' 52 11 = BitVec.allOnes 11 from rfl, BitVec.or_allOnes]; rfl
      simp [expBits, this]
    simp [isNaN, isSpecial, he, hf]
  unfold nanOfBits
  split <;> rename_i h
  · apply key _ _ (.inl rfl)
    intro hz
    have hb : ((w &&& 0x8000000000000000#64) ||| 0x7FF8000000000000#64).getLsbD 51 = true := by simp
    have : ((w &&& 0x8000000000000000#64 ||| 0x7FF8000000000000#64).extractLsb' 0 52) = 0#52 := by
      apply BitVec.eq_of_toNat_eq; simpa [fracBits] using hz
    have h2 := congrArg (fun v => v.getLsbD 51) this
    simp at h2
  · apply key _ _ (.inr rfl)
    have : fracBits (w ||| 0x7FF0000000000000#64) = fracBits w := by
      unfold fracBits
      rw [BitVec.extractLsb'_or, show (0x7FF0000000000000#64).extractLsb' 0 52 = 0#52 from rfl, BitVec.or_zero]
    rw [this]; exact h

@[simp] theorem isNaN_freeNaN (op : FloatOp) (a b : F64) : isNaN (freeNaN op a b) = true := isNaN_nanOfBits _

/-- IEEE equality with zero picks out the two zeros (R172, D32). -/
theorem feq_zero_iff (a : F64) : feq a zero64 = true ↔ a = 0#64 ∨ a = 0x8000000000000000#64 := by
  rw [← isZero_iff]
  have hz : isZero zero64 = true := by decide
  have hn : isNaN zero64 = false := by decide
  constructor
  · intro h
    simp only [feq, hz, hn, Bool.and_true, Bool.and_eq_true, Bool.or_eq_true, beq_iff_eq] at h
    rcases h.2 with h | h
    · rw [h]; exact hz
    · exact h
  · intro h
    have : isNaN a = false := by
      simp only [isZero, Bool.and_eq_true, beq_iff_eq] at h
      simp [isNaN, isSpecial, h.1]
    simp [feq, hz, hn, this, h]

/-! ### The magnitude of a bit pattern -/

/-- The magnitude, in units of 2^-1074, of the pattern `m` with sign bit 0, read as a whole number. -/
def magOfBits (m : Nat) : Nat :=
  if m / 2 ^ 52 = 0 then m % 2 ^ 52 else (2 ^ 52 + m % 2 ^ 52) * 2 ^ (m / 2 ^ 52 - 1)

theorem mag_eq_magOfBits (a : F64) : mag a = magOfBits (a.toNat % 2 ^ 63) := by
  have ha := a.isLt
  unfold mag magOfBits
  rw [expBits_eq, fracBits_eq, Nat.shiftLeft_eq]
  have h1 : a.toNat / 2 ^ 52 % 2 ^ 11 = a.toNat % 2 ^ 63 / 2 ^ 52 := by omega
  have h2 : a.toNat % 2 ^ 52 = a.toNat % 2 ^ 63 % 2 ^ 52 := by omega
  rw [h1, h2]

/-- The pattern with exponent part `q` and significand `s` stands for `s * 2^q`, whether or not the significand carries. -/
theorem magOfBits_scaled (q s : Nat) (hs : s ≤ 2 ^ 53) (hq : q ≠ 0 → 2 ^ 52 ≤ s) :
    magOfBits (q * 2 ^ 52 + s) = s * 2 ^ q := by
  unfold magOfBits
  by_cases h53 : s = 2 ^ 53
  · subst h53
    have h1 : (q * 2 ^ 52 + 2 ^ 53) / 2 ^ 52 = q + 2 := by omega
    have h2 : (q * 2 ^ 52 + 2 ^ 53) % 2 ^ 52 = 0 := by omega
    rw [h1, h2, if_neg (by omega), show q + 2 - 1 = q + 1 by omega, Nat.pow_succ]; omega
  · by_cases h52 : 2 ^ 52 ≤ s
    · have h1 : (q * 2 ^ 52 + s) / 2 ^ 52 = q + 1 := by omega
      have h2 : (q * 2 ^ 52 + s) % 2 ^ 52 = s - 2 ^ 52 := by omega
      rw [h1, h2, if_neg (by omega), show q + 1 - 1 = q by omega, Nat.add_sub_cancel' h52]
    · have hq0 : q = 0 := by by_contra h; exact h52 (hq h)
      subst hq0
      have h1 : (0 * 2 ^ 52 + s) / 2 ^ 52 = 0 := by omega
      rw [h1, if_pos rfl]; omega

/-! ### Narrowing -/

/-- `roundDiv` lies within half a divisor of the exact quotient, and an exact half goes to the even side. -/
theorem roundDiv_spec (n d : Nat) (hd : 0 < d) :
    2 * n ≤ (2 * roundDiv n d + 1) * d ∧ 2 * roundDiv n d * d ≤ 2 * n + d ∧
      (2 * n = (2 * roundDiv n d + 1) * d ∨ 2 * roundDiv n d * d = 2 * n + d → roundDiv n d % 2 = 0) := by
  have hn := Nat.div_add_mod n d
  have hr := Nat.mod_lt n hd
  have hcomm : d * (n / d) = n / d * d := Nat.mul_comm _ _
  have e1 : (2 * (n / d) + 1) * d = 2 * (n / d * d) + d := by ring
  have e2 : 2 * (n / d) * d = 2 * (n / d * d) := by ring
  have e3 : (2 * (n / d + 1) + 1) * d = 2 * (n / d * d) + 3 * d := by ring
  have e4 : 2 * (n / d + 1) * d = 2 * (n / d * d) + 2 * d := by ring
  unfold roundDiv
  split <;> rename_i h
  · rw [e3, e4]
    refine ⟨by omega, by omega, ?_⟩
    intro hh
    rcases h with h | ⟨h, ho⟩ <;> omega
  · rw [e1, e2]
    push Not at h
    refine ⟨by omega, by omega, ?_⟩
    intro hh
    rcases hh with hh | hh
    · have := h.2 (by omega)
      omega
    · omega

/-- No whole multiple of the divisor is nearer to `n` than `roundDiv n d`, and a different one equally near leaves it even. -/
theorem roundDiv_nearest (n d : Nat) (hd : 0 < d) (w : Nat) :
    |(n : ℤ) - roundDiv n d * d| ≤ |(n : ℤ) - w * d| ∧
      (|(n : ℤ) - roundDiv n d * d| = |(n : ℤ) - w * d| → w = roundDiv n d ∨ roundDiv n d % 2 = 0) := by
  obtain ⟨h1, h2, h3⟩ := roundDiv_spec n d hd
  generalize roundDiv n d = r at *
  have h1' : 2 * (n : ℤ) ≤ (2 * r + 1) * d := by exact_mod_cast h1
  have h2' : 2 * (r : ℤ) * d ≤ 2 * n + d := by exact_mod_cast h2
  have hd' : (0 : ℤ) < d := by exact_mod_cast hd
  rcases lt_trichotomy w r with hw | rfl | hw
  · have hw' : (w : ℤ) * d + d ≤ r * d := by nlinarith [show (w : ℤ) + 1 ≤ r by exact_mod_cast hw]
    rw [abs_of_nonneg (show (0 : ℤ) ≤ n - w * d by nlinarith), abs_le]
    refine ⟨⟨by nlinarith, by nlinarith⟩, fun he => .inr (h3 (.inr ?_))⟩
    rcases abs_cases ((n : ℤ) - r * d) with ⟨hab, _⟩ | ⟨hab, _⟩
    · exfalso; rw [hab] at he; nlinarith
    · rw [hab] at he
      have : 2 * (r : ℤ) * d = 2 * n + d := by nlinarith
      exact_mod_cast this
  · exact ⟨le_refl _, fun _ => .inl rfl⟩
  · have hw' : (r : ℤ) * d + d ≤ w * d := by nlinarith [show (r : ℤ) + 1 ≤ w by exact_mod_cast hw]
    rw [abs_of_nonpos (show (n : ℤ) - w * d ≤ 0 by nlinarith), abs_le]
    refine ⟨⟨by nlinarith, by nlinarith⟩, fun he => .inr (h3 (.inl ?_))⟩
    rcases abs_cases ((n : ℤ) - r * d) with ⟨hab, _⟩ | ⟨hab, _⟩
    · rw [hab] at he
      have : 2 * (n : ℤ) = (2 * r + 1) * d := by nlinarith
      exact_mod_cast this
    · exfalso; rw [hab] at he; nlinarith

/-- The significand `roundMag` keeps: at most 2^53, and at least 2^52 unless the exponent part is 0; the exact quotient reaches
2^52 units of the last place then. -/
theorem roundMag_significand (n d : Nat) (hd : 0 < d) :
    roundDiv n (d * 2 ^ ulpExp n d) ≤ 2 ^ 53 ∧
      (ulpExp n d ≠ 0 → 2 ^ 52 ≤ roundDiv n (d * 2 ^ ulpExp n d) ∧ 2 ^ 52 * (d * 2 ^ ulpExp n d) ≤ n) := by
  have hD : 0 < d * 2 ^ ulpExp n d := by positivity
  have hlog : n / d < 2 ^ (Nat.log2 (n / d) + 1) := Nat.lt_log2_self
  have hquot : n / (d * 2 ^ ulpExp n d) < 2 ^ 53 := by
    rw [← Nat.div_div_eq_div_mul, Nat.div_lt_iff_lt_mul (by positivity), ← Nat.pow_add]
    refine lt_of_lt_of_le hlog (Nat.pow_le_pow_right (by decide) ?_)
    unfold ulpExp; omega
  constructor
  · unfold roundDiv; split <;> omega
  · intro hq
    have hbig : 2 ^ 52 ≤ n / (d * 2 ^ ulpExp n d) := by
      rw [← Nat.div_div_eq_div_mul, Nat.le_div_iff_mul_le (by positivity), ← Nat.pow_add]
      have hne : n / d ≠ 0 := by
        intro h0; apply hq; simp [ulpExp, h0]
      refine le_trans (Nat.pow_le_pow_right (by decide) ?_) (Nat.log2_self_le hne)
      unfold ulpExp at hq ⊢; omega
    exact ⟨by unfold roundDiv; split <;> omega, (Nat.le_div_iff_mul_le hD).mp hbig⟩

/-- A result that does not overflow stands for the significand at its exponent. -/
theorem magOfBits_roundMag (n d : Nat) (hd : 0 < d) (h : roundMag n d < infMag) :
    roundMag n d = ulpExp n d * 2 ^ 52 + roundDiv n (d * 2 ^ ulpExp n d) ∧
      magOfBits (roundMag n d) = roundDiv n (d * 2 ^ ulpExp n d) * 2 ^ ulpExp n d := by
  have hm : roundMag n d = ulpExp n d * 2 ^ 52 + roundDiv n (d * 2 ^ ulpExp n d) := by
    unfold roundMag at h ⊢
    rw [Nat.shiftLeft_eq] at h ⊢
    omega
  obtain ⟨hs, hq⟩ := roundMag_significand n d hd
  exact ⟨hm, by rw [hm]; exact magOfBits_scaled _ _ hs (fun h0 => (hq h0).1)⟩

/-- Every pattern of a finite magnitude is a significand below 2^53 at some exponent, at least 2^52 when the exponent is not 0. -/
theorem magOfBits_cases (m : Nat) : ∃ s e, s < 2 ^ 53 ∧ magOfBits m = s * 2 ^ e := by
  unfold magOfBits
  split
  · exact ⟨m % 2 ^ 52, 0, by omega, by simp⟩
  · exact ⟨2 ^ 52 + m % 2 ^ 52, m / 2 ^ 52 - 1, by omega, rfl⟩

/-- `roundMag` gives the nearest binary64 magnitude to `n / d`, and where another one is equally near, an even pattern: round to
nearest, ties to even (R10). -/
theorem roundMag_nearest (n d : Nat) (hd : 0 < d) (h : roundMag n d < infMag) (x : Nat) :
    |(n : ℤ) - magOfBits (roundMag n d) * d| ≤ |(n : ℤ) - magOfBits x * d| ∧
      (|(n : ℤ) - magOfBits (roundMag n d) * d| = |(n : ℤ) - magOfBits x * d| →
        magOfBits x = magOfBits (roundMag n d) ∨ roundMag n d % 2 = 0) := by
  obtain ⟨hm, hv⟩ := magOfBits_roundMag n d hd h
  obtain ⟨hs, hq⟩ := roundMag_significand n d hd
  have hD : 0 < d * 2 ^ ulpExp n d := by positivity
  have heven : roundDiv n (d * 2 ^ ulpExp n d) % 2 = 0 → roundMag n d % 2 = 0 := by
    intro h2; rw [hm]; omega
  rw [hv]
  generalize hr : roundDiv n (d * 2 ^ ulpExp n d) = r at *
  have near := fun w => roundDiv_nearest n (d * 2 ^ ulpExp n d) hD w
  rw [hr] at near
  have hcast : ((r * 2 ^ ulpExp n d : ℕ) : ℤ) * d = (r : ℤ) * ((d * 2 ^ ulpExp n d : ℕ) : ℤ) := by push_cast; ring
  rw [hcast]
  obtain ⟨t, e, ht, hx⟩ := magOfBits_cases x
  rw [hx]
  by_cases he : ulpExp n d ≤ e
  · -- the other magnitude is a multiple of the last place kept
    have hgrid : ((t * 2 ^ e : ℕ) : ℤ) * d = ((t * 2 ^ (e - ulpExp n d) : ℕ) : ℤ) * ((d * 2 ^ ulpExp n d : ℕ) : ℤ) := by
      have : t * 2 ^ e * d = t * 2 ^ (e - ulpExp n d) * (d * 2 ^ ulpExp n d) := by
        conv_lhs => rw [← Nat.sub_add_cancel he, Nat.pow_add]
        ring
      exact_mod_cast this
    rw [hgrid]
    refine ⟨(near _).1, fun heq => ?_⟩
    rcases (near _).2 heq with hw | hw
    · left
      rw [← hw]
      conv_lhs => rw [← Nat.sub_add_cancel he, Nat.pow_add, ← Nat.mul_assoc]
    · exact .inr (heven hw)
  · -- the other magnitude lies below 2^52 of them, the exact quotient does not
    push Not at he
    have hge := (hq (by omega)).2
    have hlt : t * 2 ^ e * d < 2 ^ 52 * (d * 2 ^ ulpExp n d) := by
      have h1 : t * 2 ^ e < 2 ^ 52 * 2 ^ ulpExp n d := by
        calc t * 2 ^ e < 2 ^ 53 * 2 ^ e := by
              exact Nat.mul_lt_mul_of_pos_right ht (by positivity)
          _ = 2 ^ 52 * 2 ^ (e + 1) := by ring
          _ ≤ 2 ^ 52 * 2 ^ ulpExp n d := Nat.mul_le_mul_left _ (Nat.pow_le_pow_right (by decide) he)
      calc t * 2 ^ e * d < 2 ^ 52 * 2 ^ ulpExp n d * d := Nat.mul_lt_mul_of_pos_right h1 hd
        _ = 2 ^ 52 * (d * 2 ^ ulpExp n d) := by ring
    have hge' : (2 ^ 52 : ℤ) * ((d * 2 ^ ulpExp n d : ℕ) : ℤ) ≤ n := by exact_mod_cast hge
    have hlt' : ((t * 2 ^ e : ℕ) : ℤ) * d < 2 ^ 52 * ((d * 2 ^ ulpExp n d : ℕ) : ℤ) := by exact_mod_cast hlt
    have hb := (near (2 ^ 52)).1
    rw [show ((2 ^ 52 : ℕ) : ℤ) = 2 ^ 52 by norm_num, abs_of_nonneg (show (0 : ℤ) ≤ n - 2 ^ 52 * _ by linarith)] at hb
    rw [abs_of_nonneg (show (0 : ℤ) ≤ n - ((t * 2 ^ e : ℕ) : ℤ) * d by linarith)]
    exact ⟨by linarith, fun heq => absurd heq (by intro h9; linarith)⟩

/-- The magnitude from which a result overflows, in units of 2^-1074: half a unit in the last place above the greatest finite one. -/
def overflowMag : Nat := (2 ^ 54 - 1) * 2 ^ 2044

/-- A result overflows to infinity exactly from half a unit in the last place above the greatest finite value. -/
theorem roundMag_lt_infMag_iff (n d : Nat) (hd : 0 < d) : roundMag n d < infMag ↔ n < overflowMag * d := by
  obtain ⟨hs, hq⟩ := roundMag_significand n d hd
  have hD : 0 < d * 2 ^ ulpExp n d := by positivity
  have hinf : infMag = 2047 * 2 ^ 52 := by decide
  have hm : roundMag n d = min (ulpExp n d * 2 ^ 52 + roundDiv n (d * 2 ^ ulpExp n d)) (2047 * 2 ^ 52) := by
    unfold roundMag; rw [Nat.shiftLeft_eq, hinf]
  rw [hm, hinf]
  obtain ⟨h1, h2, h3⟩ := roundDiv_spec n (d * 2 ^ ulpExp n d) hD
  unfold overflowMag
  generalize roundDiv n (d * 2 ^ ulpExp n d) = r at *
  generalize ulpExp n d = q at *
  obtain ⟨p, hp⟩ : ∃ p : Nat, p = 2044 := ⟨_, rfl⟩
  rw [← hp]
  have hP : 0 < d * 2 ^ p := by positivity
  have e0 : (2 ^ 54 - 1) * 2 ^ p * d = (2 ^ 54 - 1) * (d * 2 ^ p) := by ring
  have e1 : d * 2 ^ (p + 1) = 2 * (d * 2 ^ p) := by rw [Nat.pow_succ]; ring
  have e2 : d * 2 ^ (p + 2) = 4 * (d * 2 ^ p) := by rw [Nat.pow_succ, Nat.pow_succ]; ring
  rw [e0]
  rcases lt_trichotomy q (p + 1) with hlt | rfl | hgt
  · have hpow : d * 2 ^ q ≤ d * 2 ^ p := Nat.mul_le_mul_left _ (Nat.pow_le_pow_right (by decide) (by omega))
    generalize d * 2 ^ p = P at *
    have h4 : 2 * n ≤ (2 * 2 ^ 53 + 1) * P := h1.trans (Nat.mul_le_mul (by omega) hpow)
    constructor
    · intro _; omega
    · intro _; omega
  · rw [e1] at h1 h2 h3
    have h5 : (2 * r + 1) * (2 * (d * 2 ^ p)) = 4 * (r * (d * 2 ^ p)) + 2 * (d * 2 ^ p) := by ring
    have h6 : 2 * r * (2 * (d * 2 ^ p)) = 4 * (r * (d * 2 ^ p)) := by ring
    rw [h5] at h1 h3
    rw [h6] at h2 h3
    generalize d * 2 ^ p = P at *
    constructor
    · intro h
      rcases Nat.lt_or_ge r (2 ^ 53 - 1) with hr | hr
      · have h7 : r * P ≤ (2 ^ 53 - 2) * P := Nat.mul_le_mul_right _ (by omega)
        omega
      · have hr2 : r = 2 ^ 53 - 1 := by omega
        subst hr2
        omega
    · intro h
      have hr : r ≠ 2 ^ 53 := by
        rintro rfl
        omega
      omega
  · have hq' := hq (by omega)
    have hpow : d * 2 ^ (p + 2) ≤ d * 2 ^ q := Nat.mul_le_mul_left _ (Nat.pow_le_pow_right (by decide) (by omega))
    rw [e2] at hpow
    generalize d * 2 ^ p = P at *
    constructor
    · intro h; omega
    · intro h
      have h8 : 2 ^ 52 * (4 * P) ≤ n := (Nat.mul_le_mul_left _ hpow).trans hq'.2
      omega

end Sys2Proof.Machine
end

