-- ==== Sys2Proof/Machine/Value.lean ====
section
/-! DEFINITION. The real numbers that binary64 bit patterns stand for, and what it is for one to be a number rounded to nearest, ties to
even (R10, D9). -/

namespace Sys2Proof.Machine

/-- The value of a finite binary64. -/
def f64Value (a : F64) : ℚ := (if signBit a then -1 else 1) * (mag a : ℚ) / 2 ^ 1074

/-- The least magnitude that overflows: half a unit in the last place above the greatest finite value. -/
def overflowThreshold : ℚ := (2 ^ 54 - 1) * 2 ^ 970

/-- A finite value of magnitude below 1e300 (R179). -/
def belowHuge (a : F64) : Prop := isFinite a = true ∧ |f64Value a| < 10 ^ 300

/-- A finite value of magnitude at most 1, as a sine or a cosine is (R179). -/
def withinUnit (a : F64) : Prop := isFinite a = true ∧ |f64Value a| ≤ 1

/-- `r` is `q` rounded to nearest, ties to even (R10): the sign is that of `q`; below the overflow threshold `r` is finite, no finite
value is nearer to `q`, and where another value is equally near the fraction of `r` is even; from the threshold on it is infinite. -/
def roundsTo (q : ℚ) (r : F64) : Prop :=
  (q < 0 → signBit r = true) ∧ (0 < q → signBit r = false) ∧
    (|q| < overflowThreshold → isFinite r = true ∧
      ∀ f, isFinite f = true → |f64Value r - q| ≤ |f64Value f - q| ∧
        (|f64Value r - q| = |f64Value f - q| → f64Value f = f64Value r ∨ fracBits r % 2 = 0)) ∧
    (overflowThreshold ≤ |q| → isInf r = true)

/-- `r` is the real `y` rounded to nearest, ties to even (R10, D9). -/
def roundsToReal (y : ℝ) (r : F64) : Prop :=
  (y < 0 → signBit r = true) ∧ (0 < y → signBit r = false) ∧
    (|y| < (overflowThreshold : ℝ) → isFinite r = true ∧
      ∀ f, isFinite f = true → |(f64Value r : ℝ) - y| ≤ |(f64Value f : ℝ) - y| ∧
        (|(f64Value r : ℝ) - y| = |(f64Value f : ℝ) - y| → f64Value f = f64Value r ∨ fracBits r % 2 = 0)) ∧
    ((overflowThreshold : ℝ) ≤ |y| → isInf r = true)

end Sys2Proof.Machine
end

