-- ==== Sys2Proof/Laws/Rounding.lean ====
section
/-! SUPPORT. The fields and the value of a magnitude with a sign put on it, and that `roundMag` with a sign is the exact quotient
rounded to nearest, ties to even (R10). -/

namespace Sys2Proof.Machine

/-! ### A sign put on magnitude bits -/

theorem infMag_eq : infMag = 2047 * 2 ^ 52 := by decide

theorem roundMag_le_infMag (n d : Nat) : roundMag n d ≤ infMag := by unfold roundMag; omega

theorem roundMag_lt (n d : Nat) : roundMag n d < 2 ^ 63 := lt_of_le_of_lt (roundMag_le_infMag n d) (by decide)

variable (neg : Bool) (m : Nat)

theorem withSign_toNat (h : m < 2 ^ 63) : (withSign neg m).toNat = m + if neg then 2 ^ 63 else 0 := by
  unfold withSign; rw [BitVec.toNat_ofNat]; split <;> omega

theorem signBit_withSign (h : m < 2 ^ 63) : signBit (withSign neg m) = neg := by
  rw [signBit_eq, withSign_toNat neg m h]; cases neg <;> simp <;> omega

theorem mag_withSign (h : m < 2 ^ 63) : mag (withSign neg m) = magOfBits m := by
  rw [mag_eq_magOfBits, withSign_toNat neg m h]
  congr 1
  cases neg <;> simp <;> omega

theorem fracBits_withSign_mod_two (h : m < 2 ^ 63) : fracBits (withSign neg m) % 2 = m % 2 := by
  rw [fracBits_eq, withSign_toNat neg m h]; cases neg <;> simp <;> omega

theorem expBits_withSign (h : m < 2 ^ 63) : expBits (withSign neg m) = m / 2 ^ 52 := by
  rw [expBits_eq, withSign_toNat neg m h]; cases neg <;> simp <;> omega

theorem isFinite_withSign (h : m < infMag) : isFinite (withSign neg m) = true := by
  rw [infMag_eq] at h
  unfold isFinite isSpecial
  rw [expBits_withSign neg m (by omega)]
  simp; omega

theorem isInf_withSign_infMag : isInf (withSign neg infMag) = true := by cases neg <;> decide

/-! ### Values -/

/-- The sign of a value as a factor. -/
def signFactor (neg : Bool) : ℚ := if neg then -1 else 1

@[simp] theorem abs_signFactor : |signFactor neg| = 1 := by cases neg <;> simp [signFactor]

theorem f64Value_eq (a : F64) : f64Value a = signFactor (signBit a) * (mag a : ℚ) / 2 ^ 1074 := rfl

theorem f64Value_withSign (h : m < 2 ^ 63) :
    f64Value (withSign neg m) = signFactor neg * (magOfBits m : ℚ) / 2 ^ 1074 := by
  rw [f64Value_eq, signBit_withSign neg m h, mag_withSign neg m h]

theorem unit_pos : (0 : ℚ) < 2 ^ 1074 := pow_pos (by norm_num) _

theorem overflowThreshold_mul : overflowThreshold * 2 ^ 1074 = ((overflowMag : ℕ) : ℚ) := by
  unfold overflowThreshold overflowMag
  rw [show (2 ^ 54 - 1 : ℕ) = 18014398509481983 from rfl, show (2 ^ 54 - 1 : ℚ) = 18014398509481983 by norm_num,
    Nat.cast_mul, Nat.cast_pow, mul_assoc, ← pow_add]
  rfl

/-- `roundMag n d` with a sign is `n / d` units of 2^-1074 with that sign, rounded (R10). -/
theorem roundsTo_withSign_roundMag (n d : Nat) (hd : 0 < d) : roundsTo (signFactor neg * ((n : ℚ) / d) / 2 ^ 1074) (withSign neg (roundMag n d)) := by
  have hle := roundMag_le_infMag n d
  have h63 : roundMag n d < 2 ^ 63 := by rw [infMag_eq] at hle; omega
  have hdq : (0 : ℚ) < d := by exact_mod_cast hd
  have hU := unit_pos
  have hT := overflowThreshold_mul
  have hlt := roundMag_lt_infMag_iff n d hd
  have near := roundMag_nearest n d hd
  rw [roundsTo, signBit_withSign _ _ h63, fracBits_withSign_mod_two _ _ h63]
  generalize hm : roundMag n d = m at *
  have hval := f64Value_withSign neg m h63
  have hfv' : ∀ f : F64, f64Value f = signFactor (signBit f) * (mag f : ℚ) / 2 ^ 1074 := fun f => rfl
  generalize (2 : ℚ) ^ 1074 = U at *
  have habs : |signFactor neg * ((n : ℚ) / d) / U| = n / d / U := by
    rw [abs_div, abs_mul, abs_signFactor, one_mul, abs_of_nonneg (div_nonneg (Nat.cast_nonneg _) hdq.le), abs_of_pos hU]
  have hnd : (0 : ℚ) ≤ n / d / U := div_nonneg (div_nonneg (Nat.cast_nonneg _) hdq.le) hU.le
  have hover : (|signFactor neg * ((n : ℚ) / d) / U| < overflowThreshold ↔ m < infMag) := by
    rw [habs, hlt, div_lt_iff₀ hU, hT, div_lt_iff₀ hdq]
    exact_mod_cast Iff.rfl
  refine ⟨?_, ?_, ?_, ?_⟩
  · intro h
    cases neg
    · exfalso; have : (0:ℚ) ≤ signFactor false * ((n : ℚ) / d) / U := by simpa [signFactor] using hnd
      linarith
    · rfl
  · intro h
    cases neg
    · rfl
    · exfalso; have : (0:ℚ) ≤ ((n : ℚ) / d) / U := hnd
      simp [signFactor] at h; rw [neg_div] at h; linarith
  · intro h
    have hmi := hover.mp h
    refine ⟨isFinite_withSign neg m hmi, fun f hf => ?_⟩
    rw [hval]
    have near' := near hmi
    have dist (x : ℕ) (σ : ℚ) (hσ : |σ| = 1) : |σ * (x : ℚ) / U - σ * ((n : ℚ) / d) / U| = ((|(n : ℤ) - x * d| : ℤ) : ℚ) / (d * U) := by
      have : σ * (x : ℚ) / U - σ * ((n : ℚ) / d) / U = σ * (-(((n : ℤ) - x * d : ℤ) : ℚ) / (d * U)) := by
        push_cast; field_simp; ring
      rw [this, abs_mul, hσ, one_mul, abs_div, abs_neg, Int.cast_abs, abs_of_pos (mul_pos hdq hU)]
    have hdU : (0 : ℚ) < d * U := mul_pos hdq hU
    rw [dist _ _ (abs_signFactor neg)]
    have hfv := hfv' f
    have hfm : mag f = magOfBits (f.toNat % 2 ^ 63) := mag_eq_magOfBits f
    rw [hfv]
    by_cases hs : signBit f = neg
    · rw [hs, hfm, dist _ _ (abs_signFactor neg)]
      obtain ⟨a, b⟩ := near' (f.toNat % 2 ^ 63)
      constructor
      · rw [div_le_div_iff_of_pos_right hdU]; exact_mod_cast a
      · intro he
        rw [div_left_inj' hdU.ne'] at he
        rcases b (by exact_mod_cast he) with h | h
        · left; rw [h]
        · exact .inr h
    · have hopp : signFactor (signBit f) = - signFactor neg := by
        have h1 : signBit f = !neg := by revert hs; cases signBit f <;> cases neg <;> simp
        rw [h1]; cases neg <;> simp [signFactor]
      have far : |signFactor (signBit f) * (mag f : ℚ) / U - signFactor neg * ((n : ℚ) / d) / U| = ((mag f * d + n : ℕ) : ℚ) / (d * U) := by
        have : signFactor (signBit f) * (mag f : ℚ) / U - signFactor neg * ((n : ℚ) / d) / U = signFactor (signBit f) * (((mag f * d + n : ℕ) : ℚ) / (d * U)) := by
          rw [hopp]; push_cast; field_simp; ring
        rw [this, abs_mul, abs_signFactor, one_mul, abs_of_nonneg (div_nonneg (Nat.cast_nonneg _) hdU.le)]
      rw [far]
      obtain ⟨a, b⟩ := near' 0
      have z : magOfBits 0 = 0 := by decide
      rw [z] at a b
      simp only [Nat.cast_zero, zero_mul, sub_zero, Nat.abs_cast] at a b
      constructor
      · rw [div_le_div_iff_of_pos_right hdU]
        have : |(n : ℤ) - magOfBits m * d| ≤ ((mag f * d + n : ℕ) : ℤ) := by push_cast; nlinarith [Nat.zero_le (mag f * d)]
        exact_mod_cast this
      · intro he
        rw [div_left_inj' hdU.ne'] at he
        have he' : |(n : ℤ) - magOfBits m * d| = ((mag f * d + n : ℕ) : ℤ) := by exact_mod_cast he
        have hmf : mag f * d = 0 := by
          have : ((mag f * d + n : ℕ) : ℤ) ≤ n := by rw [← he']; exact a
          have : mag f * d + n ≤ n := by exact_mod_cast this
          omega
        have hmf0 : mag f = 0 := by rcases Nat.mul_eq_zero.mp hmf with h | h; exact h; omega
        rcases b (by rw [he']; rw [hmf]; simp) with h | h
        · left; rw [← h, hmf0]; simp
        · exact .inr h
  · intro h
    have : ¬ m < infMag := fun h' => absurd (hover.mpr h') (not_lt.mpr h)
    have : m = infMag := by omega
    rw [this]; exact isInf_withSign_infMag neg

end Sys2Proof.Machine
end

