-- ==== Sys2Proof/Machine/Evaluation.lean ====
section
/-! DEFINITION. The sine and the cosine of a binary64 argument in fixed point on natural numbers, at a chosen precision (R7, D9).

The argument is reduced by an approximation of pi, a Taylor sum gives the value with a known error, and both ends of the resulting
interval are rounded. If they round to the same binary64 value, that is the correctly rounded result. -/

namespace Sys2Proof.Machine

/-! ### pi -/

/-- pi rounded down to a whole number of units of 2^-2176: 2176 bits hold every product with a quadrant number below 2^1025. -/
def piFix : Nat :=
  ((((0x3243F6A8885A308D313198A2E03707344A4093822299F31D0082EFA98EC4E6C89452821E638D01377BE5466CF34E90C6CC0AC29B7C97C <<< 436
    ||| 0x50DD3F84D5B5B54709179216D5D98979FB1BD1310BA698DFB5AC2FFD72DBD01ADFB7B8E1AFED6A267E96BA7C9045F12C7F9924A19947B) <<< 436
    ||| 0x3916CF70801F2E2858EFC16636920D871574E69A458FEA3F4933D7E0D95748F728EB658718BCD5882154AEE7B54A41DC25A59B59C30D5) <<< 436
    ||| 0x392AF26013C5D1B023286085F0CA417918B8DB38EF8E79DCB0603A180E6C9E0E8BB01E8A3ED71577C1BD314B2778AF2FDA55605C60E65) <<< 436
    ||| 0x525F3AA55AB945748986263E8144055CA396A2AAB10B6B4CC5C341141E8CEA15486AF7C72E993B3EE1411636FBC2A2BA9C55D741831F6)

/-- Two more terms at a time of `2^P * arctan (1 / n)` from term `k` on, rounded down: (terms added, terms subtracted). -/
def machin (P n : Nat) : Nat → Nat → Nat × Nat
  | 0, _ => (0, 0)
  | fuel + 1, k =>
    let r := machin P n fuel (k + 2)
    (2 ^ P / n ^ (2 * k + 1) / (2 * k + 1) + r.1, 2 ^ P / n ^ (2 * k + 3) / (2 * k + 3) + r.2)

/-- pi in units of 2^-places, from Machin's formula with as many places again to spare. -/
def piTo (places : Nat) : Nat :=
  let a := machin (2 * places) 5 places 0
  let b := machin (2 * places) 239 places 0
  (16 * a.1 + 4 * b.2 - (16 * a.2 + 4 * b.1)) / 2 ^ places

/-! ### An evaluation -/

/-- What an evaluation works with. -/
structure Precision where
  /-- The bits kept after the point. -/
  places : Nat
  /-- The bits after the point of the approximation of pi. -/
  piPlaces : Nat
  /-- pi in units of 2^-piPlaces. -/
  piValue : Nat
  /-- The pairs of terms of the series. -/
  pairs : Nat
  /-- A bound, in units of 2^-places, on the error of the sum: 2 units from the reduction, 8 for a pair of terms, 4 for the terms left
  out. -/
  error : Nat
  deriving DecidableEq, Repr

/-- The number of quarter turns in the magnitude `m` (in units of 2^-1074), and the rest in units of half a unit of pi's last place. -/
def quadrant (d : Precision) (m : Nat) : Nat × Nat :=
  let twice := m <<< (d.piPlaces - 1073)
  (twice / d.piValue, twice % d.piValue)

/-- The next term of the series: times the square `z` of the angle, over the next two factors of the factorial. -/
def nextTerm (p z k t : Nat) : Nat := (t * z) >>> p / ((k + 1) * (k + 2))

/-- The alternating sum of the terms after `t = angle^k / k!`, in units of 2^-p, cut off when a term vanishes. -/
def taylor (p z : Nat) : Nat → Nat → Nat → Nat → Nat → Nat
  | 0, _, _, pos, neg => pos - neg
  | fuel + 1, k, t, pos, neg =>
    if t = 0 then pos - neg
    else
      let u := nextTerm p z k t
      taylor p z fuel (k + 4) (nextTerm p z (k + 2) u) (pos + t) (neg + u)

/-- The sine (k = 1) or cosine (k = 0) of the angle `c` in the first quadrant, all in units of 2^-p, by so many pairs of terms. -/
def quarterSin (p pairs c : Nat) : Nat := taylor p ((c * c) >>> p) pairs 1 c 0 0

def quarterCos (p pairs c : Nat) : Nat := taylor p ((c * c) >>> p) pairs 0 (1 <<< p) 0 0

/-- The binary64 magnitude both ends of the interval round to, when they agree. -/
def settle (p error s : Nat) : Option Nat :=
  let lo := roundMag ((s - error) <<< 1074) (1 <<< p)
  if error < s ∧ lo = roundMag ((s + error) <<< 1074) (1 <<< p) then some lo else none

/-- The sine (shift 0) or the cosine (shift 1) of the magnitude `m`, if this precision settles its rounding: the sign, and the magnitude
bits. It is the sine or the cosine of the reduced angle, with the sign of the shifted quadrant. -/
def evaluate (d : Precision) (shift m : Nat) : Option (Bool × Nat) :=
  let q := (quadrant d m).1 + shift
  let c := (quadrant d m).2 >>> (d.piPlaces + 1 - d.places)
  (settle d.places d.error (if q % 2 = 0 then quarterSin d.places d.pairs c else quarterCos d.places d.pairs c)).map
    (fun r => (decide (2 ≤ q % 4), r))

/-- A precision that shares the fixed bits of pi. -/
def fixedPrecision (places : Nat) : Precision :=
  { places := places, piPlaces := 2176, piValue := piFix, pairs := 128, error := 4096 }

/-- The precisions tried first. -/
def precisions : List Precision := [fixedPrecision 192, fixedPrecision 448, fixedPrecision 1088]

/-- A precision of any number of places, with as many bits of pi as the magnitude `m` needs. -/
def widePrecision (m places : Nat) : Precision :=
  { places := places, piPlaces := places + Nat.log2 m + 1076, piValue := piTo (places + Nat.log2 m + 1076), pairs := places + 8,
    error := 8 * places + 80 }

end Sys2Proof.Machine
end

