-- ==== Sys2Proof/Laws/Pi.lean ====
section
/-! SUPPORT. `piFix` and `piTo` are pi, from Machin's formula and the arctangent series (log 4). -/

namespace Sys2Proof.Machine

open Real

/-! ### pi -/

/-- The remainder of the arctangent series of `x` after `k` terms. -/
noncomputable def arctanTail : ℕ → ℝ → ℝ
  | 0, x => arctan x
  | k + 1, x => x ^ (2 * k + 1) / (2 * k + 1) - arctanTail k x

theorem hasDerivAt_arctanTail (k : ℕ) (x : ℝ) : HasDerivAt (arctanTail k) (x ^ (2 * k) / (1 + x ^ 2)) x := by
  have hx : (1 + x ^ 2) ≠ 0 := by positivity
  induction k with
  | zero => simpa [arctanTail, one_div] using hasDerivAt_arctan x
  | succ k ih =>
    have hk : ((2 * k + 1 : ℕ) : ℝ) ≠ 0 := by positivity
    have h1 := ((hasDerivAt_pow (2 * k + 1) x).div_const ((2 * k + 1 : ℕ) : ℝ)).sub ih
    have e : ((2 * k + 1 : ℕ) : ℝ) * x ^ (2 * k + 1 - 1) / ((2 * k + 1 : ℕ) : ℝ) - x ^ (2 * k) / (1 + x ^ 2) =
        x ^ (2 * (k + 1)) / (1 + x ^ 2) := by
      rw [mul_div_cancel_left₀ _ hk, Nat.add_sub_cancel, eq_div_iff hx, sub_mul, div_mul_cancel₀ _ hx]; ring
    rw [e] at h1
    have hf : arctanTail (k + 1) = (fun y : ℝ => y ^ (2 * k + 1) / ((2 * k + 1 : ℕ) : ℝ)) - arctanTail k := by
      funext y; simp [arctanTail]
    rw [hf]; exact h1

theorem arctanTail_zero (k : ℕ) : arctanTail k 0 = 0 := by
  induction k with
  | zero => simp [arctanTail]
  | succ k ih => simp [arctanTail, ih]

theorem arctanTail_nonneg (k : ℕ) {x : ℝ} (hx : 0 ≤ x) : 0 ≤ arctanTail k x := by
  have hmono : Monotone (arctanTail k) := by
    apply monotone_of_deriv_nonneg (fun y => (hasDerivAt_arctanTail k y).differentiableAt)
    intro y
    rw [(hasDerivAt_arctanTail k y).deriv]
    have : (0 : ℝ) ≤ y ^ (2 * k) := by rw [pow_mul]; positivity
    positivity
  rw [← arctanTail_zero k]; exact hmono hx

theorem arctanTail_le (k : ℕ) {x : ℝ} (hx : 0 ≤ x) : arctanTail k x ≤ x ^ (2 * k + 1) / (2 * k + 1) := by
  have := arctanTail_nonneg (k + 1) hx
  rw [arctanTail] at this; linarith

/-- A quotient of naturals exceeds the rounded quotient by less than one. -/
theorem cast_div_bounds (N d : ℕ) (hd : 0 < d) : ((N / d : ℕ) : ℝ) ≤ (N : ℝ) / d ∧ (N : ℝ) / d < ((N / d : ℕ) : ℝ) + 1 := by
  have hd' : (0 : ℝ) < d := by exact_mod_cast hd
  refine ⟨Nat.cast_div_le, ?_⟩
  rw [div_lt_iff₀ hd']
  exact_mod_cast Nat.lt_mul_of_div_lt (Nat.lt_succ_self _) hd

/-- The fixed-point sum is within one unit a term, and the tail, of the arctangent. -/
theorem machin_spec (P n : ℕ) (hn : 0 < n) (fuel k : ℕ) :
    |(2 : ℝ) ^ P * arctanTail k (1 / n) - ((machin P n fuel k).1 - (machin P n fuel k).2)| ≤
      2 * fuel + 2 ^ P / (n : ℝ) ^ (2 * (k + 2 * fuel) + 1) := by
  have hn' : (0 : ℝ) < n := by exact_mod_cast hn
  have hx : (0 : ℝ) ≤ 1 / n := by positivity
  induction fuel generalizing k with
  | zero =>
    have h0 := arctanTail_nonneg k hx
    have h1 := arctanTail_le k hx
    simp only [machin, Nat.cast_zero, sub_zero, mul_zero, add_zero, zero_add]
    rw [abs_of_nonneg (by positivity)]
    calc (2 : ℝ) ^ P * arctanTail k (1 / n) ≤ 2 ^ P * ((1 / n) ^ (2 * k + 1) / (2 * k + 1)) := by gcongr
      _ ≤ 2 ^ P * ((1 / n) ^ (2 * k + 1) / 1) := by gcongr; linarith [Nat.cast_nonneg (α := ℝ) k]
      _ = _ := by rw [div_one, one_div, inv_pow]; rfl
  | succ fuel ih =>
    have h := ih (k + 2)
    have e : arctanTail k (1 / n : ℝ) = (1 / n) ^ (2 * k + 1) / (2 * k + 1) - (1 / n) ^ (2 * k + 3) / (2 * k + 3) + arctanTail (k + 2) (1 / n) := by
      simp only [arctanTail]; push_cast; ring_nf
    have fl (j : ℕ) (hj : 0 < j) : |(2 : ℝ) ^ P * ((1 / n) ^ j / j) - ((2 ^ P / n ^ j / j : ℕ) : ℝ)| ≤ 1 := by
      obtain ⟨a, b⟩ := cast_div_bounds (2 ^ P) (n ^ j * j) (by positivity)
      rw [← Nat.div_div_eq_div_mul] at a b
      have q : (2 : ℝ) ^ P * ((1 / n) ^ j / j) = ((2 ^ P : ℕ) : ℝ) / ((n ^ j * j : ℕ) : ℝ) := by
        push_cast; rw [one_div, inv_pow]; field_simp
      rw [q, abs_le]; constructor <;> linarith
    have f1 := fl (2 * k + 1) (by omega)
    have f2 := fl (2 * k + 3) (by omega)
    have hi : 2 * (k + 2 + 2 * fuel) + 1 = 2 * (k + 2 * (fuel + 1)) + 1 := by ring
    rw [hi] at h
    simp only [machin]
    rw [e]
    push_cast at *
    rw [abs_le] at *
    constructor <;> [nlinarith [h.1, f1.1, f2.2]; nlinarith [h.2, f1.2, f2.1]]

/-- pi, with 64 bits beyond those of `piFix`, from Machin's formula. -/
def machinPi : ℕ × ℕ :=
  let a := machin 2240 5 245 0
  let b := machin 2240 239 75 0
  (16 * a.1 + 4 * b.2, 16 * a.2 + 4 * b.1)

theorem piFix_machin : piFix * 2 ^ 64 + 10000 + machinPi.2 ≤ machinPi.1 ∧ machinPi.1 + 10000 ≤ (piFix + 1) * 2 ^ 64 + machinPi.2 := by
  decide +kernel

theorem machin_left : 2 ^ 2240 ≤ 5 ^ 981 ∧ 2 ^ 2240 ≤ 239 ^ 301 := by decide +kernel

/-- `piFix` is pi rounded down to 2176 bits after the point. -/
theorem piFix_bounds : (piFix : ℝ) < π * 2 ^ 2176 ∧ π * 2 ^ 2176 < piFix + 1 := by
  obtain ⟨p1, p2⟩ := piFix_machin
  obtain ⟨l1, l2⟩ := machin_left
  have a := machin_spec 2240 5 (by norm_num) 245 0
  have b := machin_spec 2240 239 (by norm_num) 75 0
  have m := four_mul_arctan_inv_5_sub_arctan_inv_239
  have l1' : (2 : ℝ) ^ 2240 / (5 : ℕ) ^ 981 ≤ 1 := by
    rw [div_le_one (by positivity)]; exact_mod_cast l1
  have l2' : (2 : ℝ) ^ 2240 / (239 : ℕ) ^ 301 ≤ 1 := by
    rw [div_le_one (by positivity)]; exact_mod_cast l2
  have e : (2 : ℝ) ^ 2240 = 2 ^ 2176 * 2 ^ 64 := by rw [← pow_add]
  simp only [arctanTail, one_div, Nat.zero_add] at a b
  simp only [machinPi] at p1 p2
  have p1' : (piFix : ℝ) * 2 ^ 64 + 10000 + (16 * (machin 2240 5 245 0).2 + 4 * (machin 2240 239 75 0).1) ≤
    16 * (machin 2240 5 245 0).1 + 4 * (machin 2240 239 75 0).2 := by exact_mod_cast p1
  have p2' : (16 * (machin 2240 5 245 0).1 + 4 * (machin 2240 239 75 0).2 : ℝ) + 10000 ≤ (piFix + 1) * 2 ^ 64 +
    (16 * (machin 2240 5 245 0).2 + 4 * (machin 2240 239 75 0).1) := by exact_mod_cast p2
  generalize (machin 2240 5 245 0).1 = x1 at *
  generalize (machin 2240 5 245 0).2 = x2 at *
  generalize (machin 2240 239 75 0).1 = y1 at *
  generalize (machin 2240 239 75 0).2 = y2 at *
  replace a := a.trans (add_le_add_right l1' _)
  replace b := b.trans (add_le_add_right l2' _)
  have hpi : π * ((2 : ℝ) ^ 2176 * 2 ^ 64) = 16 * ((2 : ℝ) ^ 2240 * arctan 5⁻¹) - 4 * ((2 : ℝ) ^ 2240 * arctan 239⁻¹) := by
    rw [← e]; linear_combination (-4 * (2 : ℝ) ^ 2240) * m
  push_cast at a b
  rw [abs_le] at a b
  clear l1 l2 l1' l2' e m p1 p2
  generalize (2 : ℝ) ^ 2240 * arctan 5⁻¹ = A at *
  generalize (2 : ℝ) ^ 2240 * arctan 239⁻¹ = B at *
  generalize (2 : ℝ) ^ 2176 = U at *
  constructor
  · have : (piFix : ℝ) * 2 ^ 64 < π * U * 2 ^ 64 := by linarith
    exact lt_of_mul_lt_mul_right this (by norm_num)
  · have : π * U * 2 ^ 64 < (piFix + 1) * 2 ^ 64 := by linarith
    exact lt_of_mul_lt_mul_right this (by norm_num)

theorem size_of_error (W : ℕ) (hW : 9 ≤ W) : 40 * W + 20 ≤ 2 ^ W := by
  induction W, hW using Nat.le_induction with
  | base => norm_num
  | succ n hn ih => rw [pow_succ]; omega

/-- `piTo` is pi within two units. -/
theorem piTo_bounds (W : ℕ) (hW : 9 ≤ W) : |π * 2 ^ W - (piTo W : ℝ)| ≤ 2 := by
  have hW' : (0 : ℝ) ≤ W := Nat.cast_nonneg W
  have size : (40 * W + 20 : ℝ) ≤ 2 ^ W := by exact_mod_cast size_of_error W hW
  have hP : (0 : ℝ) < 2 ^ W := pow_pos (by norm_num) _
  have left (n : ℕ) (hn : 2 ≤ n) : (2 : ℝ) ^ (2 * W) / (n : ℝ) ^ (2 * (0 + 2 * W) + 1) ≤ 1 := by
    have hn' : (2 : ℝ) ≤ n := by exact_mod_cast hn
    rw [div_le_one (by positivity)]
    calc (2 : ℝ) ^ (2 * W) ≤ 2 ^ (2 * (0 + 2 * W) + 1) := pow_le_pow_right₀ (by norm_num) (by omega)
      _ ≤ (n : ℝ) ^ (2 * (0 + 2 * W) + 1) := by gcongr
  have a := (machin_spec (2 * W) 5 (by norm_num) W 0).trans (add_le_add_right (left 5 (by norm_num)) _)
  have b := (machin_spec (2 * W) 239 (by norm_num) W 0).trans (add_le_add_right (left 239 (by norm_num)) _)
  have m := four_mul_arctan_inv_5_sub_arctan_inv_239
  have e : (2 : ℝ) ^ (2 * W) = 2 ^ W * 2 ^ W := by rw [two_mul, pow_add]
  simp only [arctanTail, one_div] at a b
  push_cast at a b
  have hpi : π * ((2 : ℝ) ^ W * 2 ^ W) = 16 * ((2 : ℝ) ^ (2 * W) * arctan 5⁻¹) - 4 * ((2 : ℝ) ^ (2 * W) * arctan 239⁻¹) := by
    rw [← e]; linear_combination (-4 * (2 : ℝ) ^ (2 * W)) * m
  unfold piTo
  dsimp only
  rw [abs_le] at a b
  clear left e m
  generalize (machin (2 * W) 5 W 0).1 = x1 at *
  generalize (machin (2 * W) 5 W 0).2 = x2 at *
  generalize (machin (2 * W) 239 W 0).1 = y1 at *
  generalize (machin (2 * W) 239 W 0).2 = y2 at *
  generalize (2 : ℝ) ^ (2 * W) * arctan 5⁻¹ = A at *
  generalize (2 : ℝ) ^ (2 * W) * arctan 239⁻¹ = B at *
  have h3 := pi_gt_three
  have hx : (16 * x2 + 4 * y1 : ℕ) ≤ 16 * x1 + 4 * y2 := by
    rw [← Nat.cast_le (α := ℝ)]; push_cast; nlinarith
  have hX : ((16 * x1 + 4 * y2 - (16 * x2 + 4 * y1) : ℕ) : ℝ) = 16 * x1 + 4 * y2 - (16 * x2 + 4 * y1) := by
    rw [Nat.cast_sub hx]; push_cast; ring
  obtain ⟨d1, d2⟩ := cast_div_bounds (16 * x1 + 4 * y2 - (16 * x2 + 4 * y1)) (2 ^ W) (Nat.pow_pos (by norm_num))
  rw [hX, Nat.cast_pow, Nat.cast_ofNat] at d1 d2
  generalize ((16 * x1 + 4 * y2 - (16 * x2 + 4 * y1)) / 2 ^ W : ℕ) = F at *
  rw [le_div_iff₀ hP] at d1
  rw [div_lt_iff₀ hP] at d2
  generalize (2 : ℝ) ^ W = P at *
  rw [abs_le]
  constructor
  · have : -2 * P ≤ (π * P - F) * P := by nlinarith
    exact le_of_mul_le_mul_right this hP
  · have : (π * P - F) * P ≤ 2 * P := by nlinarith
    exact le_of_mul_le_mul_right this hP

end Sys2Proof.Machine
end

