-- ==== Sys2Proof/Laws/Series.lean ====
section
/-! SUPPORT. The fixed-point series of the default trig unit lie within a known error of the real sine and cosine (log 4). -/

namespace Sys2Proof.Machine

open Real

/-! ### The series -/

/-- The remainder of the series of the cosine (k even) or the sine (k odd) of `x` from the term of degree `k` on, its sign that of the
first term left out taken as plus. -/
noncomputable def trigTail : ℕ → ℝ → ℝ
  | 0, x => cos x
  | 1, x => sin x
  | k + 2, x => x ^ k / k.factorial - trigTail k x

theorem trigTail_succ_zero (k : ℕ) : trigTail (k + 1) 0 = 0 := by
  induction k using Nat.twoStepInduction with
  | zero => simp [trigTail]
  | one => simp [trigTail]
  | more k ih1 ih2 => rw [trigTail, ih1]; simp

theorem hasDerivAt_trigTail (k : ℕ) (x : ℝ) : HasDerivAt (trigTail (k + 1)) (trigTail k x) x := by
  induction k using Nat.twoStepInduction with
  | zero => exact hasDerivAt_sin x
  | one =>
    have hf : trigTail 2 = fun y => 1 - cos y := by funext y; simp [trigTail]
    have : trigTail 1 x = 0 - -sin x := by simp [trigTail]
    rw [hf, this]; exact (hasDerivAt_const x 1).sub (hasDerivAt_cos x)
  | more k ih1 ih2 =>
    have hf : trigTail (k + 3) = (fun y => y ^ (k + 1) / ((k + 1).factorial : ℝ)) - trigTail (k + 1) := by funext y; simp [trigTail]
    have e : ((k + 1 : ℕ) : ℝ) * x ^ (k + 1 - 1) / ((k + 1).factorial : ℝ) = x ^ k / k.factorial := by
      rw [Nat.factorial_succ, Nat.add_sub_cancel]; push_cast
      have := Nat.factorial_ne_zero k
      field_simp
    have h := ((hasDerivAt_pow (k + 1) x).div_const ((k + 1).factorial : ℝ)).sub ih1
    rw [e] at h
    rw [hf]; exact h

theorem trigTail_succ_nonneg (k : ℕ) {x : ℝ} (h0 : 0 ≤ x) (hx : x ≤ π) : 0 ≤ trigTail (k + 1) x := by
  induction k generalizing x with
  | zero => exact sin_nonneg_of_nonneg_of_le_pi h0 hx
  | succ k ih =>
    have hmono : MonotoneOn (trigTail (k + 2)) (Set.Icc 0 π) := by
      apply monotoneOn_of_deriv_nonneg (convex_Icc 0 π)
      · exact fun y _ => (hasDerivAt_trigTail (k + 1) y).continuousAt.continuousWithinAt
      · exact fun y _ => (hasDerivAt_trigTail (k + 1) y).differentiableAt.differentiableWithinAt
      · intro y hy
        rw [interior_Icc] at hy
        rw [(hasDerivAt_trigTail (k + 1) y).deriv]
        exact ih hy.1.le hy.2.le
    have := hmono ⟨le_refl 0, pi_pos.le⟩ ⟨h0, hx⟩ h0
    rwa [trigTail_succ_zero] at this

theorem abs_trigTail_le (k : ℕ) {x : ℝ} (h0 : 0 ≤ x) (hx : x ≤ π) : |trigTail k x| ≤ x ^ k / k.factorial := by
  cases k with
  | zero => simpa [trigTail] using abs_cos_le_one x
  | succ k =>
    have a := trigTail_succ_nonneg k h0 hx
    have b := trigTail_succ_nonneg (k + 2) h0 hx
    rw [abs_of_nonneg a]
    have : trigTail (k + 3) x = x ^ (k + 1) / (k + 1).factorial - trigTail (k + 1) x := rfl
    rw [this] at b; linarith

/-! ### The series in fixed point -/

/-- The term of degree `k` of the series at `x`. -/
noncomputable def trigTerm (k : ℕ) (x : ℝ) : ℝ := x ^ k / k.factorial

theorem trigTerm_succ_succ (k : ℕ) (x : ℝ) : trigTerm (k + 2) x = trigTerm k x * x ^ 2 / ((k + 1) * (k + 2)) := by
  unfold trigTerm
  rw [Nat.factorial_succ, Nat.factorial_succ]
  have := Nat.factorial_ne_zero k
  push_cast; field_simp; ring

theorem trigTerm_nonneg (k : ℕ) {x : ℝ} (h0 : 0 ≤ x) : 0 ≤ trigTerm k x := by unfold trigTerm; positivity

theorem trigTerm_le_two (k : ℕ) {x : ℝ} (h0 : 0 ≤ x) (h2 : x ≤ 2) : trigTerm k x ≤ 2 := by
  induction k using Nat.twoStepInduction with
  | zero => simp [trigTerm]
  | one => simpa [trigTerm] using h2
  | more k ih1 ih2 =>
    rw [trigTerm_succ_succ]
    have := trigTerm_nonneg k h0
    rcases Nat.eq_zero_or_pos k with rfl | hk
    · simp [trigTerm]; nlinarith
    · have hk' : (1 : ℝ) ≤ k := by exact_mod_cast hk
      rw [div_le_iff₀ (by positivity)]
      nlinarith [mul_nonneg this (sq_nonneg x), mul_le_mul ih1 (show x ^ 2 ≤ 4 by nlinarith) (sq_nonneg x) (by norm_num)]

/-- A fixed-point term is below the true one by at most 4 units, and the first two are exact. -/
def TermClose (p k t : ℕ) (x : ℝ) : Prop :=
  (t : ℝ) ≤ 2 ^ p * trigTerm k x ∧ 2 ^ p * trigTerm k x ≤ t + 4 ∧ (k < 2 → 2 ^ p * trigTerm k x = t)

/-- The next term of the fixed-point series stays close to the true one. -/
theorem termClose_next (p k t c : ℕ) (hc : c ≤ 2 ^ (p + 1)) (h : TermClose p k t (c / 2 ^ p)) :
    TermClose p (k + 2) (nextTerm p ((c * c) >>> p) k t) (c / 2 ^ p) := by
  obtain ⟨h1, h2, h3⟩ := h
  set x : ℝ := (c : ℝ) / 2 ^ p with hx
  have hP : (0 : ℝ) < 2 ^ p := by positivity
  have hx0 : 0 ≤ x := by positivity
  have hx2 : x ≤ 2 := by
    rw [hx, div_le_iff₀ hP]
    have : (c : ℝ) ≤ 2 ^ (p + 1) := by exact_mod_cast hc
    rw [pow_succ] at this; linarith
  have ht2 := trigTerm_le_two k hx0 hx2
  have ht0 := trigTerm_nonneg k hx0
  unfold nextTerm
  rw [Nat.shiftRight_eq_div_pow, Nat.shiftRight_eq_div_pow]
  obtain ⟨z1, z2⟩ := cast_div_bounds (c * c) (2 ^ p) (by positivity)
  generalize c * c / 2 ^ p = z at *
  obtain ⟨y1, y2⟩ := cast_div_bounds (t * z) (2 ^ p) (by positivity)
  generalize t * z / 2 ^ p = y at *
  obtain ⟨u1, u2⟩ := cast_div_bounds y ((k + 1) * (k + 2)) (by positivity)
  generalize y / ((k + 1) * (k + 2)) = u at *
  push_cast at *
  have hz : (c * c : ℝ) / 2 ^ p = 2 ^ p * x ^ 2 := by rw [hx]; field_simp
  rw [hz] at z1 z2
  unfold TermClose
  rw [trigTerm_succ_succ]
  clear_value x
  clear hz hc hx
  generalize trigTerm k x = T at *
  generalize (2 : ℝ) ^ p = P at *
  have hD : (2 : ℝ) ≤ (k + 1) * (k + 2) := by nlinarith [Nat.cast_nonneg (α := ℝ) k]
  have hD' : 2 ≤ k → (12 : ℝ) ≤ (k + 1) * (k + 2) := fun hk => by
    have : (2 : ℝ) ≤ k := by exact_mod_cast hk
    nlinarith
  generalize ((k : ℝ) + 1) * (k + 2) = D at *
  have hx4 : x ^ 2 ≤ 4 := by nlinarith
  have hx20 := sq_nonneg x
  generalize x ^ 2 = X at *
  have ht : (0 : ℝ) ≤ t := Nat.cast_nonneg t
  have hy : (y : ℝ) * P ≤ t * z := by rwa [le_div_iff₀ hP] at y1
  have hy' : (t : ℝ) * z < (y + 1) * P := by rwa [div_lt_iff₀ hP] at y2
  have hD0 : (0 : ℝ) < D := by linarith
  have hu : (u : ℝ) * D ≤ y := by rwa [le_div_iff₀ hD0] at u1
  have hu' : (y : ℝ) < (u + 1) * D := by rwa [div_lt_iff₀ hD0] at u2
  rw [← mul_div_assoc, le_div_iff₀ hD0, div_le_iff₀ hD0]
  have yle : (y : ℝ) ≤ t * X := by
    have : (t : ℝ) * z ≤ t * (P * X) := mul_le_mul_of_nonneg_left z1 ht
    have : (y : ℝ) * P ≤ t * X * P := by nlinarith
    exact le_of_mul_le_mul_right this hP
  have tX : (t : ℝ) * X ≤ y + 3 := by
    have a1 : (t : ℝ) * (P * X) ≤ t * (z + 1) := mul_le_mul_of_nonneg_left z2.le ht
    have a2 : (t : ℝ) * X * P ≤ (y + 3) * P := by nlinarith
    exact le_of_mul_le_mul_right a2 hP
  refine ⟨?_, ?_, fun h => absurd h (by omega)⟩
  · have : (t : ℝ) * X ≤ P * T * X := mul_le_mul_of_nonneg_right h1 hx20
    linarith
  · rcases Nat.lt_or_ge k 2 with hk | hk
    · have h3 := h3 hk
      have : P * (T * X) = t * X := by rw [← h3]; ring
      nlinarith
    · have hD' := hD' hk
      have : P * T * X ≤ (t + 4) * X := mul_le_mul_of_nonneg_right h2 hx20
      nlinarith

/-- The fixed-point series is the true one within 8 units a step, and 4 for the terms left out. -/
theorem taylor_spec (p c : ℕ) (hc : c ≤ 2 ^ (p + 1)) (fuel k t pos neg : ℕ) (h : TermClose p k t (c / 2 ^ p))
    (hend : (2 : ℝ) ^ p * trigTerm (k + 4 * fuel) (c / 2 ^ p) ≤ 4) :
    ∃ a b : ℕ, taylor p ((c * c) >>> p) fuel k t pos neg = a - b ∧
      |(a - b : ℝ) - (pos - neg + 2 ^ p * trigTail k (c / 2 ^ p))| ≤ 8 * fuel + 4 := by
  have hP : (0 : ℝ) < 2 ^ p := by positivity
  have hx0 : 0 ≤ (c : ℝ) / 2 ^ p := by positivity
  have hx2 : (c : ℝ) / 2 ^ p ≤ 2 := by
    rw [div_le_iff₀ hP]
    have : (c : ℝ) ≤ 2 ^ (p + 1) := by exact_mod_cast hc
    rw [pow_succ] at this; linarith
  have tail (j : ℕ) : |2 ^ p * trigTail j ((c : ℝ) / 2 ^ p)| ≤ 2 ^ p * trigTerm j (c / 2 ^ p) := by
    rw [abs_mul, abs_of_pos hP]
    exact mul_le_mul_of_nonneg_left (abs_trigTail_le j hx0 (hx2.trans two_le_pi)) hP.le
  induction fuel generalizing k t pos neg with
  | zero =>
    refine ⟨pos, neg, rfl, ?_⟩
    have := tail k
    simp only [Nat.mul_zero, Nat.add_zero] at hend
    rw [sub_add_cancel_left, abs_neg, Nat.cast_zero, mul_zero, zero_add]; linarith
  | succ fuel ih =>
    unfold taylor
    split
    · next ht =>
      refine ⟨pos, neg, rfl, ?_⟩
      have := tail k
      obtain ⟨-, h2, -⟩ := h
      rw [ht] at h2
      rw [sub_add_cancel_left, abs_neg]
      push_cast at *
      have : (0 : ℝ) ≤ fuel := Nat.cast_nonneg _
      linarith
    · have hu := termClose_next p k t c hc h
      have ht' := termClose_next p (k + 2) _ c hc hu
      obtain ⟨a, b, e, hab⟩ := ih (k + 4) _ (pos + t) (neg + nextTerm p ((c * c) >>> p) k t) ht'
        (by rw [show k + 4 + 4 * fuel = k + 4 * (fuel + 1) by ring]; exact hend)
      refine ⟨a, b, e, ?_⟩
      have ht : trigTail k ((c : ℝ) / 2 ^ p) = trigTerm k (c / 2 ^ p) - trigTerm (k + 2) (c / 2 ^ p) + trigTail (k + 4) (c / 2 ^ p) := by
        have e1 : trigTail (k + 2) ((c : ℝ) / 2 ^ p) = trigTerm k (c / 2 ^ p) - trigTail k (c / 2 ^ p) := rfl
        have e2 : trigTail (k + 4) ((c : ℝ) / 2 ^ p) = trigTerm (k + 2) (c / 2 ^ p) - trigTail (k + 2) (c / 2 ^ p) := rfl
        linarith
      obtain ⟨t1, t2, -⟩ := h
      obtain ⟨u1, u2, -⟩ := hu
      rw [ht]
      push_cast at *
      rw [abs_le] at *
      constructor <;> nlinarith [hab.1, hab.2]

/-- The terms left out after enough pairs are at most 4 units. -/
theorem series_end (p n c : ℕ) (hn : 2 ^ p * 2 ^ n ≤ 4 * n.factorial) (hc : c ≤ 2 ^ (p + 1)) :
    (2 : ℝ) ^ p * trigTerm n (c / 2 ^ p) ≤ 4 := by
  have hP : (0 : ℝ) < 2 ^ p := by positivity
  have hx0 : 0 ≤ (c : ℝ) / 2 ^ p := by positivity
  have hx2 : (c : ℝ) / 2 ^ p ≤ 2 := by
    rw [div_le_iff₀ hP]
    have : (c : ℝ) ≤ 2 ^ (p + 1) := by exact_mod_cast hc
    rw [pow_succ] at this; linarith
  have hf : (2 : ℝ) ^ p * 2 ^ n ≤ 4 * n.factorial := by exact_mod_cast hn
  have hfp : (0 : ℝ) < n.factorial := by exact_mod_cast Nat.factorial_pos _
  unfold trigTerm
  rw [← mul_div_assoc, div_le_iff₀ hfp]
  have := mul_le_mul_of_nonneg_left (pow_le_pow_left₀ hx0 hx2 n) hP.le
  linarith

/-- `quarterSin` is the sine within 8 units a pair and 4 more. -/
theorem quarterSin_spec (p pairs c : ℕ) (hn : 2 ^ p * 2 ^ (1 + 4 * pairs) ≤ 4 * (1 + 4 * pairs).factorial) (hc : c ≤ 2 ^ (p + 1)) :
    ∃ a b : ℕ, quarterSin p pairs c = a - b ∧ |(a - b : ℝ) - 2 ^ p * sin (c / 2 ^ p)| ≤ 8 * pairs + 4 := by
  have hP : (2 : ℝ) ^ p ≠ 0 := by positivity
  have h0 : (2 : ℝ) ^ p * trigTerm 1 ((c : ℝ) / 2 ^ p) = c := by simp [trigTerm]; field_simp
  obtain ⟨a, b, e, h⟩ := taylor_spec p c hc pairs 1 c 0 0 ⟨h0.ge, by rw [h0]; linarith, fun _ => h0⟩ (series_end p _ c hn hc)
  refine ⟨a, b, e, ?_⟩
  simpa only [Nat.cast_zero, sub_zero, zero_add, trigTail] using h

/-- `quarterCos` is the cosine within 8 units a pair and 4 more. -/
theorem quarterCos_spec (p pairs c : ℕ) (hn : 2 ^ p * 2 ^ (0 + 4 * pairs) ≤ 4 * (0 + 4 * pairs).factorial) (hc : c ≤ 2 ^ (p + 1)) :
    ∃ a b : ℕ, quarterCos p pairs c = a - b ∧ |(a - b : ℝ) - 2 ^ p * cos (c / 2 ^ p)| ≤ 8 * pairs + 4 := by
  have h0 : (2 : ℝ) ^ p * trigTerm 0 ((c : ℝ) / 2 ^ p) = ((1 <<< p : ℕ) : ℝ) := by simp [trigTerm, Nat.shiftLeft_eq]
  obtain ⟨a, b, e, h⟩ := taylor_spec p c hc pairs 0 (1 <<< p) 0 0 ⟨h0.ge, by rw [h0]; linarith, fun _ => h0⟩
    (series_end p _ c hn hc)
  refine ⟨a, b, e, ?_⟩
  simpa only [Nat.cast_zero, sub_zero, zero_add, trigTail] using h

end Sys2Proof.Machine
end

