-- ==== Sys2Proof/Laws/Evaluation.lean ====
section
/-! SUPPORT. Where an evaluation settles, its result is the real sine or cosine rounded to nearest, ties to even (R7, D9; log 4). -/

namespace Sys2Proof.Machine

open Real

/-! ### Precisions that are enough -/

/-- What makes a precision's error bound true of the magnitude `m`. -/
structure Precision.Ok (d : Precision) (m : ℕ) : Prop where
  piPlaces : 1073 ≤ d.piPlaces
  places : d.places ≤ d.piPlaces
  pi : |π * 2 ^ d.piPlaces - (d.piValue : ℝ)| ≤ 2
  quarters : 2 * (m * 2 ^ (d.piPlaces - 1073) / d.piValue) ≤ 2 ^ (d.piPlaces + 1 - d.places)
  series : ∀ k ≤ 1, 2 ^ d.places * 2 ^ (k + 4 * d.pairs) ≤ 4 * (k + 4 * d.pairs).factorial
  error : 8 * d.pairs + 6 ≤ d.error
  room : d.error * 2 ≤ 2 ^ d.places

theorem factorial_512 (n : ℕ) (h : n = 512) : 2 ^ 1088 * 2 ^ 513 ≤ n.factorial := by subst h; decide +kernel

theorem piFix_size : 2 ^ 2177 ≤ piFix := by decide +kernel

/-- The fixed precisions are enough for every finite argument. -/
theorem fixedPrecision_ok (p m : ℕ) (hp : p ≤ 1088) (hp' : 13 ≤ p) (hm : m < 2 ^ 2098) : (fixedPrecision p).Ok m where
  piPlaces := by show 1073 ≤ 2176; norm_num
  places := by show p ≤ 2176; omega
  pi := by
    obtain ⟨a, b⟩ := piFix_bounds
    show |π * 2 ^ 2176 - (piFix : ℝ)| ≤ 2
    generalize π * (2 : ℝ) ^ 2176 = U at *
    rw [abs_le]; constructor <;> linarith
  quarters := by
    have e1 : (fixedPrecision p).piPlaces - 1073 = 1103 := by show 2176 - 1073 = 1103; norm_num
    have e2 : (fixedPrecision p).piPlaces + 1 - (fixedPrecision p).places = 2177 - p := rfl
    have e3 : (fixedPrecision p).piValue = piFix := rfl
    rw [e1, e2, e3]
    have h : m * 2 ^ 1103 / piFix ≤ 2 ^ (2176 - p) := by
      refine Nat.div_le_of_le_mul ?_
      have h1 : 2 ^ 2098 * 2 ^ 1103 ≤ piFix * 2 ^ (2176 - p) := by
        refine le_trans ?_ (Nat.mul_le_mul piFix_size (Nat.pow_le_pow_right (by norm_num) (show 1024 ≤ 2176 - p by omega)))
        rw [← pow_add, ← pow_add]
      exact le_trans (Nat.mul_le_mul_right _ hm.le) h1
    rw [show 2177 - p = 2176 - p + 1 by omega, pow_succ' 2 (2176 - p)]
    exact Nat.mul_le_mul_left 2 h
  series := fun k hk => by
    show 2 ^ p * 2 ^ (k + 512) ≤ 4 * (k + 512).factorial
    have h1 : 2 ^ p * 2 ^ (k + 512) ≤ 2 ^ 1088 * 2 ^ 513 :=
      Nat.mul_le_mul (Nat.pow_le_pow_right (by norm_num) hp) (Nat.pow_le_pow_right (by norm_num) (by omega))
    obtain ⟨n, hn⟩ : ∃ n, n = 512 := ⟨512, rfl⟩
    have h2 := le_trans h1 (le_trans (factorial_512 n hn) (Nat.factorial_le (show n ≤ k + 512 by omega)))
    generalize (k + 512).factorial = F at *
    exact le_trans h2 (Nat.le_mul_of_pos_left F (by norm_num))
  error := by show 8 * 128 + 6 ≤ 4096; norm_num
  room := le_trans (by decide : 4096 * 2 ≤ 2 ^ 13) (Nat.pow_le_pow_right (by norm_num) hp')

theorem four_pow_le_factorial (n : ℕ) (hn : 9 ≤ n) : 4 ^ n ≤ n.factorial := by
  induction n, hn using Nat.le_induction with
  | base => decide
  | succ n hn ih => rw [pow_succ, Nat.factorial_succ, mul_comm]; exact Nat.mul_le_mul (by omega) ih

theorem room_of_places (p : ℕ) (hp : 9 ≤ p) : (8 * p + 80) * 2 ≤ 2 ^ p := by
  induction p, hp using Nat.le_induction with
  | base => decide
  | succ n hn ih => rw [pow_succ]; omega

/-- A precision made for `m` is enough for it. -/
theorem widePrecision_ok (m p : ℕ) (hp : 9 ≤ p) : (widePrecision m p).Ok m := by
  have hW : 9 ≤ p + Nat.log2 m + 1076 := by omega
  have hpi := piTo_bounds (p + Nat.log2 m + 1076) hW
  refine ⟨by show 1073 ≤ p + Nat.log2 m + 1076; omega, by show p ≤ p + Nat.log2 m + 1076; omega, hpi, ?_, ?_, ?_, ?_⟩
  · show 2 * (m * 2 ^ (p + Nat.log2 m + 1076 - 1073) / piTo (p + Nat.log2 m + 1076)) ≤ 2 ^ (p + Nat.log2 m + 1076 + 1 - p)
    have hlog : m < 2 ^ (Nat.log2 m + 1) := by
      rcases Nat.eq_zero_or_pos m with rfl | h
      · exact Nat.pow_pos (by norm_num)
      · exact (Nat.log2_lt h.ne').1 (Nat.lt_succ_self _)
    have hF : 2 ^ (p + Nat.log2 m + 1076) ≤ piTo (p + Nat.log2 m + 1076) := by
      have h9 : (9 : ℝ) ≤ 2 ^ (p + Nat.log2 m + 1076) := by
        calc (9 : ℝ) ≤ 2 ^ 9 := by norm_num
          _ ≤ _ := pow_le_pow_right₀ (by norm_num) hW
      have h3 := pi_gt_three
      rw [abs_le] at hpi
      rw [← Nat.cast_le (α := ℝ), Nat.cast_pow, Nat.cast_ofNat]
      generalize (2 : ℝ) ^ (p + Nat.log2 m + 1076) = P at *
      nlinarith [hpi.2]
    have h1 : m * 2 ^ (p + Nat.log2 m + 1076 - 1073) / piTo (p + Nat.log2 m + 1076) ≤ m := by
      refine Nat.div_le_of_le_mul ?_
      rw [mul_comm]
      exact Nat.mul_le_mul_right m (le_trans (Nat.pow_le_pow_right (by norm_num) (by omega)) hF)
    have h2 : 2 * 2 ^ (Nat.log2 m + 1) ≤ 2 ^ (p + Nat.log2 m + 1076 + 1 - p) := by
      rw [← pow_succ']; exact Nat.pow_le_pow_right (by norm_num) (by omega)
    exact le_trans (Nat.mul_le_mul_left 2 (h1.trans hlog.le)) h2
  · intro k hk
    show 2 ^ p * 2 ^ (k + 4 * (p + 8)) ≤ 4 * (k + 4 * (p + 8)).factorial
    have h := four_pow_le_factorial (k + 4 * (p + 8)) (by omega)
    have h1 : 2 ^ p * 2 ^ (k + 4 * (p + 8)) ≤ 4 ^ (k + 4 * (p + 8)) := by
      rw [show 4 = 2 ^ 2 from rfl, ← pow_mul, ← pow_add]; exact Nat.pow_le_pow_right (by norm_num) (by omega)
    generalize (k + 4 * (p + 8)).factorial = F at *
    omega
  · show 8 * (p + 8) + 6 ≤ 8 * p + 80; omega
  · exact room_of_places p hp

/-! ### The reduced angle -/

/-- The sine after `n` quarter turns. -/
theorem sin_add_quarters (θ : ℝ) (n : ℕ) :
    sin (θ + n * (π / 2)) = (if 2 ≤ n % 4 then -1 else 1) * (if n % 2 = 0 then sin θ else cos θ) := by
  obtain ⟨j, i, hi, rfl⟩ : ∃ j i, i < 2 ∧ n = 2 * j + i := ⟨n / 2, n % 2, Nat.mod_lt _ (by norm_num), by omega⟩
  have e : θ + ((2 * j + i : ℕ) : ℝ) * (π / 2) = (θ + i * (π / 2)) + j * π := by push_cast; ring
  rw [e, sin_add_nat_mul_pi]
  have hs : (-1 : ℝ) ^ j = if 2 ≤ (2 * j + i) % 4 then -1 else 1 := by
    rcases Nat.even_or_odd j with h | h
    · rw [h.neg_one_pow, if_neg]; obtain ⟨a, rfl⟩ := h; omega
    · rw [h.neg_one_pow, if_pos]; obtain ⟨a, rfl⟩ := h; omega
  rw [hs]
  congr 1
  interval_cases i
  · simp
  · have : (2 * j + 1) % 2 ≠ 0 := by omega
    rw [if_neg this]; simp [sin_add_pi_div_two]

/-- The reduced angle lies in the first quadrant, within a unit of 2^-places, and it is the argument less `quadrant` quarter turns, within
two. -/
theorem reduced_angle (d : Precision) (m : ℕ) (ok : d.Ok m) :
    (quadrant d m).2 >>> (d.piPlaces + 1 - d.places) ≤ 2 ^ (d.places + 1) ∧
    (((quadrant d m).2 >>> (d.piPlaces + 1 - d.places) : ℕ) : ℝ) / 2 ^ d.places ≤ π / 2 + 1 / 2 ^ d.places ∧
    |((m : ℝ) / 2 ^ 1074 - (quadrant d m).1 * (π / 2)) - (((quadrant d m).2 >>> (d.piPlaces + 1 - d.places) : ℕ) : ℝ) / 2 ^ d.places| ≤
      2 / 2 ^ d.places := by
  obtain ⟨hW, hpW, hpi, hq, -, -, -⟩ := ok
  have hquad : quadrant d m = (m * 2 ^ (d.piPlaces - 1073) / d.piValue, m * 2 ^ (d.piPlaces - 1073) % d.piValue) := by
    unfold quadrant; rw [Nat.shiftLeft_eq]
  rw [hquad, Nat.shiftRight_eq_div_pow]
  clear hquad
  dsimp only
  rw [abs_le] at hpi
  have hUpos : (9 : ℝ) ≤ 2 ^ d.piPlaces := by
    calc (9 : ℝ) ≤ 2 ^ 9 := by norm_num
      _ ≤ _ := pow_le_pow_right₀ (by norm_num) (by omega)
  have h3 := pi_gt_three
  have h315 := pi_lt_d2
  have hFr : (0 : ℝ) < d.piValue := by nlinarith [hpi.2]
  have hF : 0 < d.piValue := by exact_mod_cast hFr
  have hF2 : d.piValue ≤ 2 ^ (d.piPlaces + 2) := by
    rw [← Nat.cast_le (α := ℝ), Nat.cast_pow, Nat.cast_ofNat, pow_add]
    nlinarith [hpi.1]
  have hr : m * 2 ^ (d.piPlaces - 1073) % d.piValue < d.piValue := Nat.mod_lt _ hF
  have hdm := Nat.div_add_mod (m * 2 ^ (d.piPlaces - 1073)) d.piValue
  generalize m * 2 ^ (d.piPlaces - 1073) / d.piValue = q at *
  generalize m * 2 ^ (d.piPlaces - 1073) % d.piValue = r at *
  have hKP : 2 ^ (d.piPlaces + 1 - d.places) * 2 ^ (d.places + 1) = 2 ^ (d.piPlaces + 2) := by rw [← pow_add]; congr 1; omega
  have hKP' : (2 : ℝ) ^ (d.piPlaces + 1 - d.places) * 2 ^ d.places = 2 * 2 ^ d.piPlaces := by
    rw [← pow_add, ← pow_succ']; congr 1; omega
  have hPU : (2 : ℝ) ^ d.places ≤ 2 ^ d.piPlaces := pow_le_pow_right₀ (by norm_num) hpW
  obtain ⟨c1, c2⟩ := cast_div_bounds r (2 ^ (d.piPlaces + 1 - d.places)) (Nat.pow_pos (by norm_num))
  constructor
  · refine Nat.div_le_of_le_mul ?_
    rw [hKP]; exact le_trans hr.le hF2
  have hd : (d.piValue : ℝ) * q + r = m * 2 ^ (d.piPlaces - 1073) := by
    have := congrArg (Nat.cast (R := ℝ)) hdm
    rw [Nat.cast_add, Nat.cast_mul, Nat.cast_mul, Nat.cast_pow, Nat.cast_ofNat] at this
    exact this
  have hq' : 2 * (q : ℝ) ≤ 2 ^ (d.piPlaces + 1 - d.places) := by
    have := (Nat.cast_le (α := ℝ)).2 hq
    rwa [Nat.cast_mul, Nat.cast_pow, Nat.cast_ofNat] at this
  have hs : (2 : ℝ) ^ (d.piPlaces - 1073) * 2 ^ 1074 = 2 * 2 ^ d.piPlaces := by
    rw [← pow_add, ← pow_succ', show d.piPlaces - 1073 + 1074 = d.piPlaces + 1 by omega]
  have hr' : (r : ℝ) ≤ d.piValue := by exact_mod_cast hr.le
  rw [Nat.cast_pow, Nat.cast_ofNat] at c1 c2
  clear hKP hdm hq hr hF hF2
  generalize ((r / 2 ^ (d.piPlaces + 1 - d.places) : ℕ) : ℝ) = c at *
  have hK : (0 : ℝ) < 2 ^ (d.piPlaces + 1 - d.places) := pow_pos (by norm_num) _
  have hP : (0 : ℝ) < 2 ^ d.places := pow_pos (by norm_num) _
  have hE : (0 : ℝ) < 2 ^ 1074 := pow_pos (by norm_num) _
  have hq0 : (0 : ℝ) ≤ q := Nat.cast_nonneg _
  generalize (d.piValue : ℝ) = F at *
  generalize (2 : ℝ) ^ (d.piPlaces + 1 - d.places) = K at *
  generalize (2 : ℝ) ^ d.places = P at *
  generalize (2 : ℝ) ^ d.piPlaces = U at *
  generalize (2 : ℝ) ^ 1074 = E at *
  generalize (2 : ℝ) ^ (d.piPlaces - 1073) = G at *
  rw [div_lt_iff₀ hK] at c2
  rw [le_div_iff₀ hK] at c1
  constructor
  · rw [div_le_iff₀ hP, add_mul, one_div_mul_cancel hP.ne']
    have h1 : c * K ≤ π * U + 2 := by linarith [hpi.1]
    have h2 : (π / 2 * P + 1) * K = π * U + K := by linear_combination (π / 2) * hKP'
    have h3 : 2 ≤ K := by nlinarith
    have : c * K ≤ (π / 2 * P + 1) * K := by linarith
    exact le_of_mul_le_mul_right this hK
  · have key : (m / E - q * (π / 2) - c / P) * (K * P) = r - q * (π * U - F) - c * K := by
      have e1 : (m : ℝ) / E * (K * P) = m * G := by rw [hKP', ← hs]; field_simp
      have e2 : c / P * (K * P) = c * K := by field_simp
      rw [sub_mul, sub_mul, e1, e2, hKP']; linear_combination -hd
    have hKPpos : 0 < K * P := mul_pos hK hP
    have b1 : q * (π * U - F) ≤ K := by nlinarith [hpi.2]
    have b2 : -K ≤ q * (π * U - F) := by nlinarith [hpi.1]
    have bound : |(m / E - q * (π / 2) - c / P) * (K * P)| ≤ 2 * K := by
      rw [key, abs_le]; constructor <;> nlinarith
    rw [abs_mul, abs_of_pos hKPpos] at bound
    rw [le_div_iff₀ hP]
    have : |(m : ℝ) / E - q * (π / 2) - c / P| * P * K ≤ 2 * K := by linarith
    exact le_of_mul_le_mul_right this hK

/-! ### Rounding an interval -/

theorem abs_sub_le_abs_sub_iff_of_lt {a b w : ℝ} (h : a < b) : |a - w| ≤ |b - w| ↔ 2 * w ≤ a + b := by
  rw [← sq_le_sq]; constructor <;> intro h' <;> nlinarith

theorem abs_sub_le_abs_sub_iff_of_gt {a b w : ℝ} (h : b < a) : |a - w| ≤ |b - w| ↔ a + b ≤ 2 * w := by
  rw [← sq_le_sq]; constructor <;> intro h' <;> nlinarith

theorem abs_sub_eq_abs_sub_iff_of_ne {a b w : ℝ} (h : a ≠ b) : |a - w| = |b - w| ↔ 2 * w = a + b := by
  rcases lt_or_gt_of_ne h with h | h
  · rw [le_antisymm_iff, abs_sub_le_abs_sub_iff_of_lt h, abs_sub_le_abs_sub_iff_of_gt h, add_comm b a, le_antisymm_iff]
  · rw [le_antisymm_iff, abs_sub_le_abs_sub_iff_of_gt h, abs_sub_le_abs_sub_iff_of_lt h, add_comm b a, le_antisymm_iff, and_comm]

/-- Whatever lies between two numbers that round to one value rounds to it. -/
theorem roundsToReal_of_between {u v : ℚ} {y : ℝ} {r : F64} (hu : roundsTo u r) (hv : roundsTo v r) (h1 : (u : ℝ) ≤ y)
    (h2 : y ≤ v) (tu : |u| < overflowThreshold) (tv : |v| < overflowThreshold) : roundsToReal y r := by
  obtain ⟨u1, u2, u3, -⟩ := hu
  obtain ⟨v1, v2, v3, -⟩ := hv
  obtain ⟨fin, u3⟩ := u3 tu
  obtain ⟨-, v3⟩ := v3 tv
  have ty : |y| < (overflowThreshold : ℝ) := by
    have a := (Rat.cast_lt (K := ℝ)).2 (abs_lt.1 tu).1
    have b := (Rat.cast_lt (K := ℝ)).2 (abs_lt.1 tv).2
    rw [Rat.cast_neg] at a
    exact abs_lt.2 ⟨by linarith, by linarith⟩
  refine ⟨fun h => u1 ?_, fun h => v2 ?_, fun _ => ⟨fin, fun f hf => ?_⟩, fun h => absurd h (not_le.2 ty)⟩
  · exact_mod_cast lt_of_le_of_lt h1 h
  · exact_mod_cast lt_of_lt_of_le h h2
  · obtain ⟨a1, a2⟩ := u3 f hf
    obtain ⟨b1, b2⟩ := v3 f hf
    rw [← Rat.cast_le (K := ℝ)] at a1 b1
    rw [← Rat.cast_inj (α := ℝ)] at a2 b2
    push_cast at a1 b1 a2 b2
    generalize f64Value f = F at *
    generalize f64Value r = R at *
    rcases lt_trichotomy F R with h | h | h
    · have h' := (Rat.cast_lt (K := ℝ)).2 h
      rw [abs_sub_le_abs_sub_iff_of_gt h'] at a1 ⊢
      rw [abs_sub_eq_abs_sub_iff_of_ne h'.ne'] at a2 ⊢
      exact ⟨by linarith, fun e => a2 (by linarith)⟩
    · subst h; exact ⟨le_refl _, fun _ => .inl rfl⟩
    · have h' := (Rat.cast_lt (K := ℝ)).2 h
      rw [abs_sub_le_abs_sub_iff_of_lt h'] at b1 ⊢
      rw [abs_sub_eq_abs_sub_iff_of_ne h'.ne] at b2 ⊢
      exact ⟨by linarith, fun e => b2 (by linarith)⟩

theorem one_lt_overflowThreshold : (2 : ℚ) < overflowThreshold := by
  have : (2 : ℚ) ^ 2 ≤ 2 ^ 970 := pow_le_pow_right₀ (by norm_num) (by norm_num)
  unfold overflowThreshold
  generalize (2 : ℚ) ^ 970 = x at *
  norm_num at *; linarith

theorem scaled_value (neg : Bool) (k p : ℕ) :
    signFactor neg * (((k <<< 1074 : ℕ) : ℚ) / ((1 <<< p : ℕ) : ℚ)) / 2 ^ 1074 = signFactor neg * (k / 2 ^ p) := by
  rw [Nat.shiftLeft_eq, Nat.shiftLeft_eq, one_mul, Nat.cast_mul, Nat.cast_pow, Nat.cast_pow, Nat.cast_ofNat]
  have := unit_pos
  generalize (2 : ℚ) ^ 1074 = U at *
  field_simp

/-- When both ends settle on one magnitude, a value within the error of the sum, with either sign, rounds to it. -/
theorem settle_spec (p err s r : ℕ) (hs : settle p err s = some r) (neg : Bool) (y : ℝ) (hy : |(s : ℝ) - 2 ^ p * y| ≤ err)
    (h1 : y ≤ 1) (hp : err * 2 ≤ 2 ^ p): roundsToReal ((signFactor neg : ℚ) * y) (withSign neg r) := by
  unfold settle at hs
  simp only [Option.ite_none_right_eq_some, Option.some.injEq] at hs
  obtain ⟨⟨h0, hhi⟩, hlo⟩ := hs
  rw [hlo] at hhi
  have hd : 0 < 1 <<< p := by rw [Nat.shiftLeft_eq, one_mul]; exact Nat.pow_pos (by norm_num)
  have a := roundsTo_withSign_roundMag neg ((s - err) <<< 1074) (1 <<< p) hd
  have b := roundsTo_withSign_roundMag neg ((s + err) <<< 1074) (1 <<< p) hd
  rw [hlo] at a
  rw [← hhi] at b
  rw [scaled_value] at a b
  clear hlo hhi hd
  have hT := one_lt_overflowThreshold
  have hE : ((s - err : ℕ) : ℝ) = s - err := by rw [Nat.cast_sub h0.le]
  have h0' : (err : ℝ) < s := by exact_mod_cast h0
  have hp' : (err : ℝ) * 2 ≤ 2 ^ p := by exact_mod_cast hp
  have hP : (0 : ℝ) < 2 ^ p := pow_pos (by norm_num) _
  rw [abs_le] at hy
  have lo : (((s - err : ℕ) : ℚ) / 2 ^ p : ℚ) ≤ y := by
    push_cast; rw [hE, div_le_iff₀ hP]; linarith [hy.2]
  have hi : y ≤ (((s + err : ℕ) : ℚ) / 2 ^ p : ℚ) := by
    push_cast; rw [le_div_iff₀ hP]; linarith [hy.1]
  have top : (((s + err : ℕ) : ℚ) / 2 ^ p : ℚ) ≤ 2 := by
    rw [← Rat.cast_le (K := ℝ)]
    push_cast; rw [div_le_iff₀ hP]; nlinarith [hy.1]
  have lo0 : (0 : ℚ) ≤ ((s - err : ℕ) : ℚ) / 2 ^ p := div_nonneg (Nat.cast_nonneg _) (pow_nonneg (by norm_num) _)
  have hi0 : (0 : ℚ) ≤ ((s + err : ℕ) : ℚ) / 2 ^ p := div_nonneg (Nat.cast_nonneg _) (pow_nonneg (by norm_num) _)
  have lohi : (((s - err : ℕ) : ℚ) / 2 ^ p : ℚ) ≤ (((s + err : ℕ) : ℚ) / 2 ^ p : ℚ) := by
    rw [← Rat.cast_le (K := ℝ)]; linarith
  generalize ((s - err : ℕ) : ℚ) / 2 ^ p = L at *
  generalize ((s + err : ℕ) : ℚ) / 2 ^ p = H at *
  have tL : |signFactor neg * L| < overflowThreshold := by rw [abs_mul, abs_signFactor, one_mul, abs_of_nonneg lo0]; linarith
  have tH : |signFactor neg * H| < overflowThreshold := by rw [abs_mul, abs_signFactor, one_mul, abs_of_nonneg hi0]; linarith
  cases neg
  · exact roundsToReal_of_between a b (by simpa [signFactor] using lo) (by simpa [signFactor] using hi) tL tH
  · exact roundsToReal_of_between b a (by simpa [signFactor] using hi) (by simpa [signFactor] using lo) tH tL

/-! ### An evaluation -/

/-- The sum an evaluation rounds: it is the sine or the cosine of the angle, up to the sign of the quadrant, within the error bound. -/
theorem evaluate_sum (d : Precision) (shift m : ℕ) (ok : d.Ok m) :
    ∃ (n v a b : ℕ) (y : ℝ), evaluate d shift m = (settle d.places d.error v).map (fun r => (decide (2 ≤ n % 4), r)) ∧
      v = a - b ∧ |(a - b : ℝ) - 2 ^ d.places * y| ≤ d.error ∧ y ≤ 1 ∧ -(3 / 2 ^ d.places) ≤ y ∧
      sin ((m : ℝ) / 2 ^ 1074 + shift * (π / 2)) = (if 2 ≤ n % 4 then -1 else 1) * y := by
  obtain ⟨hc, hcq, hθ⟩ := reduced_angle d m ok
  have hsin := sin_add_quarters ((m : ℝ) / 2 ^ 1074 - (quadrant d m).1 * (π / 2)) ((quadrant d m).1 + shift)
  have harg : (m : ℝ) / 2 ^ 1074 - (quadrant d m).1 * (π / 2) + (((quadrant d m).1 + shift : ℕ) : ℝ) * (π / 2) =
      (m : ℝ) / 2 ^ 1074 + shift * (π / 2) := by
    rw [Nat.cast_add]; ring
  rw [harg] at hsin
  unfold evaluate
  dsimp only
  rw [hsin]
  generalize (quadrant d m).1 + shift = n at *
  generalize (m : ℝ) / 2 ^ 1074 - (quadrant d m).1 * (π / 2) = θ at *
  generalize (quadrant d m).2 >>> (d.piPlaces + 1 - d.places) = c at *
  have hP : (0 : ℝ) < 2 ^ d.places := pow_pos (by norm_num) _
  have hc0 : (0 : ℝ) ≤ (c : ℝ) / 2 ^ d.places := by positivity
  have hc2 : (c : ℝ) / 2 ^ d.places ≤ 2 := by
    rw [div_le_iff₀ hP]
    have : (c : ℝ) ≤ 2 ^ (d.places + 1) := by exact_mod_cast hc
    rw [pow_succ] at this; linarith
  have herr : (8 * d.pairs + 6 : ℝ) ≤ d.error := by exact_mod_cast ok.error
  have two : (2 : ℝ) ^ d.places * (2 / 2 ^ d.places) = 2 := by field_simp
  have e23 : (3 : ℝ) / 2 ^ d.places = 2 / 2 ^ d.places + 1 / 2 ^ d.places := by ring
  have one0 : (0 : ℝ) ≤ 1 / 2 ^ d.places := by positivity
  rcases Nat.eq_zero_or_pos (n % 2) with hn | hn
  · rw [if_pos hn, if_pos hn]
    obtain ⟨a, b, e, hab⟩ := quarterSin_spec d.places d.pairs c (ok.series 1 le_rfl) hc
    have h0 := (abs_sin_sub_sin_le θ (c / 2 ^ d.places)).trans hθ
    have h1 := mul_le_mul_of_nonneg_left h0 hP.le
    rw [two, ← abs_of_pos hP, ← abs_mul, abs_of_pos hP] at h1
    have hs := sin_nonneg_of_nonneg_of_le_pi hc0 (hc2.trans two_le_pi)
    refine ⟨n, _, a, b, sin θ, rfl, e, ?_, sin_le_one θ, ?_, rfl⟩
    · rw [abs_le] at *; constructor <;> linarith [h1.1, h1.2, hab.1, hab.2]
    · rw [abs_le] at h0; linarith [h0.1]
  · rw [if_neg hn.ne', if_neg hn.ne']
    obtain ⟨a, b, e, hab⟩ := quarterCos_spec d.places d.pairs c (ok.series 0 (by norm_num)) hc
    have h0 := (abs_cos_sub_cos_le θ (c / 2 ^ d.places)).trans hθ
    have h1 := mul_le_mul_of_nonneg_left h0 hP.le
    rw [two, ← abs_of_pos hP, ← abs_mul, abs_of_pos hP] at h1
    have hs : -(1 / 2 ^ d.places) ≤ cos ((c : ℝ) / 2 ^ d.places) := by
      rcases le_total ((c : ℝ) / 2 ^ d.places) (π / 2) with h | h
      · have := cos_nonneg_of_neg_pi_div_two_le_of_le (by linarith [pi_pos]) h
        linarith
      · have := abs_cos_sub_cos_le ((c : ℝ) / 2 ^ d.places) (π / 2)
        rw [cos_pi_div_two, sub_zero, abs_of_nonneg (sub_nonneg.2 h), abs_le] at this
        linarith [this.1]
    refine ⟨n, _, a, b, cos θ, rfl, e, ?_, cos_le_one θ, ?_, rfl⟩
    · rw [abs_le] at *; constructor <;> linarith [h1.1, h1.2, hab.1, hab.2]
    · rw [abs_le] at h0; linarith [h0.1]

/-- What an evaluation settles on is the sine (shift 0) or the cosine (shift 1) of the argument, up to the given sign, rounded. -/
theorem evaluate_spec (d : Precision) (shift m r : ℕ) (neg s : Bool) (ok : d.Ok m) (h : evaluate d shift m = some (neg, r)) :
    roundsToReal ((signFactor s : ℚ) * sin ((m : ℝ) / 2 ^ 1074 + shift * (π / 2))) (withSign (neg != s) r) := by
  obtain ⟨n, v, a, b, y, he, hv, hab, hy, -, hsin⟩ := evaluate_sum d shift m ok
  rw [he, Option.map_eq_some_iff] at h
  obtain ⟨r', hset, hpair⟩ := h
  obtain ⟨rfl, rfl⟩ := Prod.mk.injEq .. ▸ hpair
  have sgn : ((signFactor s : ℚ) : ℝ) * ((if 2 ≤ n % 4 then -1 else 1) * y) = ((signFactor (decide (2 ≤ n % 4) != s) : ℚ) : ℝ) * y := by
    by_cases h2 : 2 ≤ n % 4 <;> cases s <;> simp [signFactor, h2]
  rw [hsin, sgn]
  refine settle_spec d.places d.error v r' hset _ y ?_ hy ok.room
  have : b ≤ a := by
    unfold settle at hset
    simp only [Option.ite_none_right_eq_some] at hset
    have := hset.1.1
    omega
  rw [hv, Nat.cast_sub this]
  exact hab

end Sys2Proof.Machine
end

