-- ==== Sys2Proof/Laws/Irrational.lean ====
section
/-! SUPPORT. The sine and the cosine of a rational number other than 0 are irrational, so they are never halfway between two binary64
values, and an evaluation precise enough settles their rounding (D9). -/

namespace Sys2Proof.Machine

open Polynomial Complex in
/-- The cosine of a rational number other than 0 is irrational (Hermite and Lindemann). -/
theorem irrational_cos_of_rat (x : ℚ) (hx : x ≠ 0) : Irrational (Real.cos x) := by
  rintro ⟨q, hq⟩
  rcases eq_or_ne q 0 with rfl | hq0
  · rw [Rat.cast_zero, eq_comm, Real.cos_eq_zero_iff] at hq
    obtain ⟨k, hk⟩ := hq
    refine irrational_pi ⟨x * 2 / (2 * k + 1), ?_⟩
    have : (2 * (k : ℝ) + 1) ≠ 0 := by exact_mod_cast (by omega : 2 * k + 1 ≠ 0)
    push_cast; rw [hk]; field_simp
  set u := x.num with hu
  set v := x.den with hv
  have hv0 : (v : ℂ) ≠ 0 := by exact_mod_cast x.den_nz
  have hu0 : u ≠ 0 := Rat.num_ne_zero.2 hx
  have hxv : ((x : ℝ) : ℂ) * v = u := by
    have : (x * v : ℚ) = u := Rat.mul_den_eq_num x
    exact_mod_cast this
  set f : ℤ[X] := C ((v : ℤ) ^ 2) * X ^ 2 + C (u ^ 2) with hf
  have hf0 : f.eval 0 = u ^ 2 := by simp [hf]
  have hfne : f ≠ 0 := fun h => by rw [h] at hf0; simp at hf0; exact pow_ne_zero 2 hu0 hf0.symm
  have hdeg : f.natDegree ≤ 2 := by
    rw [hf]; compute_degree
  have root (r : ℂ) (hr : r ^ 2 = -(x : ℝ) ^ 2) : r ∈ f.aroots ℂ := by
    rw [mem_aroots]
    refine ⟨hfne, ?_⟩
    rw [hf]; simp only [map_add, map_mul, aeval_C, map_pow, aeval_X]
    simp only [algebraMap_int_eq, eq_intCast, Int.cast_natCast]
    rw [hr]; linear_combination (-(v : ℂ) * (x : ℝ) - u) * hxv
  set r : ℂ := I * (x : ℝ) with hr
  have hr2 : r ^ 2 = -(x : ℝ) ^ 2 := by rw [hr, mul_pow, I_sq]; ring
  have hexp : cexp r + cexp (-r) = 2 * (q : ℂ) := by
    have h2 := Complex.two_cos (x : ℝ)
    have h3 : Complex.cos (x : ℝ) = (q : ℂ) := by rw [← Complex.ofReal_cos, ← hq]; simp
    rw [h3] at h2
    rw [h2, hr]; congr 1 <;> ring_nf
  obtain ⟨c, happ⟩ := LindemannWeierstrass.exp_polynomial_approx f (by rw [hf0]; exact pow_ne_zero _ hu0)
  have hlim : Filter.Tendsto (fun p : ℕ => 2 * (q.den : ℝ) * v ^ 2 * c * (((v : ℝ) ^ 2 * c) ^ (p - 1) / (p - 1).factorial))
      Filter.atTop (nhds 0) := by
    have h := (FloorSemiring.tendsto_pow_div_factorial_atTop ((v : ℝ) ^ 2 * c)).comp (Filter.tendsto_sub_atTop_nat 1)
    have := h.const_mul (2 * (q.den : ℝ) * v ^ 2 * c)
    simpa using this
  obtain ⟨N, hN⟩ := Filter.eventually_atTop.1 (hlim.eventually (gt_mem_nhds one_pos))
  obtain ⟨p, hpN, hp⟩ := Nat.exists_infinite_primes (N + (u ^ 2).natAbs + q.num.natAbs + v + 3)
  obtain ⟨n, hn, g, hg, hgr⟩ := happ p (by rw [hf0]; omega) hp
  have e1 := hgr (root r hr2)
  have e2 := hgr (root (-r) (by rw [neg_sq, hr2]))
  -- the sum of the two conjugates is an integer over v ^ (2 p)
  have hpow (j : ℕ) (hj : j ≤ 2 * p) : ∃ z : ℤ, (v : ℂ) ^ (2 * p) * (r ^ j + (-r) ^ j) = z := by
    rcases Nat.even_or_odd j with h | h
    · obtain ⟨k, rfl⟩ := h
      refine ⟨v ^ (2 * p - (k + k)) * (2 * (-1) ^ k * u ^ (k + k)), ?_⟩
      have : (v : ℂ) ^ (2 * p) = v ^ (2 * p - (k + k)) * v ^ (k + k) := by rw [← pow_add]; congr 1; omega
      rw [this, Even.neg_pow ⟨k, rfl⟩]
      have hrk : r ^ (k + k) = (-1) ^ k * (x : ℝ) ^ (k + k) := by
        rw [← two_mul, pow_mul, hr2, neg_pow, pow_mul]
      rw [hrk]; push_cast; rw [← hxv, mul_pow]; push_cast; ring
    · exact ⟨0, by rw [Odd.neg_pow h]; simp⟩
  have hsum : ∃ z : ℤ, (v : ℂ) ^ (2 * p) * (aeval r g + aeval (-r) g) = z := by
    choose! z hz using hpow
    refine ⟨∑ j ∈ Finset.range (g.natDegree + 1), g.coeff j * z j, ?_⟩
    rw [aeval_eq_sum_range, aeval_eq_sum_range, ← Finset.sum_add_distrib, Finset.mul_sum]
    push_cast
    refine Finset.sum_congr rfl fun j hj => ?_
    have hj' : j ≤ 2 * p := by
      have h1 := Finset.mem_range.1 hj
      have : p * f.natDegree ≤ p * 2 := Nat.mul_le_mul_left _ hdeg
      omega
    rw [← hz j hj']; simp only [zsmul_eq_mul]; ring
  obtain ⟨z, hz⟩ := hsum
  have hb0 : (q.den : ℂ) ≠ 0 := by exact_mod_cast q.den_nz
  have hqb : (q : ℂ) * q.den = q.num := by
    have := Rat.mul_den_eq_num q
    exact_mod_cast this
  have key : (((2 * q.num * n * v ^ (2 * p) - p * (q.den * z) : ℤ)) : ℂ) =
      q.den * v ^ (2 * p) * ((n • cexp r - p • aeval r g) + (n • cexp (-r) - p • aeval (-r) g)) := by
    push_cast
    simp only [zsmul_eq_mul, nsmul_eq_mul]
    rw [← hqb, ← hz]
    linear_combination (-(q.den : ℂ) * v ^ (2 * p) * n) * hexp
  have hsmall : |(2 * q.num * n * v ^ (2 * p) - p * (q.den * z) : ℤ)| < 1 := by
    have h1 : ‖(((2 * q.num * n * v ^ (2 * p) - p * (q.den * z) : ℤ)) : ℂ)‖ < 1 := by
      rw [key, norm_mul]
      have := norm_add_le (n • cexp r - p • aeval r g) (n • cexp (-r) - p • aeval (-r) g)
      have hle : ‖(n • cexp r - p • aeval r g) + (n • cexp (-r) - p • aeval (-r) g)‖ ≤ 2 * (c ^ p / (p - 1).factorial) := by linarith
      have hnorm : ‖(q.den : ℂ) * v ^ (2 * p)‖ = q.den * v ^ (2 * p) := by simp
      rw [hnorm]
      refine lt_of_le_of_lt (mul_le_mul_of_nonneg_left hle (by positivity)) ?_
      have := hN p (by omega)
      refine lt_of_eq_of_lt ?_ this
      obtain ⟨k, rfl⟩ : ∃ k, p = k + 1 := ⟨p - 1, by have := hp.pos; omega⟩
      simp only [Nat.add_sub_cancel]
      rw [mul_pow]; ring
    rw [Complex.norm_intCast] at h1
    exact_mod_cast h1
  rw [Int.abs_lt_one_iff] at hsmall
  have hp' : Prime (p : ℤ) := Nat.prime_iff_prime_int.1 hp
  have hdvd : (p : ℤ) ∣ 2 * q.num * n * v ^ (2 * p) := ⟨q.den * z, by linarith⟩
  have small (a : ℤ) (ha : a ≠ 0) (hlt : a.natAbs < p) : ¬ (p : ℤ) ∣ a := fun h => by
    have := Int.natAbs_dvd_natAbs.2 h
    have := Nat.le_of_dvd (Int.natAbs_pos.2 ha) this
    simp at this; omega
  rcases hp'.dvd_or_dvd hdvd with h | h
  · rcases hp'.dvd_or_dvd h with h | h
    · rcases hp'.dvd_or_dvd h with h | h
      · exact small 2 (by norm_num) (by omega) h
      · exact small q.num (Rat.num_ne_zero.2 hq0) (by omega) h
    · exact hn h
  · exact small v (by exact_mod_cast x.den_nz) (by simp; omega) (hp'.dvd_of_dvd_pow h)

/-- The sine of a rational number other than 0 is irrational. -/
theorem irrational_sin_of_rat (x : ℚ) (hx : x ≠ 0) : Irrational (Real.sin x) := by
  rintro ⟨q, hq⟩
  refine irrational_cos_of_rat (2 * x) (by simpa using hx) ⟨1 - 2 * q ^ 2, ?_⟩
  push_cast; rw [Real.cos_two_mul, hq]
  have := Real.sin_sq_add_cos_sq (x : ℝ)
  linarith

end Sys2Proof.Machine
end

