-- ==== Sys2Proof/Laws/Search.lean ====
section
/-! SUPPORT. For every argument other than 0 some precision settles the rounding of the sine and of the cosine: the value is irrational,
so no rational near enough to it rounds to another binary64 value (D9; log 4). -/

namespace Sys2Proof.Machine

open Real

/-! ### Rounding is constant near an irrational number -/

theorem magOfBits_lt_succ (m : ℕ) : magOfBits m < magOfBits (m + 1) := by
  unfold magOfBits
  rcases Nat.lt_or_ge (m % 2 ^ 52 + 1) (2 ^ 52) with h | h
  · have h1 : (m + 1) / 2 ^ 52 = m / 2 ^ 52 := by omega
    have h2 : (m + 1) % 2 ^ 52 = m % 2 ^ 52 + 1 := by omega
    rw [h1, h2]
    split
    · omega
    · exact Nat.mul_lt_mul_of_pos_right (by omega) (Nat.pow_pos (by norm_num))
  · have h1 : (m + 1) / 2 ^ 52 = m / 2 ^ 52 + 1 := by omega
    have h2 : (m + 1) % 2 ^ 52 = 0 := by omega
    have h3 : m % 2 ^ 52 = 2 ^ 52 - 1 := by omega
    rw [h1, h2, h3, if_neg (Nat.succ_ne_zero _), Nat.add_sub_cancel]
    split
    · next h => rw [h]; norm_num
    · next h =>
      obtain ⟨q, hq⟩ := Nat.exists_eq_succ_of_ne_zero h
      rw [hq, Nat.succ_sub_one, Nat.pow_succ]
      have := Nat.pow_pos (n := q) (show 0 < 2 by norm_num)
      omega

theorem magOfBits_injective : Function.Injective magOfBits := (strictMono_nat_of_lt_succ magOfBits_lt_succ).injective

/-- The distances of different binary64 values from an irrational number differ, and by no less than some positive bound. -/
theorem distances_differ (Y : ℝ) (irr : Irrational Y) :
    ∃ δ > 0, ∀ f g : F64, f64Value f ≠ f64Value g → 2 * δ < abs (|(f64Value f : ℝ) - Y| - |(f64Value g : ℝ) - Y|) := by
  let c : F64 × F64 → ℝ := fun x =>
    if f64Value x.1 = f64Value x.2 then 1 else abs (|(f64Value x.1 : ℝ) - Y| - |(f64Value x.2 : ℝ) - Y|)
  obtain ⟨x, hx⟩ := Finite.exists_min c
  have pos : 0 < c x := by
    simp only [c]
    split
    · exact one_pos
    · next h =>
      rw [abs_pos, sub_ne_zero]
      intro he
      rw [abs_sub_eq_abs_sub_iff_of_ne (fun h' => h (Rat.cast_injective h'))] at he
      refine irr ⟨(f64Value x.1 + f64Value x.2) / 2, ?_⟩
      push_cast; linarith
  refine ⟨c x / 3, by positivity, fun f g h => ?_⟩
  have := hx (f, g)
  simp only [c, if_neg h] at this ⊢
  simp only [c] at pos
  linarith

/-- Near an irrational number up to 1 every fraction rounds to the same binary64 value. -/
theorem roundMag_constant (Y : ℝ) (h0 : 0 < Y) (h1 : Y ≤ 1) (irr : Irrational Y) :
    ∃ δ > 0, ∀ n d n' d' : ℕ, 0 < d → 0 < d' → |(n : ℝ) / d / 2 ^ 1074 - Y| < δ → |(n' : ℝ) / d' / 2 ^ 1074 - Y| < δ →
      roundMag n d = roundMag n' d' := by
  obtain ⟨δ, hδ, sep⟩ := distances_differ Y irr
  have hT := (Rat.cast_lt (K := ℝ)).2 one_lt_overflowThreshold
  rw [Rat.cast_ofNat] at hT
  have near (n d : ℕ) (hd : 0 < d) (h : |(n : ℝ) / d / 2 ^ 1074 - Y| < min δ 1) (f : F64) (hf : isFinite f = true) :
      isFinite (withSign false (roundMag n d)) = true ∧
        |(f64Value (withSign false (roundMag n d)) : ℝ) - Y| ≤ |(f64Value f : ℝ) - Y| + 2 * δ := by
    obtain ⟨-, -, h3, -⟩ := roundsTo_withSign_roundMag false n d hd
    have hq : ((signFactor false * ((n : ℚ) / d) / 2 ^ 1074 : ℚ) : ℝ) = (n : ℝ) / d / 2 ^ 1074 := by
      rw [signFactor, if_neg (by decide), one_mul, Rat.cast_div, Rat.cast_div, Rat.cast_natCast, Rat.cast_natCast, Rat.cast_pow,
        Rat.cast_ofNat]
    generalize signFactor false * ((n : ℚ) / d) / 2 ^ 1074 = q at *
    rw [← hq] at h
    have hm := lt_min_iff.1 h
    rw [abs_lt, abs_lt] at hm
    obtain ⟨fin, h3⟩ := h3 (by
      rw [← Rat.cast_lt (K := ℝ), Rat.cast_abs, abs_lt]; constructor <;> linarith [hm.2.1, hm.2.2])
    refine ⟨fin, ?_⟩
    have h4 := (Rat.cast_le (K := ℝ)).2 (h3 f hf).1
    push_cast at h4
    have e1 := abs_sub_le (f64Value (withSign false (roundMag n d)) : ℝ) q Y
    have e2 := abs_sub_le (f64Value f : ℝ) Y q
    rw [abs_sub_comm Y q] at e2
    have e3 : |(q : ℝ) - Y| < δ := abs_lt.2 hm.1
    linarith
  refine ⟨min δ 1, lt_min hδ one_pos, fun n d n' d' hd hd' h h' => ?_⟩
  obtain ⟨fin, -⟩ := near n d hd h 0 (by decide)
  obtain ⟨fin', b⟩ := near n' d' hd' h' _ fin
  obtain ⟨-, a⟩ := near n d hd h _ fin'
  have heq : f64Value (withSign false (roundMag n d)) = f64Value (withSign false (roundMag n' d')) := by
    by_contra hne
    have := sep _ _ hne
    rw [lt_abs] at this
    rcases this with h | h <;> linarith
  rw [f64Value_withSign _ _ (roundMag_lt n d), f64Value_withSign _ _ (roundMag_lt n' d'), div_left_inj' unit_pos.ne', signFactor,
    if_neg (by decide), one_mul, one_mul, Nat.cast_inj] at heq
  exact magOfBits_injective heq

/-! ### The search ends -/

theorem scaled_real (k p : ℕ) : (((k <<< 1074 : ℕ) : ℝ) / ((1 <<< p : ℕ) : ℝ)) / 2 ^ 1074 = k / 2 ^ p := by
  rw [Nat.shiftLeft_eq, Nat.shiftLeft_eq, one_mul, Nat.cast_mul, Nat.cast_pow, Nat.cast_pow, Nat.cast_ofNat]
  have : (0 : ℝ) < 2 ^ 1074 := pow_pos (by norm_num) _
  generalize (2 : ℝ) ^ 1074 = U at *
  field_simp

theorem exists_room (ε : ℝ) (hε : 0 < ε) : ∃ p : ℕ, 9 ≤ p ∧ 2 * ((8 * p + 80 : ℕ) : ℝ) < ε * 2 ^ p := by
  have h := tendsto_pow_const_div_const_pow_of_one_lt 1 (show (1 : ℝ) < 2 by norm_num)
  obtain ⟨N, hN⟩ := Filter.eventually_atTop.1 (h.eventually (gt_mem_nhds (show 0 < ε / 36 by positivity)))
  refine ⟨max N 9, le_max_right _ _, ?_⟩
  have h1 := hN (max N 9) (le_max_left _ _)
  have h9 : (9 : ℝ) ≤ (max N 9 : ℕ) := by exact_mod_cast le_max_right N 9
  generalize max N 9 = p at *
  have hP : (0 : ℝ) < 2 ^ p := by positivity
  rw [pow_one, div_lt_iff₀ hP] at h1
  push_cast
  linarith

/-- The sine and the cosine of a magnitude other than 0 are irrational. -/
theorem irrational_shifted_sin (m shift : ℕ) (hm : m ≠ 0) : Irrational (sin ((m : ℝ) / 2 ^ 1074 + shift * (π / 2))) := by
  have hx : ((m : ℚ) / 2 ^ 1074 : ℚ) ≠ 0 := div_ne_zero (by exact_mod_cast hm) unit_pos.ne'
  have e : (((m : ℚ) / 2 ^ 1074 : ℚ) : ℝ) = (m : ℝ) / 2 ^ 1074 := by
    rw [Rat.cast_div, Rat.cast_natCast, Rat.cast_pow, Rat.cast_ofNat]
  have hs := irrational_sin_of_rat _ hx
  have hc := irrational_cos_of_rat _ hx
  rw [e] at hs hc
  rw [sin_add_quarters]
  split <;> split <;> simpa using by assumption

/-- Some precision settles the rounding. -/
theorem evaluate_settles (shift m : ℕ) (hm : m ≠ 0) : ∃ p, 9 ≤ p ∧ (evaluate (widePrecision m p) shift m).isSome = true := by
  have irr := irrational_shifted_sin m shift hm
  have hS1 := abs_sin_le_one ((m : ℝ) / 2 ^ 1074 + shift * (π / 2))
  have irr' : Irrational |sin ((m : ℝ) / 2 ^ 1074 + shift * (π / 2))| := by
    rcases abs_choice (sin ((m : ℝ) / 2 ^ 1074 + shift * (π / 2))) with h | h <;> rw [h]
    · exact irr
    · exact irr.neg
  have hY : 0 < |sin ((m : ℝ) / 2 ^ 1074 + shift * (π / 2))| := abs_pos.2 irr.ne_zero
  obtain ⟨δ, hδ, const⟩ := roundMag_constant _ hY hS1 irr'
  obtain ⟨p, hp, room⟩ := exists_room (min δ |sin ((m : ℝ) / 2 ^ 1074 + shift * (π / 2))|) (lt_min hδ hY)
  refine ⟨p, hp, ?_⟩
  obtain ⟨n, v, a, b, y, he, hv, hab, -, hy, hsin⟩ := evaluate_sum (widePrecision m p) shift m (widePrecision_ok m p hp)
  have e1 : (widePrecision m p).places = p := rfl
  have e2 : (widePrecision m p).error = 8 * p + 80 := rfl
  rw [e1, e2] at he
  rw [e1] at hy
  rw [e1, e2] at hab
  rw [he, Option.isSome_map]
  have hP : (0 : ℝ) < 2 ^ p := by positivity
  have r1 : 2 * ((8 * p + 80 : ℕ) : ℝ) < δ * 2 ^ p := lt_of_lt_of_le room (mul_le_mul_of_nonneg_right (min_le_left _ _) hP.le)
  have r2 : 2 * ((8 * p + 80 : ℕ) : ℝ) < |sin ((m : ℝ) / 2 ^ 1074 + shift * (π / 2))| * 2 ^ p :=
    lt_of_lt_of_le room (mul_le_mul_of_nonneg_right (min_le_right _ _) hP.le)
  have h3 : (3 : ℝ) ≤ ((8 * p + 80 : ℕ) : ℝ) := by exact_mod_cast (by omega : 3 ≤ 8 * p + 80)
  have hyY : |sin ((m : ℝ) / 2 ^ 1074 + shift * (π / 2))| = |y| := by rw [hsin]; split <;> simp
  rw [hyY] at r2 const
  clear irr irr' hS1 hY room hyY
  have hypos : 0 ≤ y := by
    by_contra hneg
    rw [abs_of_neg (not_le.1 hneg)] at r2
    have : -3 ≤ y * 2 ^ p := by
      have := mul_le_mul_of_nonneg_right hy hP.le
      rwa [neg_mul, div_mul_cancel₀ _ hP.ne'] at this
    linarith
  rw [abs_of_nonneg hypos] at r2 const
  generalize hE : 8 * p + 80 = E at *
  rw [abs_le] at hab
  have hba : b ≤ a := by rw [← Nat.cast_le (α := ℝ)]; nlinarith [hab.1]
  have hvr : (v : ℝ) = a - b := by rw [hv, Nat.cast_sub hba]
  rw [← hvr] at hab
  have hEv : E < v := by rw [← Nat.cast_lt (α := ℝ)]; linarith [hab.1]
  unfold settle
  dsimp only
  suffices same : roundMag ((v - E) <<< 1074) (1 <<< p) = roundMag ((v + E) <<< 1074) (1 <<< p) by
    rw [if_pos ⟨hEv, same⟩]; rfl
  have hd : 0 < 1 <<< p := by rw [Nat.shiftLeft_eq, one_mul]; exact Nat.pow_pos (by norm_num)
  apply const _ _ _ _ hd hd
  · rw [scaled_real, Nat.cast_sub hEv.le, abs_lt]
    constructor
    · rw [lt_sub_iff_add_lt, lt_div_iff₀ hP]; linarith [hab.1]
    · rw [sub_lt_iff_lt_add, div_lt_iff₀ hP]; linarith [hab.2]
  · rw [scaled_real, Nat.cast_add, abs_lt]
    constructor
    · rw [lt_sub_iff_add_lt, lt_div_iff₀ hP]; linarith [hab.1]
    · rw [sub_lt_iff_lt_add, div_lt_iff₀ hP]; linarith [hab.2]

end Sys2Proof.Machine
end

