-- ==== Sys2Proof/Machine/Trig.lean ====
section
/-! DEFINITION. The trig unit TRIG = (SIN, COS) (R7, D9): the default, correctly rounded at every finite argument, and the uninterpreted
units. -/

namespace Sys2Proof.Machine

/-- The least number of places that settles the rounding: one exists, because the sine and the cosine of a rational number other than 0
are irrational (log 4). -/
def settlingPlaces (shift m : Nat) (h : m ≠ 0) : Nat := Nat.find (evaluate_settles shift m h)

/-- The sine (shift 0) or the cosine (shift 1) of the magnitude `m`, correctly rounded: its sign, and its magnitude bits. The precisions
tried first settle the arguments a table or a calibration holds; behind them stands the search without a bound. -/
def trigDefault (shift m : Nat) (h : m ≠ 0) : Bool × Nat :=
  match precisions.findSome? (fun d => evaluate d shift m) with
  | some r => r
  | none => (evaluate (widePrecision m (settlingPlaces shift m h)) shift m).get (Nat.find_spec (evaluate_settles shift m h)).2

/-- The default SIN. Up to 2^-27 the sine lies within a quarter of a unit in the last place below its argument, and rounds to it. -/
def sinDefault (x : F64) : F64 :=
  if !isFinite x then freeNaN .sin x x
  else if h : mag x ≤ 1 <<< 1047 then x
  else
    let r := trigDefault 0 (mag x) (fun h0 => h (h0 ▸ Nat.zero_le _))
    withSign (r.1 != signBit x) r.2

/-- The default COS. -/
def cosDefault (x : F64) : F64 :=
  if !isFinite x then freeNaN .cos x x
  else if h : mag x = 0 then one64
  else
    let r := trigDefault 1 (mag x) h
    withSign r.1 r.2

/-- SIN of TRIG: SIN(+0) = +0 and SIN(-0) = -0 for every unit (D9). -/
def trigSin (cfg : Config) (x : F64) : F64 :=
  if isZero x then x
  else
    match cfg.trig with
    | .correctlyRounded => sinDefault x
    | .other n => Config.otherSin n x

/-- COS of TRIG: COS(+0) = COS(-0) = 1.0 for every unit (D9). -/
def trigCos (cfg : Config) (x : F64) : F64 :=
  if isZero x then one64
  else
    match cfg.trig with
    | .correctlyRounded => cosDefault x
    | .other n => Config.otherCos n x

/-! ### The angle lookup ROM (R33, R110) -/

/-- The angle of tick `i`, in radians (R110). -/
def tickRadians (i : U16) : F64 := toRadians (fdiv (i2f i) hundred64)

/-- LUT_SIN[i], read for i in 0..36000 only (R110). -/
def lutSin (cfg : Config) (i : U16) : F64 := trigSin cfg (tickRadians i)

/-- LUT_COS[i], read for i in 0..36000 only (R110). -/
def lutCos (cfg : Config) (i : U16) : F64 := trigCos cfg (tickRadians i)

end Sys2Proof.Machine
end

