-- ==== Sys2Proof/Machine/Profile.lean ====
section
/-! DEFINITION. Calibration entries (R32, R112), their derived fields (R114), the built-in profile (R116, R117) and the default
configuration (R7). -/

namespace Sys2Proof.Machine

/-- One calibration entry: five base fields and four derived ones, each a binary64 bit pattern (R32). -/
structure CalEntry where
  azCorr : F64
  vertCorr : F64
  distCorr : F64
  vOffCorr : F64
  hOffCorr : F64
  sinVert : F64
  cosVert : F64
  sinVOff : F64
  cosVOff : F64
  deriving DecidableEq, Repr

/-- The entry with its derived fields recomputed from its base fields: `Derive` of R114. -/
def deriveEntry (cfg : Config) (e : CalEntry) : CalEntry :=
  let s := trigSin cfg (toRadians e.vertCorr)
  let c := trigCos cfg (toRadians e.vertCorr)
  { e with sinVert := s, cosVert := c, sinVOff := fmul e.vOffCorr s, cosVOff := fmul e.vOffCorr c }

/-- DEFAULT_VERT[k] for k < 32: entries 0 and 31 are the source's -30.67 and 10.67, the others the configuration's (R116). -/
def defaultVert (cfg : Config) (k : Nat) : F64 :=
  if k = 0 then 0xC03EAB851EB851EC
  else if k = 31 then 0x4025570A3D70A3D7
  else cfg.vertMiddle.toList.getD (k - 1) zero64

/-- Entry k of the built-in profile (R117). -/
def defaultEntry (cfg : Config) (k : Nat) : CalEntry :=
  deriveEntry cfg
    { azCorr := zero64, vertCorr := if k < 32 then defaultVert cfg k else zero64, distCorr := zero64, vOffCorr := zero64,
      hOffCorr := zero64, sinVert := zero64, cosVert := zero64, sinVOff := zero64, cosVOff := zero64 }

/-- The 64 entries LOAD_DEFAULT and reset leave (R117, R280). -/
def defaultProfile (cfg : Config) : Vector CalEntry 64 := Vector.ofFn (fun k => defaultEntry cfg k.val)

/-- The spec's default DEFAULT_VERT[1..30], the nearest binary64 values to the table of R116 (log 3). -/
def defaultVertMiddle : Vector F64 30 :=
  #v[
     0xC022A8F5C28F5C29, 0xC03D547AE147AE14, 0xC020000000000000,  -- -9.33, -29.33, -8.00
     0xC03C000000000000, 0xC01AAE147AE147AE, 0xC03AAB851EB851EC,  -- -28.00, -6.67, -26.67
     0xC01551EB851EB852, 0xC039547AE147AE14, 0xC010000000000000,  -- -5.33, -25.33, -4.00
     0xC038000000000000, 0xC0055C28F5C28F5C, 0xC036AB851EB851EC,  -- -24.00, -2.67, -22.67
     0xBFF547AE147AE148, 0xC035547AE147AE14, 0x0000000000000000,  -- -1.33, -21.33, 0.00
     0xC034000000000000, 0x3FF547AE147AE148, 0xC032AB851EB851EC,  -- -20.00, 1.33, -18.67
     0x40055C28F5C28F5C, 0xC031547AE147AE14, 0x4010000000000000,  -- 2.67, -17.33, 4.00
     0xC030000000000000, 0x401551EB851EB852, 0xC02D570A3D70A3D7,  -- -16.00, 5.33, -14.67
     0x401AAE147AE147AE, 0xC02AA8F5C28F5C29, 0x4020000000000000,  -- 6.67, -13.33, 8.00
     0xC028000000000000, 0x4022A8F5C28F5C29, 0xC025570A3D70A3D7  -- -12.00, 9.33, -10.67
    ]

/-- The spec's default configuration (R7): the identifiers of D4 (log 2), the table of R116 (log 3), the correctly rounded trig
unit (log 4) and an unbounded event channel (D25, log 7). -/
def defaultConfig : Config :=
  { blkidLo := 0xEEFF, blkidHi := 0xDDFF, vertMiddle := defaultVertMiddle, trig := .correctlyRounded, eventCapacity := none }

end Sys2Proof.Machine
end

