-- ==== Sys2Proof/Machine/State.lean ====
section
/-! DEFINITION. The state of the block (R36), why a step could stop, and the state after reset (R280). -/

namespace Sys2Proof.Machine

/-- The block never traps, halts or retries (R256, D23): an error sets its STATUS bit and emits EV_ERROR, and the machine goes on.
So no step ends in a fault, and there is no fault to name (log 12). -/
inductive Fault where
  deriving DecidableEq, Repr

/-- Why a step has no meaning. -/
inductive Refusal where
  /-- Raised by an arm of `exec` whose instruction has no meaning yet (safe: the machine stops). No arm raises it. -/
  | notModelled (mnemonic : String)
  deriving DecidableEq, Repr

/-- The architectural state (R36), the configuration it runs under, and the host's coming actions. -/
structure State where
  /-- The configuration, which no step writes (R7, R36; log 1). -/
  cfg : Config
  /-- STATUS, register 0 (R23); read and written through Machine/Flags.lean. -/
  status : U32
  /-- LAST_AZ, register 1 (R24). -/
  lastAz : U16
  /-- PENDING_SKIP, register 2 (R25). -/
  pendingSkip : BitVec 4
  /-- FRAME_COUNT, register 3 (R26). -/
  frameCount : U32
  /-- CUR_FRAME_POINTS, register 4 (R27). -/
  curFramePoints : U32
  /-- DATA_PKT_COUNT, register 5 (R28). -/
  dataPktCount : U32
  /-- NONDATA_PKT_COUNT, register 6 (R28). -/
  nondataPktCount : U32
  /-- The calibration RAM Cal[0..63] (R32). -/
  cal : Vector CalEntry 64
  /-- The events emitted and not yet removed by the host, oldest first (R31). -/
  events : List Event
  /-- What the host does next, first action first but for a hold (`nextAction`); its commands are the command channel (R30; logs 7, 8). -/
  input : List HostAction
  deriving DecidableEq, Repr

/-- The state reset leaves under a configuration (R280), the host having nothing to do. -/
def State.resetWith (cfg : Config) : State :=
  { cfg := cfg, status := 0, lastAz := 0, pendingSkip := 0, frameCount := 0, curFramePoints := 0, dataPktCount := 0,
    nondataPktCount := 0, cal := defaultProfile cfg, events := [], input := [] }

/-- The machine right after reset, under the spec's default configuration (R280, R7). -/
def State.reset : State := State.resetWith defaultConfig

end Sys2Proof.Machine
end

