-- ==== Sys2Proof/Machine/Flags.lean ====
section
/-! DEFINITION. The STATUS register (R23), the block's only flag state (R22): its bits, how an event sets one, how STATUS_CLEAR
clears them, and what a read gives. Bits 31:4 are hardwired to 0, whatever is written. -/

namespace Sys2Proof.Machine

/-- The defined bits of STATUS (R23). -/
inductive StatusBit where
  | blkidOther | azRange | unknownLaser | illegalCmd
  deriving DecidableEq, Repr

/-- The number of a bit in STATUS (R23). -/
def StatusBit.index : StatusBit → Nat
  | .blkidOther => 0 | .azRange => 1 | .unknownLaser => 2 | .illegalCmd => 3

/-- STATUS with that bit alone. -/
def StatusBit.mask (b : StatusBit) : U32 := 1 <<< b.index

/-- What STATUS holds once `w` is written to it: bits 31:4 are hardwired to 0 (R23). -/
def statusValue (w : U32) : U32 := w &&& 0x0000000F

/-- The value of STATUS (R23, R231). -/
def readStatus (s : State) : U32 := statusValue s.status

/-- An event sets a sticky bit (R23). -/
def setStatus (b : StatusBit) (s : State) : State := { s with status := statusValue (s.status ||| b.mask) }

/-- `STATUS[3:0] <- STATUS[3:0] and not MASK` (R232). -/
def clearStatus (mask : BitVec 4) (s : State) : State :=
  { s with status := statusValue (s.status &&& ~~~(mask.zeroExtend 32)) }

/-- The bit is 1. -/
def statusHas (b : StatusBit) (s : State) : Bool := (readStatus s).getLsbD b.index

end Sys2Proof.Machine
end

