-- ==== Sys2Proof/WellFormed.lean ====
section
/-! DEFINITION. The static check on an instruction term. The selectors are typed, so the one check left is that a PACKET's
payload has exactly LEN bytes (R80, R81 check 3). -/

namespace Sys2Proof

/-- An instruction term that some command encodes. -/
def Instr.wellFormed : Instr → Bool
  | .packet len payload => payload.length == len.toNat
  | .nop | .flush | .sessionReset | .setSkip _ | .loadDefault | .calWrite _ _ _ | .calRead _ _ | .regRead _
  | .statusClear _ => true

end Sys2Proof
end

