-- ==== Sys2Proof/Decode.lean ====
section
/-! DEFINITION. From a command transaction to an instruction or a named rejection (R80, R81), and the encoder (R80, R83 to
R85, R87). Also the little-endian assembly of bytes that the packet fields and the CAL_WRITE payload share (R51), and the
expansion of the pseudo-commands (R88). -/

namespace Sys2Proof

/-- The number whose little-endian bytes are `bs`: the first byte is the least significant (R51). -/
def leNat : List Byte → Nat
  | [] => 0
  | b :: bs => b.toNat + 256 * leNat bs

/-- The eight little-endian bytes of a binary64 bit pattern, b0 first (R85). -/
def f64Bytes (v : F64) : List Byte :=
  [v.extractLsb' 0 8, v.extractLsb' 8 8, v.extractLsb' 16 8, v.extractLsb' 24 8,
   v.extractLsb' 32 8, v.extractLsb' 40 8, v.extractLsb' 48 8, v.extractLsb' 56 8]

/-- The binary64 of a CAL_WRITE payload (R85). -/
def f64OfBytes (bs : List Byte) : F64 := BitVec.ofNat 64 (leNat bs)

/-! ### Selectors -/

/-- FIELD of a base field (R83). -/
def BaseField.sel : BaseField → BitVec 4
  | .azCorr => 0 | .vertCorr => 1 | .distCorr => 2 | .vOffCorr => 3 | .hOffCorr => 4

/-- FIELD of a derived field (R83). -/
def DerivedField.sel : DerivedField → BitVec 4
  | .sinVert => 5 | .cosVert => 6 | .sinVOff => 7 | .cosVOff => 8

/-- FIELD encoding (R83). -/
def CalField.sel : CalField → BitVec 4
  | .base f => f.sel
  | .derived f => f.sel

/-- The field that FIELD selects; 9..15 are reserved (R83). -/
def calFieldOfSel (sel : BitVec 4) : Option CalField :=
  match sel.toNat with
  | 0 => some (.base .azCorr)
  | 1 => some (.base .vertCorr)
  | 2 => some (.base .distCorr)
  | 3 => some (.base .vOffCorr)
  | 4 => some (.base .hOffCorr)
  | 5 => some (.derived .sinVert)
  | 6 => some (.derived .cosVert)
  | 7 => some (.derived .sinVOff)
  | 8 => some (.derived .cosVOff)
  | _ => none

/-- REG encoding (R84). -/
def Reg.sel : Reg → BitVec 4
  | .status => 0 | .lastAz => 1 | .pendingSkip => 2 | .frameCount => 3 | .curFramePoints => 4
  | .dataPktCount => 5 | .nondataPktCount => 6

/-- The register that REG selects; 7..15 are reserved (R84). -/
def regOfSel (sel : BitVec 4) : Option Reg :=
  match sel.toNat with
  | 0 => some .status
  | 1 => some .lastAz
  | 2 => some .pendingSkip
  | 3 => some .frameCount
  | 4 => some .curFramePoints
  | 5 => some .dataPktCount
  | 6 => some .nondataPktCount
  | _ => none

/-! ### Opcodes and formats -/

/-- The ten defined opcodes (R80). -/
inductive Op where
  | nop | packet | flush | sessionReset | setSkip | loadDefault | calWrite | calRead | regRead | statusClear
  deriving DecidableEq, Repr

/-- The opcodes by number; 0xA..0xF are reserved (R80). -/
def opOfNumber : Nat → Option Op
  | 0 => some .nop
  | 1 => some .packet
  | 2 => some .flush
  | 3 => some .sessionReset
  | 4 => some .setSkip
  | 5 => some .loadDefault
  | 6 => some .calWrite
  | 7 => some .calRead
  | 8 => some .regRead
  | 9 => some .statusClear
  | _ => none

/-- The opcode in word[31:28] (R80). -/
def opOfWord (w : U32) : Option Op := opOfNumber (w.extractLsb' 28 4).toNat

/-- The reserved bits of the opcode's word layout, which must be zero (R80: `plain`, `len16`, `sel4`, `laser_field`). -/
def Op.reservedMask : Op → U32
  | .nop | .flush | .sessionReset | .loadDefault => 0x0FFFFFFF
  | .packet => 0x0FFF0000
  | .setSkip | .regRead | .statusClear => 0x0FFFFFF0
  | .calWrite | .calRead => 0x0F00FFF0

/-- The number of payload bytes a command word requires (R80). -/
def Op.payloadLength (op : Op) (w : U32) : Nat :=
  match op with
  | .packet => (w.extractLsb' 0 16).toNat
  | .calWrite => 8
  | .nop | .flush | .sessionReset | .setSkip | .loadDefault | .calRead | .regRead | .statusClear => 0

/-- The five sub-reasons of ILLEGAL_CMD (R81). -/
inductive IllegalReason where
  | reservedOpcode | reservedBit | payloadLength | reservedValue | derivedField
  deriving DecidableEq, Repr

/-- The sub-reason's number, which EV_ERROR carries in a1 (R81, R95). -/
def IllegalReason.code : IllegalReason → U16
  | .reservedOpcode => 1 | .reservedBit => 2 | .payloadLength => 3 | .reservedValue => 4 | .derivedField => 5

/-- The operands of a command whose opcode, reserved bits and payload length have passed (R81 checks 4 and 5). -/
def Op.operands (op : Op) (c : Command) : Except IllegalReason Instr :=
  match op with
  | .nop => .ok .nop
  | .packet => .ok (.packet (c.word.extractLsb' 0 16) c.payload)
  | .flush => .ok .flush
  | .sessionReset => .ok .sessionReset
  | .setSkip => .ok (.setSkip (c.word.extractLsb' 0 4))
  | .loadDefault => .ok .loadDefault
  | .calWrite =>
    match calFieldOfSel (c.word.extractLsb' 0 4) with
    | none => .error .reservedValue
    | some (.derived _) => .error .derivedField
    | some (.base f) => .ok (.calWrite (c.word.extractLsb' 16 8) f (f64OfBytes c.payload))
  | .calRead =>
    match calFieldOfSel (c.word.extractLsb' 0 4) with
    | none => .error .reservedValue
    | some f => .ok (.calRead (c.word.extractLsb' 16 8) f)
  | .regRead =>
    match regOfSel (c.word.extractLsb' 0 4) with
    | none => .error .reservedValue
    | some r => .ok (.regRead r)
  | .statusClear => .ok (.statusClear (c.word.extractLsb' 0 4))

/-- Decoding, total on every command, with the checks in the order of R81. -/
def decode (c : Command) : Except IllegalReason Instr :=
  match opOfWord c.word with
  | none => .error .reservedOpcode
  | some op =>
    if c.word &&& op.reservedMask ≠ 0 then .error .reservedBit
    else if c.payload.length ≠ op.payloadLength c.word then .error .payloadLength
    else op.operands c

/-! ### The encoder -/

/-- The command word: opcode, then the fields in the places of R80. -/
def encodeWord : Instr → U32
  | .nop => 0x0#4 ++ 0#28
  | .packet len _ => 0x1#4 ++ 0#12 ++ len
  | .flush => 0x2#4 ++ 0#28
  | .sessionReset => 0x3#4 ++ 0#28
  | .setSkip skip => 0x4#4 ++ 0#24 ++ skip
  | .loadDefault => 0x5#4 ++ 0#28
  | .calWrite laser field _ => 0x6#4 ++ 0#4 ++ laser ++ 0#12 ++ field.sel
  | .calRead laser field => 0x7#4 ++ 0#4 ++ laser ++ 0#12 ++ field.sel
  | .regRead reg => 0x8#4 ++ 0#24 ++ reg.sel
  | .statusClear mask => 0x9#4 ++ 0#24 ++ mask

/-- The payload bytes (R80, R85). -/
def encodePayload : Instr → List Byte
  | .packet _ payload => payload
  | .calWrite _ _ value => f64Bytes value
  | .nop | .flush | .sessionReset | .setSkip _ | .loadDefault | .calRead _ _ | .regRead _ | .statusClear _ => []

/-- The command transaction of an instruction (R80, R87). -/
def encode (i : Instr) : Command := ⟨encodeWord i, encodePayload i⟩

/-! ### Pseudo-commands and the opcode table's words -/

/-- The expansion of a pseudo-command (R88). -/
def Pseudo.expand : Pseudo → List Instr
  | .seekResume skip => [.sessionReset, .setSkip skip]
  | .calSet laser az vert dist voff hoff =>
    [.calWrite laser .azCorr az, .calWrite laser .vertCorr vert, .calWrite laser .distCorr dist,
     .calWrite laser .vOffCorr voff, .calWrite laser .hOffCorr hoff]
  | .clearStatus => [.statusClear 0xF]

/-- The command whose word is the low `nbits` bits of `w` and whose payload is as many zero bytes as the word requires
(none for a reserved opcode): a row of the opcode table gives the word only. -/
def tableCommand (nbits w : Nat) : Command :=
  let word : U32 := BitVec.ofNat 32 (w % 2 ^ nbits)
  ⟨word, List.replicate (((opOfWord word).map (·.payloadLength word)).getD 0) 0⟩

/-- The instruction the decoder reads from an opcode-table word. -/
def decodeTableWord (nbits w : Nat) : Option Instr :=
  match decode (tableCommand nbits w) with
  | .ok i => some i
  | .error _ => none

end Sys2Proof
end

