-- ==== Sys2Proof/Machine/Operands.lean ====
section
/-! DEFINITION. How operands are read and written: the packet byte space (R11, R54, R71 to R73), the calibration space (R32, R83) and
the register space (R84, R231). -/

namespace Sys2Proof.Machine

/-! ### The packet byte space -/

/-- `MemRead(addr, n)`: n bytes of the packet buffer from `addr`, little-endian, as a u(8n) (R11, R51). -/
def memRead (buf : List Byte) (addr n : Nat) : BitVec (8 * n) := BitVec.ofNat (8 * n) (leNat ((buf.drop addr).take n))

/-- PKT_LEN, the length of a data packet (R7, R70). -/
def pktLen : Nat := 1206

/-- The identifier of block k (R71). -/
def blockId (buf : List Byte) (k : Nat) : U16 := memRead buf (100 * k) 2

/-- The rotational position of block k (R72). -/
def blockPos (buf : List Byte) (k : Nat) : U16 := memRead buf (100 * k + 2) 2

/-- The raw distance of return j of block k (R72). -/
def returnDist (buf : List Byte) (k j : Nat) : U16 := memRead buf (100 * k + 4 + 3 * j) 2

/-- The intensity of return j of block k (R72). -/
def returnIntensity (buf : List Byte) (k j : Nat) : Byte := memRead buf (100 * k + 6 + 3 * j) 1

/-- The capture timestamp (R73). -/
def packetTimestamp (buf : List Byte) : U32 := memRead buf 1200 4

/-- The laser-index offset of a block: 0 for BLKID_LO, 32 otherwise (R71, R143). -/
def laserOffset (cfg : Config) (id : U16) : BitVec 6 := if id = cfg.blkidLo then 0 else 32

/-! ### The calibration space -/

/-- Reading a field of an entry (R83). -/
def CalEntry.field (e : CalEntry) : CalField → F64
  | .base .azCorr => e.azCorr
  | .base .vertCorr => e.vertCorr
  | .base .distCorr => e.distCorr
  | .base .vOffCorr => e.vOffCorr
  | .base .hOffCorr => e.hOffCorr
  | .derived .sinVert => e.sinVert
  | .derived .cosVert => e.cosVert
  | .derived .sinVOff => e.sinVOff
  | .derived .cosVOff => e.cosVOff

/-- Writing a base field of an entry (R118). -/
def CalEntry.withBase (e : CalEntry) (f : BaseField) (v : F64) : CalEntry :=
  match f with
  | .azCorr => { e with azCorr := v }
  | .vertCorr => { e with vertCorr := v }
  | .distCorr => { e with distCorr := v }
  | .vOffCorr => { e with vOffCorr := v }
  | .hOffCorr => { e with hOffCorr := v }

/-- The entry of a laser id, 0..63 (R32, R120). -/
def calEntry (s : State) (id : BitVec 6) : CalEntry := s.cal[id.toNat]'id.isLt

/-- Replacing the entry of a laser id. -/
def setCalEntry (id : BitVec 6) (e : CalEntry) (s : State) : State := { s with cal := s.cal.set id.toNat e id.isLt }

/-- The calibration index a LASER field names, when it is below 64 (R118, R119). -/
def laserIndex (laser : Byte) : Option (BitVec 6) := if laser.toNat < 64 then some (laser.setWidth 6) else none

/-! ### The register space -/

/-- The value REG_READ returns (R231, D46). -/
def readReg (s : State) : Reg → U32
  | .status => readStatus s
  | .lastAz => s.lastAz.zeroExtend 32
  | .pendingSkip => s.pendingSkip.zeroExtend 32
  | .frameCount => s.frameCount
  | .curFramePoints => s.curFramePoints
  | .dataPktCount => s.dataPktCount
  | .nondataPktCount => s.nondataPktCount

end Sys2Proof.Machine
end

