-- ==== Sys2Proof/Machine/Ops.lean ====
section
/-! DEFINITION. The operations the meanings share: emitting an event (R31), raising an error (R251), which is all the block has in
place of taking an exception and returning from one (R256, R257), rejecting a malformed command (R253), counting a point (R178) and
closing a frame (R202, R207). -/

namespace Sys2Proof.Machine

/-- Append an event to the end of the event channel (R11, R31). -/
def emit (e : Event) (s : State) : State := { s with events := s.events ++ [e] }

/-- The STATUS bit of an error (R251, R23). -/
def ErrorKind.bit : ErrorKind → StatusBit
  | .azRange => .azRange | .unknownLaser => .unknownLaser | .illegalCmd => .illegalCmd

/-- `raise E(a1, a2, a3)` for the command `word`: set the sticky bit, then emit EV_ERROR (R251). -/
def raise (kind : ErrorKind) (word : U32) (a1 a2 a3 : U16) (s : State) : State :=
  emit (.error kind word a1 a2 a3) (setStatus kind.bit s)

/-- A command that is not well-formed: ILLEGAL_CMD with the sub-reason and the low 16 bits of the payload length, and no other
effect (R81, R95, R253). -/
def raiseIllegal (reason : IllegalReason) (c : Command) (s : State) : State :=
  raise .illegalCmd c.word reason.code (BitVec.ofNat 16 c.payload.length) 0 s

/-- Emit a Point and count it in the open frame (R178). -/
def emitPoint (p : Point) (s : State) : State :=
  { emit (.point p) s with curFramePoints := s.curFramePoints + 1 }

/-- Close the open frame and open an empty one (R202, R207, R92). -/
def closeFrame (cause : FrameCause) (block : BitVec 4) (s : State) : State :=
  { emit (.frameEnd cause block s.curFramePoints s.frameCount) s with
    curFramePoints := 0, frameCount := s.frameCount + 1 }

end Sys2Proof.Machine
end

