-- ==== Sys2Proof/Machine/Calibration.lean ====
section
/-! DEFINITION. The calibration commands LOAD_DEFAULT, CAL_WRITE and CAL_READ (R117 to R119). The `word` an EV_ERROR carries is the
command's word, which the encoder gives back from the operands (log 11). -/

namespace Sys2Proof.Machine

/-- LOAD_DEFAULT (R117). -/
def execLoadDefault (s : State) : Host.Outcome State Fault Refusal := .next { s with cal := defaultProfile s.cfg }

/-- CAL_WRITE (R118): write the base field, then recompute the entry's derived fields. -/
def execCalWrite (laser : Byte) (field : BaseField) (value : F64) (s : State) : Host.Outcome State Fault Refusal :=
  match laserIndex laser with
  | none => .next (raise .unknownLaser (encodeWord (.calWrite laser field value)) (laser.zeroExtend 16) 0 0 s)
  | some id => .next (setCalEntry id (deriveEntry s.cfg ((calEntry s id).withBase field value)) s)

/-- CAL_READ (R119): the stored bit pattern, unchanged (R94). -/
def execCalRead (laser : Byte) (field : CalField) (s : State) : Host.Outcome State Fault Refusal :=
  match laserIndex laser with
  | none => .next (raise .unknownLaser (encodeWord (.calRead laser field)) (laser.zeroExtend 16) 0 0 s)
  | some id => .next (emit (.calData id field.sel ((calEntry s id).field field)) s)

end Sys2Proof.Machine
end

