-- ==== Sys2Proof/Machine/Control.lean ====
section
/-! DEFINITION. The control commands NOP, REG_READ and STATUS_CLEAR (R230 to R232). -/

namespace Sys2Proof.Machine

/-- NOP (R230). -/
def execNop (s : State) : Host.Outcome State Fault Refusal := .next s

/-- REG_READ (R231). -/
def execRegRead (reg : Reg) (s : State) : Host.Outcome State Fault Refusal := .next (emit (.regData reg.sel (readReg s reg)) s)

/-- STATUS_CLEAR (R232). -/
def execStatusClear (mask : BitVec 4) (s : State) : Host.Outcome State Fault Refusal := .next (clearStatus mask s)

end Sys2Proof.Machine
end

