-- ==== Sys2Proof/Machine/Corrector.lean ====
section
/-! DEFINITION. The point corrector (R170 to R180), which PACKET calls once for each laser return of each processed block. -/

namespace Sys2Proof.Machine

/-- The greatest index of the angle lookup tables (R33). -/
def azMaxLut : Nat := 36000

/-- The corrected azimuth in radians, of the slow path (R174). -/
def slowRadians (az : U16) (azCorr : F64) : F64 := toRadians (fsub (fdiv (i2f az) hundred64) azCorr)

/-- Sine and cosine of the azimuth: by table when azCorr is zero (R172, R173), none when the table has no such index, and by the
trig unit otherwise (R174). -/
def azimuthTrig (cfg : Config) (azCorr : F64) (az : U16) : Option (F64 × F64) :=
  if feq azCorr zero64 then
    if az.toNat > azMaxLut then none else some (lutSin cfg az, lutCos cfg az)
  else some (trigSin cfg (slowRadians az azCorr), trigCos cfg (slowRadians az azCorr))

/-- The distance in metres (R175). -/
def distMetres (e : CalEntry) (dist : U16) : F64 := fadd (fmul (i2f dist) distLsb) e.distCorr

/-- The horizontal projected range (R176). -/
def horizRange (e : CalEntry) (distM : F64) : F64 := fsub (fmul distM e.cosVert) e.sinVOff

/-- The Point of a return whose azimuth has the given sine and cosine (R175 to R178). -/
def pointOf (e : CalEntry) (sinAz cosAz : F64) (laserId : BitVec 6) (az dist : U16) (inty : Byte) (ts : U32) : Point :=
  let distM := distMetres e dist
  let horiz := horizRange e distM
  { x := fsub (fmul horiz sinAz) (fmul e.hOffCorr cosAz)
    y := fadd (fmul horiz cosAz) (fmul e.hOffCorr sinAz)
    z := fadd (fmul distM e.sinVert) e.cosVOff
    distance := distM, intensity := inty, laserId := laserId, azimuth := az, timestamp := ts }

/-- `CorrectReturn` of R170 for the PACKET command `word`: nothing for a zero distance (R171), AZ_RANGE off the end of the table
(R173), else one Point. -/
def correctReturn (word : U32) (laserId : BitVec 6) (az dist : U16) (inty : Byte) (ts : U32) (k : Nat) (s : State) : State :=
  if dist = 0 then s
  else
    match azimuthTrig s.cfg (calEntry s laserId).azCorr az with
    | none => raise .azRange word (laserId.zeroExtend 16) (BitVec.ofNat 16 k) az s
    | some (sinAz, cosAz) => emitPoint (pointOf (calEntry s laserId) sinAz cosAz laserId az dist inty ts) s

end Sys2Proof.Machine
end

