-- ==== Sys2Proof/Machine/Segmenter.lean ====
section
/-! DEFINITION. The angular wraparound detector (R200 to R206) and its commands FLUSH, SESSION_RESET and SET_SKIP. -/

namespace Sys2Proof.Machine

/-- `SegmentBlock(k, pos)` of R201: a position below LAST_AZ closes the frame (R202), and LAST_AZ takes the position whether or not
it did (R203). -/
def segmentBlock (k : Nat) (pos : U16) (s : State) : State :=
  let s1 := if pos < s.lastAz then closeFrame .split (BitVec.ofNat 4 k) s else s
  { s1 with lastAz := pos }

/-- FLUSH (R207): close the open frame, even an empty one; block is 0 for a flush (R92). -/
def execFlush (s : State) : Host.Outcome State Fault Refusal := .next (closeFrame .flush 0 s)

/-- SESSION_RESET (R208). -/
def execSessionReset (s : State) : Host.Outcome State Fault Refusal :=
  .next { s with lastAz := 0, pendingSkip := 0, curFramePoints := 0, frameCount := 0 }

/-- SET_SKIP (R209). -/
def execSetSkip (skip : BitVec 4) (s : State) : Host.Outcome State Fault Refusal := .next { s with pendingSkip := skip }

end Sys2Proof.Machine
end

