-- ==== Sys2Proof/Machine/Packet.lean ====
section
/-! DEFINITION. The packet decoder: the PACKET command (R140 to R148). -/

namespace Sys2Proof.Machine

/-- The notice BLKID_OTHER of a block whose identifier is neither sentinel (R144). -/
def noteIdentifier (id : U16) (s : State) : State :=
  if id ≠ s.cfg.blkidLo ∧ id ≠ s.cfg.blkidHi then setStatus .blkidOther s else s

/-- Return j of block k, with the block's laser offset and position (R145). -/
def processReturn (word : U32) (buf : List Byte) (k : Nat) (s : State) (j : Nat) : State :=
  correctReturn word (laserOffset s.cfg (blockId buf k) + BitVec.ofNat 6 j) (blockPos buf k) (returnDist buf k j)
    (returnIntensity buf k j) (packetTimestamp buf) k s

/-- Block k: the notice, the segmenter step, then the 32 returns in ascending order (R140, R145). -/
def processBlock (word : U32) (buf : List Byte) (s : State) (k : Nat) : State :=
  (List.range 32).foldl (processReturn word buf k) (segmentBlock k (blockPos buf k) (noteIdentifier (blockId buf k) s))

/-- The blocks a data packet processes: `start .. 11` in ascending order, none when start is 12 or more (R142). -/
def blocksFrom (start : BitVec 4) : List Nat := (List.range 12).drop start.toNat

/-- All the blocks of a data packet, from PENDING_SKIP on (R142). -/
def processBlocks (word : U32) (buf : List Byte) (s : State) : State :=
  (blocksFrom s.pendingSkip).foldl (processBlock word buf) s

/-- A data packet (R140, R142): the blocks, then the skip is consumed, the packet counted and its completion emitted. -/
def dataPacket (word : U32) (buf : List Byte) (s : State) : State :=
  let s1 := processBlocks word buf s
  emit (.packet .data (BitVec.ofNat 16 pktLen) (packetTimestamp buf) s.pendingSkip)
    { s1 with pendingSkip := 0, dataPktCount := s1.dataPktCount + 1 }

/-- A non-data packet (R141). -/
def nondataPacket (len : U16) (s : State) : State :=
  emit (.packet .notData len 0 0) { s with nondataPktCount := s.nondataPktCount + 1 }

/-- PACKET (R140). A payload that is not LEN bytes long is an illegal command and nothing else (R81 check 3, R253; log 11). -/
def execPacket (len : U16) (payload : List Byte) (s : State) : Host.Outcome State Fault Refusal :=
  if payload.length ≠ len.toNat then .next (raiseIllegal .payloadLength (encode (.packet len payload)) s)
  else if len.toNat ≠ pktLen then .next (nondataPacket len s)
  else .next (dataPacket (encodeWord (.packet len payload)) payload s)

end Sys2Proof.Machine
end

