-- ==== Sys2Proof/Machine/Dispatch.lean ====
section
/-! DEFINITION. One arm per command: which meaning runs it. -/

namespace Sys2Proof.Machine

def exec (i : Instr) (s : State) : Host.Outcome State Fault Refusal :=
  match i with
  | .nop => Sys2Proof.Machine.execNop s
  | .packet len payload => Sys2Proof.Machine.execPacket len payload s
  | .flush => Sys2Proof.Machine.execFlush s
  | .sessionReset => Sys2Proof.Machine.execSessionReset s
  | .setSkip skip => Sys2Proof.Machine.execSetSkip skip s
  | .loadDefault => Sys2Proof.Machine.execLoadDefault s
  | .calWrite laser field value => Sys2Proof.Machine.execCalWrite laser field value s
  | .calRead laser field => Sys2Proof.Machine.execCalRead laser field s
  | .regRead reg => Sys2Proof.Machine.execRegRead reg s
  | .statusClear mask => Sys2Proof.Machine.execStatusClear mask s

end Sys2Proof.Machine
end

