-- ==== Sys2Proof/Machine/HostPort.lean ====
section
/-! DEFINITION. What the host does to the block other than by a command: it removes events (R31) and asserts reset (R280). And the
hold on a full event channel (R31, R266). -/

namespace Sys2Proof.Machine

/-- The events the host can see: the part of the emitted events that the channel has accepted (R31; log 7). -/
def visibleEvents (s : State) : List Event :=
  match s.cfg.eventCapacity with
  | none => s.events
  | some n => s.events.take n

/-- The block holds: the channel is full, so it can accept no event and the block takes no command (R30, R31, D25; log 7). -/
def holds (s : State) : Bool :=
  match s.cfg.eventCapacity with
  | none => false
  | some n => decide (n ≤ s.events.length)

/-- The action that takes place next, and the actions that are left. DESIGN CHOICE (logs 7 and 8): a command that waits on a hold does not
keep the host from removing an event or asserting reset, so such an action, listed behind waiting commands, takes place before them; the
commands stay, in their order. The spec names no handshake (D1); R266 says only that a hold ends when the host removes an event. -/
def nextAction (held : Bool) : List HostAction → Option (HostAction × List HostAction)
  | [] => none
  | .takeEvent :: rest => some (.takeEvent, rest)
  | .reset :: rest => some (.reset, rest)
  | .command c :: rest =>
    if held then (nextAction held rest).map (fun r => (r.1, .command c :: r.2)) else some (.command c, rest)

/-- The host removes the event at the head of the channel; on an empty channel nothing happens (R31). -/
def takeEvent (s : State) : State :=
  match visibleEvents s with
  | [] => s
  | _ :: _ => { s with events := s.events.tail }

/-- The state once the host has removed just as many events as the channel needs to accept one more (R31, R266). -/
def drainToFit (s : State) : State :=
  match s.cfg.eventCapacity with
  | none => s
  | some n => { s with events := s.events.drop (s.events.length + 1 - n) }

/-- Reset is asserted (R280): every piece of state takes its reset value. The host's coming actions are the host's, so a command that
waits on a hold is still offered after it (log 9). -/
def assertReset (s : State) : State := { State.resetWith s.cfg with input := s.input }

end Sys2Proof.Machine
end

