-- ==== Sys2Proof/Machine/Step.lean ====
section
/-! DEFINITION. One step: the host's next action (R30, R31, R280, R281). -/

namespace Sys2Proof.Machine

/-- The block takes a command: a well-formed one runs, any other raises ILLEGAL_CMD and has no other effect (R81, R253). -/
def runCommand (c : Command) (s : State) : Host.Outcome State Fault Refusal :=
  match decode c with
  | .ok i => exec i s
  | .error reason => .next (raiseIllegal reason c s)

/-- One step. With nothing to do the block is idle, its state intact (R266, R281). While it holds, it takes no command, and only the
host removing an event or asserting reset changes anything (R31, R266); that the host can still do either while a command waits is
the model's choice (logs 7 and 8). -/
def step (s : State) : Host.Outcome State Fault Refusal :=
  match nextAction (holds s) s.input with
  | none => .next s
  | some (.takeEvent, rest) => .next (takeEvent { s with input := rest })
  | some (.reset, rest) => .next (assertReset { s with input := rest })
  | some (.command c, rest) => runCommand c { s with input := rest }

/-- The state in which the host's next action is the command whose word is `w`, its payload zero bytes, and the block does not
hold (log 10). -/
def State.withFetchWord (s : State) (nbits w : Nat) : State :=
  { drainToFit s with input := [.command (tableCommand nbits w)] }

end Sys2Proof.Machine
end

