-- ==== Sys2Proof/Safety.lean ====
section
/-! DEFINITION. What counts as a safe run (R258), and the terms the statements use: the events a run appends, the frames they make up
(R210), and a reading of R140 to R148, R170 to R178 and R201 to R203 that computes a packet's events from its bytes alone, without
the machine. -/

namespace Sys2Proof.Machine

/-! ### Safe runs -/

/-- No recorded fault (R258): the errors AZ_RANGE, UNKNOWN_LASER and ILLEGAL_CMD are recorded in sticky bits, so a run without
STATUS_CLEAR and reset that ends with these bits 0 met none. BLKID_OTHER is a notice. -/
def noRecordedFault (s : State) : Bool :=
  !statusHas .azRange s && !statusHas .unknownLaser s && !statusHas .illegalCmd s

/-! ### Events and frames -/

def Event.isError : Event → Bool
  | .error _ _ _ _ _ => true
  | .point _ | .frameEnd _ _ _ _ | .packet _ _ _ _ | .calData _ _ _ | .regData _ _ => false

/-- The Point of an EV_POINT. -/
def Event.point? : Event → Option Point
  | .point p => some p
  | .frameEnd _ _ _ _ | .packet _ _ _ _ | .calData _ _ _ | .regData _ _ | .error _ _ _ _ _ => none

/-- The points among a list of events, in order (R210). -/
def pointsOf (es : List Event) : List Point := es.filterMap Event.point?

/-- What an event says about frames, its counts left out: a point, or a boundary. -/
inductive FrameItem where
  | point (p : Point)
  | boundary (cause : FrameCause) (block : BitVec 4)
  deriving DecidableEq, Repr

def Event.frameItem? : Event → Option FrameItem
  | .point p => some (.point p)
  | .frameEnd cause block _ _ => some (.boundary cause block)
  | .packet _ _ _ _ | .calData _ _ _ | .regData _ _ | .error _ _ _ _ _ => none

/-- The points and frame boundaries among a list of events, in order (R210). -/
def frameTrace (es : List Event) : List FrameItem := es.filterMap Event.frameItem?

/-- What an event does to (CUR_FRAME_POINTS, FRAME_COUNT): a point is counted, a boundary starts a new frame (R26, R27). -/
def account (c : U32 × U32) : Event → U32 × U32
  | .point _ => (c.1 + 1, c.2)
  | .frameEnd _ _ _ _ => (0, c.2 + 1)
  | .packet _ _ _ _ | .calData _ _ _ | .regData _ _ | .error _ _ _ _ _ => c

/-- Every frame end among the events carries the point count and the index of the frame it closes, counted from `c` (R92). -/
def framesCountedFrom (c : U32 × U32) : List Event → Bool
  | [] => true
  | e :: es =>
    (match e with
      | .frameEnd _ _ points frame => decide (points = c.1 ∧ frame = c.2)
      | .point _ | .packet _ _ _ _ | .calData _ _ _ | .regData _ _ | .error _ _ _ _ _ => true)
      && framesCountedFrom (account c e) es

/-- The points of each frame that the events close, in order, the open frame starting with the points `open'` (R210). -/
def closedFrames (open' : List Point) : List Event → List (List Point)
  | [] => []
  | .point p :: es => closedFrames (open' ++ [p]) es
  | .frameEnd _ _ _ _ :: es => open' :: closedFrames [] es
  | .packet _ _ _ _ :: es => closedFrames open' es
  | .calData _ _ _ :: es => closedFrames open' es
  | .regData _ _ :: es => closedFrames open' es
  | .error _ _ _ _ _ :: es => closedFrames open' es

/-- `points` and `frame` of each EV_FRAME_END among the events, in order (R92). -/
def frameEndsOf : List Event → List (U32 × U32)
  | [] => []
  | .frameEnd _ _ points frame :: es => (points, frame) :: frameEndsOf es
  | .point _ :: es => frameEndsOf es
  | .packet _ _ _ _ :: es => frameEndsOf es
  | .calData _ _ _ :: es => frameEndsOf es
  | .regData _ _ :: es => frameEndsOf es
  | .error _ _ _ _ _ :: es => frameEndsOf es

/-! ### A packet read from its bytes (R54) -/

def byteAt (p : List Byte) (a : Nat) : Byte := p.getD a 0

/-- A u16 of the packet: byte a + 1 is the more significant (R51). -/
def u16At (p : List Byte) (a : Nat) : U16 := byteAt p (a + 1) ++ byteAt p a

/-- A u32 of the packet (R51). -/
def u32At (p : List Byte) (a : Nat) : U32 := byteAt p (a + 3) ++ byteAt p (a + 2) ++ byteAt p (a + 1) ++ byteAt p a

/-- The laser id of return j of block k (R71, R72, R143). -/
def laserIdAt (cfg : Config) (p : List Byte) (k j : Nat) : BitVec 6 :=
  BitVec.ofNat 6 ((if u16At p (100 * k) = cfg.blkidLo then 0 else 32) + j)

/-- The bit pattern is +0.0 or -0.0. -/
def isSignedZero (a : F64) : Bool := a == 0x0000000000000000 || a == 0x8000000000000000

/-- The return is read off the end of the angle table: azCorr is +0 or -0, and the azimuth is above 36000 (R172, R173). -/
def offTable (azCorr : F64) (az : U16) : Bool := isSignedZero azCorr && decide (36000 < az.toNat)

/-- Sine and cosine of a return's azimuth, on the fast or the slow path (R172, R173, R174). -/
def azimuthPair (cfg : Config) (azCorr : F64) (az : U16) : F64 × F64 :=
  if isSignedZero azCorr then (lutSin cfg az, lutCos cfg az)
  else
    (trigSin cfg (toRadians (fsub (fdiv (i2f az) hundred64) azCorr)),
      trigCos cfg (toRadians (fsub (fdiv (i2f az) hundred64) azCorr)))

/-- The Point of a return by the formulas of R175 to R178. -/
def pointBy (e : CalEntry) (sinAz cosAz : F64) (laserId : BitVec 6) (az dist : U16) (inty : Byte) (ts : U32) : Point :=
  let distM := fadd (fmul (i2f dist) 0x3F60624DD2F1A9FC) e.distCorr
  let horiz := fsub (fmul distM e.cosVert) e.sinVOff
  { x := fsub (fmul horiz sinAz) (fmul e.hOffCorr cosAz)
    y := fadd (fmul horiz cosAz) (fmul e.hOffCorr sinAz)
    z := fadd (fmul distM e.sinVert) e.cosVOff
    distance := distM, intensity := inty, laserId := laserId, azimuth := az, timestamp := ts }

/-- The events of one return: none for distance 0, AZ_RANGE off the table, one Point otherwise (R171, R173, R178). -/
def eventsOfReturn (cfg : Config) (cal : Vector CalEntry 64) (word : U32) (id : BitVec 6) (az dist : U16) (inty : Byte) (ts : U32)
    (k : Nat) : List Event :=
  let e := cal[id.toNat]'id.isLt
  if dist = 0 then []
  else if offTable e.azCorr az then [.error .azRange word (id.zeroExtend 16) (BitVec.ofNat 16 k) az]
  else [.point (pointBy e (azimuthPair cfg e.azCorr az).1 (azimuthPair cfg e.azCorr az).2 id az dist inty ts)]

/-- The events of return j of block k, from the packet's bytes (R54, R72, R145). -/
def returnEvents (cfg : Config) (cal : Vector CalEntry 64) (word : U32) (p : List Byte) (k j : Nat) : List Event :=
  eventsOfReturn cfg cal word (laserIdAt cfg p k j) (u16At p (100 * k + 2)) (u16At p (100 * k + 4 + 3 * j))
    (byteAt p (100 * k + 6 + 3 * j)) (u32At p 1200) k

/-- The events of the given blocks in order, from LAST_AZ, CUR_FRAME_POINTS and FRAME_COUNT on (R145, R202, R203). -/
def blocksEvents (cfg : Config) (cal : Vector CalEntry 64) (word : U32) (p : List Byte) :
    List Nat → U16 → U32 × U32 → List Event
  | [], _, _ => []
  | k :: ks, last, c =>
    let pos := u16At p (100 * k + 2)
    let evs := (if pos < last then [.frameEnd .split (BitVec.ofNat 4 k) c.1 c.2] else [])
      ++ (List.range 32).flatMap (returnEvents cfg cal word p k)
    evs ++ blocksEvents cfg cal word p ks pos (evs.foldl account c)

/-- The block indices a data packet processes: `start .. 11` (R142). -/
def blocksProcessed (start : BitVec 4) : List Nat := (List.range 12).filter (fun k => start.toNat ≤ k)

/-! ### A command read as a number (R80, R81) -/

/-- word[31:28]. -/
def opNumber (c : Command) : Nat := c.word.toNat / 2 ^ 28

/-- word[3:0]. -/
def selNumber (c : Command) : Nat := c.word.toNat % 2 ^ 4

/-- word[23:16]. -/
def laserNumber (c : Command) : Nat := c.word.toNat / 2 ^ 16 % 2 ^ 8

/-- A bit that R80's table shows as 0 is set. -/
def hasReservedBit (c : Command) : Bool :=
  let w := c.word.toNat
  match opNumber c with
  | 1 => w / 2 ^ 16 % 2 ^ 12 != 0
  | 4 | 8 | 9 => w / 2 ^ 4 % 2 ^ 24 != 0
  | 6 | 7 => w / 2 ^ 24 % 2 ^ 4 != 0 || w / 2 ^ 4 % 2 ^ 12 != 0
  | _ => w % 2 ^ 28 != 0

/-- The payload length R80's table requires. -/
def requiredLength (c : Command) : Nat :=
  match opNumber c with
  | 1 => c.word.toNat % 2 ^ 16
  | 6 => 8
  | _ => 0

/-- The sub-reason of the first check of R81 that the command fails, 0 if it is well-formed. -/
def firstFailure (c : Command) : Nat :=
  if 10 ≤ opNumber c then 1
  else if hasReservedBit c then 2
  else if c.payload.length ≠ requiredLength c then 3
  else if ((opNumber c = 6 ∨ opNumber c = 7) ∧ 9 ≤ selNumber c) ∨ (opNumber c = 8 ∧ 7 ≤ selNumber c) then 4
  else if opNumber c = 6 ∧ 5 ≤ selNumber c then 5
  else 0

/-- The state after a rejected command: STATUS.ILLEGAL_CMD set, one EV_ERROR, nothing else (R81, R95, R253). -/
def rejected (n : Nat) (c : Command) (s : State) : State :=
  { s with
    status := (s.status ||| 0x8) &&& 0xF
    events := s.events ++ [.error .illegalCmd c.word (BitVec.ofNat 16 n) (BitVec.ofNat 16 c.payload.length) 0] }

/-- Every command of opcode `n` other than the given ones is rejected, whatever the state. -/
def rejectsAllBut (n : Nat) (good : Command → Prop) : Prop :=
  ∀ c s, opNumber c = n → ¬ good c → firstFailure c ≠ 0 ∧ runCommand c s = .next (rejected (firstFailure c) c s)

end Sys2Proof.Machine
end

