-- ==== Sys2Proof/Certificates/Slice0/Obligations.lean ====
section
/-! DEFINITION. The statements for the provers. Each docstring names the rule it formalises; the terms stand in Safety.lean. -/

open Sys2Proof Sys2Proof.Machine

/-! ### Encoding -/

/-- Decoding the encoding of a well-formed instruction gives it back, with every operand (R80, R83 to R85, R87). -/
def Obligations.DecodeInvertsEncode : Prop :=
  ∀ i : Instr, i.wellFormed = true → decode (encode i) = .ok i

/-- Encoding what a command decodes to gives the command back, word and payload: no bit of a command is ignored (R80, R85). The model
also takes the word of an EV_ERROR from the encoder (log 11), so this says that word is the command's. -/
def Obligations.EncodeInvertsDecode : Prop :=
  ∀ (c : Command) (i : Instr), decode c = .ok i → encode i = c ∧ i.wellFormed = true

/-- The word of each command in the syntax table decodes to it, for every operand (R83, R84, R85, R87). -/
def Obligations.SyntaxTableWordsDecode : Prop :=
  decode ⟨0x00000000, []⟩ = .ok .nop ∧
  (∀ (len : U16) (p : List Byte), p.length = len.toNat → decode ⟨0x10000000 ||| len.zeroExtend 32, p⟩ = .ok (.packet len p)) ∧
  decode ⟨0x20000000, []⟩ = .ok .flush ∧
  decode ⟨0x30000000, []⟩ = .ok .sessionReset ∧
  (∀ k : BitVec 4, decode ⟨0x40000000 ||| k.zeroExtend 32, []⟩ = .ok (.setSkip k)) ∧
  decode ⟨0x50000000, []⟩ = .ok .loadDefault ∧
  (∀ (laser : Byte) (b0 b1 b2 b3 b4 b5 b6 b7 : Byte) (n : BitVec 4) (f : BaseField),
    (n, f) ∈ [((0 : BitVec 4), BaseField.azCorr), (1, .vertCorr), (2, .distCorr), (3, .vOffCorr), (4, .hOffCorr)] →
    decode ⟨0x60000000 ||| (laser.zeroExtend 32 <<< 16) ||| n.zeroExtend 32, [b0, b1, b2, b3, b4, b5, b6, b7]⟩ =
      .ok (.calWrite laser f (b7 ++ b6 ++ b5 ++ b4 ++ b3 ++ b2 ++ b1 ++ b0))) ∧
  (∀ (laser : Byte) (n : BitVec 4) (f : CalField),
    (n, f) ∈ [((0 : BitVec 4), CalField.base .azCorr), (1, .base .vertCorr), (2, .base .distCorr), (3, .base .vOffCorr),
      (4, .base .hOffCorr), (5, .derived .sinVert), (6, .derived .cosVert), (7, .derived .sinVOff), (8, .derived .cosVOff)] →
    decode ⟨0x70000000 ||| (laser.zeroExtend 32 <<< 16) ||| n.zeroExtend 32, []⟩ = .ok (.calRead laser f)) ∧
  (∀ (n : BitVec 4) (r : Reg),
    (n, r) ∈ [((0 : BitVec 4), Reg.status), (1, .lastAz), (2, .pendingSkip), (3, .frameCount), (4, .curFramePoints),
      (5, .dataPktCount), (6, .nondataPktCount)] →
    decode ⟨0x80000000 ||| n.zeroExtend 32, []⟩ = .ok (.regRead r)) ∧
  (∀ m : BitVec 4, decode ⟨0x90000000 ||| m.zeroExtend 32, []⟩ = .ok (.statusClear m))

/-- A few words written out from R80 decode to the command they stand for (sanity). -/
def Obligations.SampleWordsDecode : Prop :=
  decode ⟨0x10000003, [1, 2, 3]⟩ = .ok (.packet 3 [1, 2, 3]) ∧
  decode ⟨0x4000000C, []⟩ = .ok (.setSkip 12) ∧
  decode ⟨0x60280003, [0x9a, 0x99, 0x99, 0x99, 0x99, 0x99, 0xc9, 0x3f]⟩ = .ok (.calWrite 40 .vOffCorr 0x3FC999999999999A) ∧
  decode ⟨0x701F0007, []⟩ = .ok (.calRead 31 (.derived .sinVOff)) ∧
  decode ⟨0x80000002, []⟩ = .ok (.regRead .pendingSkip) ∧
  decode ⟨0x90000006, []⟩ = .ok (.statusClear 6)

/-- The checks of R81 come in order, the first that fails raises ILLEGAL_CMD with its sub-reason and the command has no other effect
(R253); a reserved opcode fails the first whatever its other bits and payload (R233); a command that fails none runs. -/
def Obligations.MalformedCommandsAreRejectedInOrder : Prop :=
  ∀ (c : Command) (s : State),
    (firstFailure c ≠ 0 → runCommand c s = .next (rejected (firstFailure c) c s)) ∧
    (firstFailure c = 0 → ∃ i, decode c = .ok i ∧ i.wellFormed = true ∧ runCommand c s = exec i s)

/-! ### The step -/

/-- A step runs the command the host issues: the instruction it decodes to, or the rejection of R81, from the state in which the
command has been taken off the channel (R30). That the host's actions stand in a list of State is the model's choice (log 8). -/
def Obligations.StepRunsTheDecodedCommand : Prop :=
  ∀ (s : State) (c : Command) (rest : List HostAction), s.input = .command c :: rest → holds s = false →
    (∀ i, decode c = .ok i → step s = exec i { s with input := rest }) ∧
    (∀ reason, decode c = .error reason → step s = .next (raiseIllegal reason c { s with input := rest }))

/-- With nothing to do the block is idle (R266, R281). With a full channel it holds: it takes no command (R31), until the host removes an
event (R266). The host removes the event at the head (R31) or asserts reset (R280), also while commands wait on the hold. The list of
the host's actions (log 8), the capacity and what the host can do during a hold (log 7) and what reset keeps (log 9) are the model's choices. -/
def Obligations.IdleHoldAndHostActions : Prop :=
  (∀ s : State, holds s = true ↔ ∃ n, s.cfg.eventCapacity = some n ∧ n ≤ s.events.length) ∧
  (∀ s : State, s.input = [] → step s = .next s) ∧
  (∀ (s : State) (n : Nat), s.cfg.eventCapacity = some n → n ≤ s.events.length → (∀ a ∈ s.input, ∃ c, a = .command c) →
    step s = .next s) ∧
  (∀ (s : State) (waiting rest : List HostAction), s.input = waiting ++ .takeEvent :: rest →
    (waiting = [] ∨ holds s = true ∧ ∀ a ∈ waiting, ∃ c, a = .command c) →
    (∀ e es, s.events = e :: es → s.cfg.eventCapacity ≠ some 0 →
      step s = .next { s with events := es, input := waiting ++ rest }) ∧
    (s.events = [] ∨ s.cfg.eventCapacity = some 0 → step s = .next { s with input := waiting ++ rest })) ∧
  (∀ (s : State) (waiting rest : List HostAction), s.input = waiting ++ .reset :: rest →
    (waiting = [] ∨ holds s = true ∧ ∀ a ∈ waiting, ∃ c, a = .command c) →
    step s = .next { State.resetWith s.cfg with input := waiting ++ rest }) ∧
  (∀ (s : State) (n : Nat) (c : Command) (e : Event) (es : List Event) (rest : List HostAction),
    s.cfg.eventCapacity = some n → s.events = e :: es → s.events.length = n → s.input = .command c :: .takeEvent :: rest →
    ∃ t, step s = .next t ∧ holds t = false ∧ step t = runCommand c { s with events := es, input := rest })

/-- The block never traps, halts or refuses: every command answers a next state, and so does every step (R256, R257). -/
def Obligations.EveryStepAnswersANextState : Prop :=
  (∀ (i : Instr) (s : State), ∃ t, exec i s = .next t) ∧ ∀ s : State, ∃ t, step s = .next t

/-- Reset leaves the values of R280, the calibration that of LOAD_DEFAULT, and SESSION_RESET is a no-op then (R281). The configuration
(log 1) and the empty list of host actions (log 8) are the model's fields. -/
def Obligations.ResetLeavesTheDefaultState : Prop :=
  ∀ cfg : Config,
    let s := State.resetWith cfg
    s.status = 0 ∧ s.lastAz = 0 ∧ s.pendingSkip = 0 ∧ s.frameCount = 0 ∧ s.curFramePoints = 0 ∧ s.dataPktCount = 0 ∧
      s.nondataPktCount = 0 ∧ s.events = [] ∧ s.input = [] ∧ s.cfg = cfg ∧ exec .loadDefault s = .next s ∧
      exec .sessionReset s = .next s ∧ State.reset = State.resetWith defaultConfig

/-! ### Invariants and whole-machine rules -/

/-- The derived fields of every entry are `Derive` of its base fields (R115). -/
def Sys2Proof.Machine.derivedConsistent (s : State) : Prop :=
  ∀ (k : Nat) (hk : k < 64), s.cal[k] = deriveEntry s.cfg s.cal[k]

/-- R115 at reset, under every configuration. -/
def Obligations.DerivedFieldsConsistentAtReset : Prop :=
  ∀ cfg : Config, derivedConsistent (State.resetWith cfg)

/-- R115: every step keeps the derived fields consistent with the base fields. -/
def Obligations.StepKeepsDerivedFieldsConsistent : Prop :=
  ∀ s t : State, derivedConsistent s → step s = .next t → derivedConsistent t

/-- R23: bits 31:4 of STATUS are hardwired to 0: they stay 0, and REG_READ gives 0 there in every state. -/
def Obligations.StatusReservedBitsStayZero : Prop :=
  State.reset.status &&& 0xFFFFFFF0 = 0 ∧
  (∀ s t : State, s.status &&& 0xFFFFFFF0 = 0 → step s = .next t → t.status &&& 0xFFFFFFF0 = 0) ∧
  (∀ s t : State, exec (.regRead .status) s = .next t →
    ∃ v, t.events = s.events ++ [.regData 0 v] ∧ v &&& 0xFFFFFFF0 = 0)

/-- R23: a defined STATUS bit stays 1 until STATUS_CLEAR writes 1 to it or the block is reset. The list of host actions (log 8), and that
a reset can come while commands wait on a hold (log 7), are the model's choices. -/
def Obligations.StatusBitsAreSticky : Prop :=
  ∀ (s t : State) (b : StatusBit), step s = .next t → statusHas b s = true →
    statusHas b t = true ∨
      (∃ waiting rest, s.input = waiting ++ .reset :: rest ∧ (waiting = [] ∨ holds s = true ∧ ∀ a ∈ waiting, ∃ c, a = .command c)) ∨
      ∃ c rest m, s.input = .command c :: rest ∧ decode c = .ok (.statusClear m) ∧ m.getLsbD b.index = true

/-- R33, R36: no step writes the configuration, so the angle tables, which are functions of it, are constant and valid from reset. That
the configuration is a field of State is the model's choice (log 1). -/
def Obligations.ConfigurationNeverChanges : Prop :=
  ∀ s t : State, step s = .next t → t.cfg = s.cfg ∧ lutSin t.cfg = lutSin s.cfg ∧ lutCos t.cfg = lutCos s.cfg

/-- R30, R31: a step takes one host action, and drops none; commands are taken in their order, and an action overtakes only commands that
wait on a hold; a step that changes nothing has no action to take. A command only appends events. The list of host actions (log 8) and the
overtaking (log 7) are the model's choices. -/
def Obligations.StepsTakeActionsInOrderAndOnlyAppendEvents : Prop :=
  (∀ s t : State, step s = .next t →
    (t = s ∧ (s.input = [] ∨ holds s = true ∧ ∀ a ∈ s.input, ∃ c, a = .command c)) ∨
    ∃ waiting a rest, s.input = waiting ++ a :: rest ∧ t.input = waiting ++ rest ∧
      (waiting = [] ∨ holds s = true ∧ (∀ x ∈ waiting, ∃ c, x = .command c)) ∧ (holds s = true → ∀ c, a ≠ .command c)) ∧
  (∀ (c : Command) (s t : State), runCommand c s = .next t → t.input = s.input ∧ ∃ es, t.events = s.events ++ es)

/-- R28: the packet counters count the well-formed PACKET commands of each class, and nothing but reset clears them. -/
def Obligations.CountersCountPackets : Prop :=
  (∀ cfg : Config, (State.resetWith cfg).dataPktCount = 0 ∧ (State.resetWith cfg).nondataPktCount = 0) ∧
  ∀ (c : Command) (s t : State), runCommand c s = .next t →
    (t.dataPktCount = s.dataPktCount + if opNumber c = 1 ∧ firstFailure c = 0 ∧ requiredLength c = 1206 then 1 else 0) ∧
    (t.nondataPktCount = s.nondataPktCount + if opNumber c = 1 ∧ firstFailure c = 0 ∧ requiredLength c ≠ 1206 then 1 else 0)

/-- Which commands may change a session register (R24 to R27, R203): no other command does. -/
def Obligations.SessionRegistersFrame : Prop :=
  ∀ (i : Instr) (s t : State), exec i s = .next t →
    (t.lastAz = s.lastAz ∨ i = .sessionReset ∨ ∃ p, i = .packet 1206 p ∧ p.length = 1206 ∧ s.pendingSkip.toNat ≤ 11) ∧
    (t.pendingSkip = s.pendingSkip ∨ i = .sessionReset ∨ (∃ k, i = .setSkip k) ∨ ∃ p, i = .packet 1206 p ∧ p.length = 1206) ∧
    ((t.frameCount = s.frameCount ∧ t.curFramePoints = s.curFramePoints) ∨ i = .sessionReset ∨ i = .flush ∨
      ∃ p, i = .packet 1206 p ∧ p.length = 1206 ∧ s.pendingSkip.toNat ≤ 11)

/-- R115, R118: only LOAD_DEFAULT and CAL_WRITE write the calibration RAM, and CAL_WRITE writes one entry of it. -/
def Obligations.CalibrationFrame : Prop :=
  ∀ (i : Instr) (s t : State), exec i s = .next t →
    t.cal = s.cal ∨ i = .loadDefault ∨
      ∃ laser f v, i = .calWrite laser f v ∧ laser.toNat < 64 ∧ ∀ (k : Nat) (hk : k < 64), k ≠ laser.toNat → t.cal[k] = s.cal[k]

/-- R92, R210: the frame counters follow the events a command appends, and every EV_FRAME_END carries the point count and the index of
the frame it closes; SESSION_RESET alone starts the count again. -/
def Obligations.FrameCountersFollowEvents : Prop :=
  ∀ (c : Command) (s t : State), runCommand c s = .next t →
    ∃ es, t.events = s.events ++ es ∧ framesCountedFrom (s.curFramePoints, s.frameCount) es = true ∧
      (decode c ≠ .ok .sessionReset →
        (t.curFramePoints, t.frameCount) = es.foldl account (s.curFramePoints, s.frameCount)) ∧
      (decode c = .ok .sessionReset → es = [] ∧ t.curFramePoints = 0 ∧ t.frameCount = 0)

/-- R210: in a session, which starts with both frame counters 0 (reset, SESSION_RESET), the (n+1)-th EV_FRAME_END of a run of commands
has `frame` = n and `points` = the number of points of the n-th frame, each to 32 bits. The list of host actions is the
model's choice (log 8). -/
def Obligations.SessionFramesAreNumberedAndCounted : Prop :=
  ∀ (n : Nat) (s t : State), (∀ a ∈ s.input, ∃ c, a = .command c ∧ decode c ≠ .ok .sessionReset) →
    s.curFramePoints = 0 → s.frameCount = 0 → Sys2Proof.core.run n s = .next t →
    ∃ es, t.events = s.events ++ es ∧
      frameEndsOf es = (closedFrames [] es).mapIdx (fun i f => (BitVec.ofNat 32 f.length, BitVec.ofNat 32 i))

/-- R251, R95: an error event comes with its STATUS bit and carries the command's word, and an error bit is newly set only with an
error event. -/
def Obligations.ErrorEventsAndStatusBitsAgree : Prop :=
  ∀ (c : Command) (s t : State), runCommand c s = .next t →
    ∃ es, t.events = s.events ++ es ∧
      (∀ kind w a1 a2 a3, Event.error kind w a1 a2 a3 ∈ es → statusHas kind.bit t = true ∧ w = c.word) ∧
      (∀ kind : ErrorKind, statusHas kind.bit t = true → statusHas kind.bit s = false →
        ∃ w a1 a2 a3, Event.error kind w a1 a2 a3 ∈ es)

/-- R120: only a CAL_WRITE or a CAL_READ with LASER above 63 raises UNKNOWN_LASER; the decode path does not. -/
def Obligations.OnlyCalCommandsRaiseUnknownLaser : Prop :=
  ∀ (c : Command) (s t : State) (es : List Event) (w : U32) (a1 a2 a3 : U16), runCommand c s = .next t →
    t.events = s.events ++ es → Event.error .unknownLaser w a1 a2 a3 ∈ es →
    (opNumber c = 6 ∨ opNumber c = 7) ∧ 64 ≤ laserNumber c ∧ a1.toNat = laserNumber c ∧ a2 = 0 ∧ a3 = 0

/-- R258: a run of commands without STATUS_CLEAR that ends with the three error bits 0 started with them 0 and reported no error. The list
of host actions is the model's choice (log 8). -/
def Obligations.SafeRunReportsNoError : Prop :=
  ∀ (n : Nat) (s t : State), (∀ a ∈ s.input, ∃ c, a = .command c ∧ opNumber c ≠ 9) → Sys2Proof.core.run n s = .next t →
    noRecordedFault t = true →
    noRecordedFault s = true ∧ ∃ es, t.events = s.events ++ es ∧ ∀ e ∈ es, e.isError = false

/-! ### The commands -/

/-- R230. -/
def Obligations.NopChangesNothing : Prop :=
  (∀ s : State, exec .nop s = .next s) ∧ decode ⟨0x00000000, []⟩ = .ok .nop ∧ rejectsAllBut 0 (· = ⟨0x00000000, []⟩)

/-- R231: each register, STATUS with bits 31:4 read as 0 (R23); only the event channel changes. -/
def Obligations.RegReadReturnsTheRegister : Prop :=
  (∀ s : State,
    exec (.regRead .status) s = .next { s with events := s.events ++ [.regData 0 (s.status &&& 0xF)] } ∧
    exec (.regRead .lastAz) s = .next { s with events := s.events ++ [.regData 1 (s.lastAz.zeroExtend 32)] } ∧
    exec (.regRead .pendingSkip) s = .next { s with events := s.events ++ [.regData 2 (s.pendingSkip.zeroExtend 32)] } ∧
    exec (.regRead .frameCount) s = .next { s with events := s.events ++ [.regData 3 s.frameCount] } ∧
    exec (.regRead .curFramePoints) s = .next { s with events := s.events ++ [.regData 4 s.curFramePoints] } ∧
    exec (.regRead .dataPktCount) s = .next { s with events := s.events ++ [.regData 5 s.dataPktCount] } ∧
    exec (.regRead .nondataPktCount) s = .next { s with events := s.events ++ [.regData 6 s.nondataPktCount] }) ∧
  decode ⟨0x80000000, []⟩ = .ok (.regRead .status) ∧ decode ⟨0x80000001, []⟩ = .ok (.regRead .lastAz) ∧
  decode ⟨0x80000002, []⟩ = .ok (.regRead .pendingSkip) ∧ decode ⟨0x80000003, []⟩ = .ok (.regRead .frameCount) ∧
  decode ⟨0x80000004, []⟩ = .ok (.regRead .curFramePoints) ∧ decode ⟨0x80000005, []⟩ = .ok (.regRead .dataPktCount) ∧
  decode ⟨0x80000006, []⟩ = .ok (.regRead .nondataPktCount) ∧
  rejectsAllBut 8 (fun c => c.payload = [] ∧ c.word.toNat ≤ 0x80000006)

/-- R232: the bits of STATUS whose MASK bit is 1 become 0, the other defined bits stay, bits 31:4 are 0, and nothing else changes; a
malformed STATUS_CLEAR sets ILLEGAL_CMD even if MASK bit 3 is 1. -/
def Obligations.StatusClearClearsTheMask : Prop :=
  (∀ (m : BitVec 4) (s : State), ∃ v, exec (.statusClear m) s = .next { s with status := v } ∧
    ∀ i, v.getLsbD i = (s.status.getLsbD i && decide (i < 4) && !m.getLsbD i)) ∧
  (∀ m : BitVec 4, decode ⟨0x90000000 ||| m.zeroExtend 32, []⟩ = .ok (.statusClear m)) ∧
  rejectsAllBut 9 (fun c => ∃ m : BitVec 4, c = ⟨0x90000000 ||| m.zeroExtend 32, []⟩)

/-- R207: FLUSH closes the open frame, an empty one like any other; LAST_AZ, PENDING_SKIP and STATUS are unchanged; a second FLUSH
closes a frame of no points. -/
def Obligations.FlushClosesTheFrame : Prop :=
  (∀ s : State, exec .flush s = .next
    { s with
      events := s.events ++ [.frameEnd .flush 0 s.curFramePoints s.frameCount]
      curFramePoints := 0
      frameCount := s.frameCount + 1 }) ∧
  (∀ s t u : State, exec .flush s = .next t → exec .flush t = .next u →
    u.events = s.events ++ [.frameEnd .flush 0 s.curFramePoints s.frameCount, .frameEnd .flush 0 0 (s.frameCount + 1)]) ∧
  (∀ (s t : State) (k : Nat) (pos : U16), exec .flush s = .next t → pos < s.lastAz →
    (segmentBlock k pos t).events = t.events ++ [.frameEnd .split (BitVec.ofNat 4 k) 0 (s.frameCount + 1)]) ∧
  decode ⟨0x20000000, []⟩ = .ok .flush ∧ rejectsAllBut 2 (· = ⟨0x20000000, []⟩)

/-- R208: SESSION_RESET clears the four session registers and nothing else, emits nothing, and the next processed block cannot split. -/
def Obligations.SessionResetClearsTheSession : Prop :=
  (∀ s : State, exec .sessionReset s = .next
    { s with lastAz := 0, pendingSkip := 0, curFramePoints := 0, frameCount := 0 }) ∧
  (∀ (s t : State) (k : Nat) (pos : U16), exec .sessionReset s = .next t →
    (segmentBlock k pos t).events = s.events ∧ (segmentBlock k pos t).frameCount = 0) ∧
  decode ⟨0x30000000, []⟩ = .ok .sessionReset ∧ rejectsAllBut 3 (· = ⟨0x30000000, []⟩)

/-- R209: SET_SKIP writes PENDING_SKIP and nothing else; a second one overwrites the first; a non-data packet does not consume it; with
12..15 the next data packet processes no block. -/
def Obligations.SetSkipWritesPendingSkip : Prop :=
  (∀ (k : BitVec 4) (s : State), exec (.setSkip k) s = .next { s with pendingSkip := k }) ∧
  (∀ (k k' : BitVec 4) (s t : State), exec (.setSkip k) s = .next t → exec (.setSkip k') t = exec (.setSkip k') s) ∧
  (∀ (k : BitVec 4) (s t u : State) (len : U16) (p : List Byte), exec (.setSkip k) s = .next t → len ≠ 1206 →
    exec (.packet len p) t = .next u → u.pendingSkip = k) ∧
  (∀ (k : BitVec 4) (s t : State) (p : List Byte), 12 ≤ k.toNat → p.length = 1206 → exec (.setSkip k) s = .next t →
    exec (.packet 1206 p) t = .next
      { s with
        pendingSkip := 0
        dataPktCount := s.dataPktCount + 1
        events := s.events ++ [.packet .data 1206 (u32At p 1200) k] }) ∧
  (∀ k : BitVec 4, decode ⟨0x40000000 ||| k.zeroExtend 32, []⟩ = .ok (.setSkip k)) ∧
  rejectsAllBut 4 (fun c => ∃ k : BitVec 4, c = ⟨0x40000000 ||| k.zeroExtend 32, []⟩)

/-- DEFAULT_VERT[k], entries 0 and 31 fixed by the source and the others by the configuration (R116). -/
def Sys2Proof.Machine.profileVert (cfg : Config) (k : Nat) : F64 :=
  match k with
  | 0 => 0xC03EAB851EB851EC
  | 31 => 0x4025570A3D70A3D7
  | n + 1 => cfg.vertMiddle.toList.getD n 0

/-- R117: LOAD_DEFAULT writes all 64 entries and nothing else: the vertical angle, every other base field +0.0, the derived fields by
Derive; entries 32..63 are neutral; under the default configuration (log 3, log 4) an entry below 32 with a negative angle has sinVOff = -0.0. -/
def Obligations.LoadDefaultWritesTheBuiltInProfile : Prop :=
  (∀ s : State, ∃ cal : Vector CalEntry 64, exec .loadDefault s = .next { s with cal := cal } ∧
    (∀ (k : Nat) (hk : k < 64), cal[k].vertCorr = (if k < 32 then profileVert s.cfg k else 0) ∧
      cal[k].azCorr = 0 ∧ cal[k].distCorr = 0 ∧ cal[k].vOffCorr = 0 ∧ cal[k].hOffCorr = 0 ∧
      cal[k] = deriveEntry s.cfg cal[k]) ∧
    (∀ (k : Nat) (hk : k < 64), 32 ≤ k → cal[k] = ⟨0, 0, 0, 0, 0, 0, 0x3FF0000000000000, 0, 0⟩) ∧
    (s.cfg = defaultConfig → ∀ (k : Nat) (hk : k < 32), signBit cal[k].vertCorr = true →
      cal[k].sinVOff = 0x8000000000000000)) ∧
  decode ⟨0x50000000, []⟩ = .ok .loadDefault ∧ rejectsAllBut 5 (· = ⟨0x50000000, []⟩)

/-- R118: CAL_WRITE writes one base field of one entry and recomputes that entry's derived fields, and nothing else changes; LASER above
63 raises UNKNOWN_LASER and leaves Cal alone; writing azCorr, distCorr or hOffCorr recomputes the derived fields to the same values. -/
def Obligations.CalWriteWritesOneEntry : Prop :=
  (∀ (laser : Byte) (v : F64) (s : State) (h : laser.toNat < 64),
    let e := s.cal[laser.toNat]
    let put := fun e' => { s with cal := s.cal.set laser.toNat (deriveEntry s.cfg e') h }
    exec (.calWrite laser .azCorr v) s = .next (put { e with azCorr := v }) ∧
    exec (.calWrite laser .vertCorr v) s = .next (put { e with vertCorr := v }) ∧
    exec (.calWrite laser .distCorr v) s = .next (put { e with distCorr := v }) ∧
    exec (.calWrite laser .vOffCorr v) s = .next (put { e with vOffCorr := v }) ∧
    exec (.calWrite laser .hOffCorr v) s = .next (put { e with hOffCorr := v })) ∧
  (∀ (laser : Byte) (f : BaseField) (v : F64) (s : State), 64 ≤ laser.toNat →
    exec (.calWrite laser f v) s = .next
      { s with
        status := (s.status ||| 0x4) &&& 0xF
        events := s.events ++ [.error .unknownLaser (0x60000000 ||| (laser.zeroExtend 32 <<< 16) ||| f.sel.zeroExtend 32)
          (laser.zeroExtend 16) 0 0] }) ∧
  (∀ (laser : Byte) (f : BaseField) (v : F64) (s t : State) (h : laser.toNat < 64),
    f = .azCorr ∨ f = .distCorr ∨ f = .hOffCorr → s.cal[laser.toNat] = deriveEntry s.cfg s.cal[laser.toNat] →
    exec (.calWrite laser f v) s = .next t →
    t.cal[laser.toNat].sinVert = s.cal[laser.toNat].sinVert ∧ t.cal[laser.toNat].cosVert = s.cal[laser.toNat].cosVert ∧
      t.cal[laser.toNat].sinVOff = s.cal[laser.toNat].sinVOff ∧ t.cal[laser.toNat].cosVOff = s.cal[laser.toNat].cosVOff) ∧
  rejectsAllBut 6 (fun c => c.payload.length = 8 ∧ c.word.toNat / 2 ^ 24 = 0x60 ∧ c.word.toNat % 2 ^ 16 ≤ 4)

/-- R119: CAL_READ emits the stored bit pattern of any of the nine fields, unchanged, and changes nothing else; LASER above 63 raises
UNKNOWN_LASER. -/
def Obligations.CalReadReturnsTheStoredBits : Prop :=
  (∀ (laser : Byte) (s : State) (h : laser.toNat < 64),
    let e := s.cal[laser.toNat]
    let answer := fun (n : BitVec 4) (v : F64) =>
      { s with events := s.events ++ [Event.calData (BitVec.ofNat 6 laser.toNat) n v] }
    exec (.calRead laser (.base .azCorr)) s = .next (answer 0 e.azCorr) ∧
    exec (.calRead laser (.base .vertCorr)) s = .next (answer 1 e.vertCorr) ∧
    exec (.calRead laser (.base .distCorr)) s = .next (answer 2 e.distCorr) ∧
    exec (.calRead laser (.base .vOffCorr)) s = .next (answer 3 e.vOffCorr) ∧
    exec (.calRead laser (.base .hOffCorr)) s = .next (answer 4 e.hOffCorr) ∧
    exec (.calRead laser (.derived .sinVert)) s = .next (answer 5 e.sinVert) ∧
    exec (.calRead laser (.derived .cosVert)) s = .next (answer 6 e.cosVert) ∧
    exec (.calRead laser (.derived .sinVOff)) s = .next (answer 7 e.sinVOff) ∧
    exec (.calRead laser (.derived .cosVOff)) s = .next (answer 8 e.cosVOff)) ∧
  (∀ (laser : Byte) (f : CalField) (s : State), 64 ≤ laser.toNat →
    exec (.calRead laser f) s = .next
      { s with
        status := (s.status ||| 0x4) &&& 0xF
        events := s.events ++ [.error .unknownLaser (0x70000000 ||| (laser.zeroExtend 32 <<< 16) ||| f.sel.zeroExtend 32)
          (laser.zeroExtend 16) 0 0] }) ∧
  rejectsAllBut 7 (fun c => c.payload = [] ∧ c.word.toNat / 2 ^ 24 = 0x70 ∧ c.word.toNat % 2 ^ 16 ≤ 8)

/-- R88: SEEK_RESUME and CLEAR_STATUS are the commands the rule names; the five commands of CAL_SET load a whole entry, derived
fields included, and leave the other entries alone. -/
def Obligations.PseudoCommandsExpand : Prop :=
  (∀ k : BitVec 4, Pseudo.expand (.seekResume k) = [.sessionReset, .setSkip k]) ∧
  Pseudo.expand .clearStatus = [.statusClear 0xF] ∧
  ∀ (laser : Byte) (az vert dist voff hoff : F64) (s : State) (h : laser.toNat < 64),
    ∃ t1 t2 t3 t4 : State,
      Pseudo.expand (.calSet laser az vert dist voff hoff) =
        [.calWrite laser .azCorr az, .calWrite laser .vertCorr vert, .calWrite laser .distCorr dist,
          .calWrite laser .vOffCorr voff, .calWrite laser .hOffCorr hoff] ∧
      exec (.calWrite laser .azCorr az) s = .next t1 ∧ exec (.calWrite laser .vertCorr vert) t1 = .next t2 ∧
      exec (.calWrite laser .distCorr dist) t2 = .next t3 ∧ exec (.calWrite laser .vOffCorr voff) t3 = .next t4 ∧
      exec (.calWrite laser .hOffCorr hoff) t4 = .next
        { s with cal := s.cal.set laser.toNat (deriveEntry s.cfg ⟨az, vert, dist, voff, hoff, 0, 0, 0, 0⟩) h }

/-! ### Packets -/

/-- R141: a PACKET with LEN other than 1206 counts, emits EV_PACKET(NOT_DATA, LEN, 0, 0), and does nothing else, whatever its bytes. -/
def Obligations.NonDataPacketOnlyCounts : Prop :=
  ∀ (len : U16) (p : List Byte) (s : State), len ≠ 1206 → p.length = len.toNat →
    exec (.packet len p) s = .next
      { s with nondataPktCount := s.nondataPktCount + 1, events := s.events ++ [.packet .notData len 0 0] }

/-- R81 check 3, R253: a PACKET term whose payload is not LEN bytes long is an illegal command: neither counter moves. That such a term,
which no command decodes to, answers so is the model's choice (log 11). -/
def Obligations.PacketOfWrongLengthIsRejected : Prop :=
  ∀ (len : U16) (p : List Byte) (s : State), p.length ≠ len.toNat →
    exec (.packet len p) s = .next (rejected 3 ⟨0x10000000 ||| len.zeroExtend 32, p⟩ s)

/-- R142, R145, with R93, R143, R144, R170 to R178, R201 to R203 in the terms used: a data packet processes the blocks PENDING_SKIP..11
in ascending order, each block's frame end before its returns in ascending order, and EV_PACKET last; its bytes alone say which events
those are. PENDING_SKIP becomes 0, the packet is counted, LAST_AZ is the position of block 11 if a block was processed, the frame counters follow
the events, and STATUS gains BLKID_OTHER for an unknown identifier and AZ_RANGE for an error. -/
def Obligations.DataPacketFollowsItsBytes : Prop :=
  ∀ (p : List Byte) (s : State), p.length = 1206 →
    let ks := blocksProcessed s.pendingSkip
    let evs := blocksEvents s.cfg s.cal 0x100004B6 p ks s.lastAz (s.curFramePoints, s.frameCount)
    ∃ t, exec (.packet 1206 p) s = .next t ∧
      t.events = s.events ++ evs ++ [.packet .data 1206 (u32At p 1200) s.pendingSkip] ∧
      (t.curFramePoints, t.frameCount) = evs.foldl account (s.curFramePoints, s.frameCount) ∧
      t.lastAz = (if s.pendingSkip.toNat ≤ 11 then u16At p 1102 else s.lastAz) ∧
      readStatus t = readStatus s
        ||| (if ks.any (fun k => u16At p (100 * k) != s.cfg.blkidLo && u16At p (100 * k) != s.cfg.blkidHi) then 0x1 else 0)
        ||| (if evs.any Event.isError then 0x2 else 0) ∧
      t.pendingSkip = 0 ∧ t.dataPktCount = s.dataPktCount + 1 ∧ t.nondataPktCount = s.nondataPktCount ∧ t.cal = s.cal ∧
      t.cfg = s.cfg ∧ t.input = s.input

/-- R147: bytes 1204 and 1205 of a data packet affect nothing. -/
def Obligations.ReservedPacketBytesAreIgnored : Prop :=
  ∀ (p q : List Byte) (s : State), p.length = 1206 → q.length = 1206 → p.take 1204 = q.take 1204 →
    exec (.packet 1206 p) s = exec (.packet 1206 q) s

/-- R148: a data packet emits one point for each return of a processed block with nonzero distance that does not raise AZ_RANGE: at most
32 x (12 - start), at most 384. -/
def Obligations.DataPacketPointCount : Prop :=
  ∀ (p : List Byte) (s t : State) (es : List Event), p.length = 1206 → exec (.packet 1206 p) s = .next t →
    t.events = s.events ++ es →
    (pointsOf es).length =
      ((blocksProcessed s.pendingSkip).flatMap (fun k => (List.range 32).filter (fun j =>
        u16At p (100 * k + 4 + 3 * j) != 0 &&
          !offTable (s.cal[(laserIdAt s.cfg p k j).toNat]'(laserIdAt s.cfg p k j).isLt).azCorr (u16At p (100 * k + 2))))).length ∧
    (pointsOf es).length ≤ 32 * (12 - s.pendingSkip.toNat) ∧ (pointsOf es).length ≤ 384

/-- R144: BLKID_OTHER is set exactly when a processed block's identifier is neither sentinel; a packet whose unknown identifiers are
replaced by BLKID_HI emits the same events and leaves the same state, the notice aside; the two sentinels are distinct. -/
def Obligations.BlkidOtherIsOnlyANotice : Prop :=
  (∀ (p : List Byte) (s t : State), p.length = 1206 → exec (.packet 1206 p) s = .next t →
    statusHas .blkidOther t = (statusHas .blkidOther s ||
      (blocksProcessed s.pendingSkip).any (fun k =>
        u16At p (100 * k) != s.cfg.blkidLo && u16At p (100 * k) != s.cfg.blkidHi))) ∧
  (∀ (p q : List Byte) (s t u : State), p.length = 1206 → q.length = 1206 → s.cfg.blkidLo ≠ s.cfg.blkidHi →
    (∀ a, 2 ≤ a % 100 ∨ 1200 ≤ a → byteAt q a = byteAt p a) →
    (∀ k, k < 12 → u16At q (100 * k) = u16At p (100 * k) ∨
      (u16At p (100 * k) ≠ s.cfg.blkidLo ∧ u16At p (100 * k) ≠ s.cfg.blkidHi ∧ u16At q (100 * k) = s.cfg.blkidHi)) →
    exec (.packet 1206 p) s = .next t → exec (.packet 1206 q) s = .next u →
    u.events = t.events ∧ u.lastAz = t.lastAz ∧ u.pendingSkip = t.pendingSkip ∧ u.curFramePoints = t.curFramePoints ∧
      u.frameCount = t.frameCount ∧ u.dataPktCount = t.dataPktCount ∧ u.nondataPktCount = t.nondataPktCount ∧ u.cal = t.cal ∧
      u.cfg = t.cfg ∧ u.input = t.input ∧ ∀ b, b ≠ .blkidOther → statusHas b u = statusHas b t)

/-- R201 to R203: one segmenter step. Every clause of the two rules about the step itself: it splits exactly when the position is below
LAST_AZ, and LAST_AZ takes the position either way. -/
def Obligations.SegmenterStep : Prop :=
  ∀ (k : Nat) (pos : U16) (s : State),
    (pos.toNat < s.lastAz.toNat → segmentBlock k pos s =
      { s with
        events := s.events ++ [.frameEnd .split (BitVec.ofNat 4 k) s.curFramePoints s.frameCount]
        curFramePoints := 0
        frameCount := s.frameCount + 1
        lastAz := pos }) ∧
    (s.lastAz.toNat ≤ pos.toNat → segmentBlock k pos s = { s with lastAz := pos })

/-- R202, R203, R206: in a data packet a frame end SPLIT names block k exactly when k is processed and its position is below that of the
processed block before it, or below LAST_AZ if it is the first; so between two boundaries the positions do not decrease. -/
def Obligations.SplitEventsMarkPositionDrops : Prop :=
  ∀ (p : List Byte) (s t : State) (es : List Event) (k : BitVec 4), p.length = 1206 → exec (.packet 1206 p) s = .next t →
    t.events = s.events ++ es →
    ((∃ points frame, Event.frameEnd .split k points frame ∈ es) ↔
      s.pendingSkip.toNat ≤ k.toNat ∧ k.toNat ≤ 11 ∧
        u16At p (100 * k.toNat + 2) < (if k = s.pendingSkip then s.lastAz else u16At p (100 * (k.toNat - 1) + 2)))

/-- R146: the events a PACKET appends and the session registers it leaves are a function of the payload, the session registers, Cal and
the configuration: no other state enters. -/
def Obligations.PacketIsDeterminedByTheSession : Prop :=
  ∀ (len : U16) (p : List Byte) (s t s' t' : State),
    t.cfg = s.cfg → t.cal = s.cal → t.pendingSkip = s.pendingSkip → t.lastAz = s.lastAz →
    t.curFramePoints = s.curFramePoints → t.frameCount = s.frameCount →
    exec (.packet len p) s = .next s' → exec (.packet len p) t = .next t' →
    ∃ es, s'.events = s.events ++ es ∧ t'.events = t.events ++ es ∧ t'.pendingSkip = s'.pendingSkip ∧ t'.lastAz = s'.lastAz ∧
      t'.curFramePoints = s'.curFramePoints ∧ t'.frameCount = s'.frameCount

/-- R212, the packet in which the frame starts: if block i of a packet splits in an uninterrupted run, then after SESSION_RESET and
SET_SKIP i the same packet, under the same calibration, gives the same points and frame ends as the uninterrupted run gives after
that split, and leaves the same LAST_AZ, PENDING_SKIP and Cal. -/
def Obligations.RandomAccessReplaysTheFrame : Prop :=
  ∀ (p : List Byte) (s t : State) (i : BitVec 4), p.length = 1206 → t.cfg = s.cfg → t.cal = s.cal →
    s.pendingSkip.toNat ≤ i.toNat → i.toNat ≤ 11 →
    u16At p (100 * i.toNat + 2) < (if i = s.pendingSkip then s.lastAz else u16At p (100 * (i.toNat - 1) + 2)) →
    ∃ s' t1 t2 t' before after replay points frame,
      exec (.packet 1206 p) s = .next s' ∧
      s'.events = s.events ++ before ++ [.frameEnd .split i points frame] ++ after ∧
      exec .sessionReset t = .next t1 ∧ exec (.setSkip i) t1 = .next t2 ∧ exec (.packet 1206 p) t2 = .next t' ∧
      t'.events = t.events ++ replay ∧ frameTrace replay = frameTrace after ∧
      t'.lastAz = s'.lastAz ∧ t'.pendingSkip = s'.pendingSkip ∧ t'.cal = s'.cal ∧ t'.cfg = s'.cfg

/-- R212, the commands after that packet: two sessions that agree on the configuration, Cal, LAST_AZ and PENDING_SKIP give the same
points and frame ends for every command, and agree again. -/
def Obligations.SessionsInStepGiveTheSameFrames : Prop :=
  ∀ (i : Instr) (s t : State), t.cfg = s.cfg → t.cal = s.cal → t.lastAz = s.lastAz → t.pendingSkip = s.pendingSkip →
    ∃ s' t' es fs, exec i s = .next s' ∧ exec i t = .next t' ∧ s'.events = s.events ++ es ∧ t'.events = t.events ++ fs ∧
      frameTrace fs = frameTrace es ∧ t'.cfg = s'.cfg ∧ t'.cal = s'.cal ∧ t'.lastAz = s'.lastAz ∧
      t'.pendingSkip = s'.pendingSkip

/-! ### The point corrector -/

/-- R171: a return with distance 0 does nothing. -/
def Obligations.ZeroDistanceReturnDoesNothing : Prop :=
  ∀ (word : U32) (id : BitVec 6) (az : U16) (inty : Byte) (ts : U32) (k : Nat) (s : State),
    correctReturn word id az 0 inty ts k s = s

/-- R172, R174: the fast path is taken exactly when azCorr is +0.0 or -0.0, and the slow path otherwise, NaN included, at any azimuth. -/
def Obligations.FastPathExactlyForSignedZero : Prop :=
  ∀ (cfg : Config) (azCorr : F64) (az : U16),
    ((azCorr = 0x0000000000000000 ∨ azCorr = 0x8000000000000000) → az.toNat ≤ 36000 →
      azimuthTrig cfg azCorr az = some (lutSin cfg az, lutCos cfg az)) ∧
    (¬(azCorr = 0x0000000000000000 ∨ azCorr = 0x8000000000000000) →
      let rad := fdiv (fmul (fsub (fdiv (i2f az) 0x4059000000000000) azCorr) 0x400921FB54442D18) 0x4066800000000000
      azimuthTrig cfg azCorr az = some (trigSin cfg rad, trigCos cfg rad))

/-- R173: on the fast path an azimuth above 36000 gives no Point: STATUS.AZ_RANGE and one EV_ERROR, nothing else. -/
def Obligations.AzimuthOffTheTableRaisesAzRange : Prop :=
  ∀ (word : U32) (id : BitVec 6) (az dist : U16) (inty : Byte) (ts : U32) (k : Nat) (s : State),
    let azCorr := (s.cal[id.toNat]'id.isLt).azCorr
    dist ≠ 0 → (azCorr = 0x0000000000000000 ∨ azCorr = 0x8000000000000000) → 36000 < az.toNat →
    correctReturn word id az dist inty ts k s =
      { s with
        status := (s.status ||| 0x2) &&& 0xF
        events := s.events ++ [.error .azRange word (BitVec.ofNat 16 id.toNat) (BitVec.ofNat 16 k) az] }

/-- R175 to R178: every other return emits one Point by the formulas of the rules, each operation rounded in the order written, whatever
the calibration values (R179), and counts it in the open frame. -/
def Obligations.CorrectorPointFormulas : Prop :=
  ∀ (word : U32) (id : BitVec 6) (az dist : U16) (inty : Byte) (ts : U32) (k : Nat) (s : State),
    let e := s.cal[id.toNat]'id.isLt
    let sinAz := (azimuthPair s.cfg e.azCorr az).1
    let cosAz := (azimuthPair s.cfg e.azCorr az).2
    let distM := fadd (fmul (i2f dist) 0x3F60624DD2F1A9FC) e.distCorr
    let horiz := fsub (fmul distM e.cosVert) e.sinVOff
    dist ≠ 0 → ¬((e.azCorr = 0x0000000000000000 ∨ e.azCorr = 0x8000000000000000) ∧ 36000 < az.toNat) →
    correctReturn word id az dist inty ts k s =
      { s with
        events := s.events ++ [.point
          { x := fsub (fmul horiz sinAz) (fmul e.hOffCorr cosAz)
            y := fadd (fmul horiz cosAz) (fmul e.hOffCorr sinAz)
            z := fadd (fmul distM e.sinVert) e.cosVOff
            distance := distM, intensity := inty, laserId := id, azimuth := az, timestamp := ts }]
        curFramePoints := s.curFramePoints + 1 }

/-- R179, last sentence: with finite calibration values of magnitude below 1e300, and sines and cosines of magnitude at most 1, every
intermediate of Derive, of the slow path and of R175 to R177 is finite. -/
def Obligations.ModestCalibrationKeepsPointsFinite : Prop :=
  (∀ d : F64, belowHuge d → isFinite (fmul d pi64) = true ∧ isFinite (toRadians d) = true) ∧
  (∀ (azCorr : F64) (az : U16), belowHuge azCorr →
    let deg := fsub (fdiv (i2f az) hundred64) azCorr
    isFinite (fdiv (i2f az) hundred64) = true ∧ isFinite deg = true ∧ isFinite (fmul deg pi64) = true ∧
      isFinite (toRadians deg) = true) ∧
  (∀ (e : CalEntry) (sinAz cosAz : F64) (dist : U16),
    belowHuge e.distCorr → belowHuge e.vOffCorr → belowHuge e.hOffCorr → withinUnit e.sinVert → withinUnit e.cosVert →
    e.sinVOff = fmul e.vOffCorr e.sinVert → e.cosVOff = fmul e.vOffCorr e.cosVert → withinUnit sinAz → withinUnit cosAz →
    let distM := distMetres e dist
    let horiz := horizRange e distM
    isFinite e.sinVOff = true ∧ isFinite e.cosVOff = true ∧ isFinite (fmul (i2f dist) distLsb) = true ∧ isFinite distM = true ∧
      isFinite (fmul distM e.cosVert) = true ∧ isFinite horiz = true ∧ isFinite (fmul horiz sinAz) = true ∧
      isFinite (fmul e.hOffCorr cosAz) = true ∧ isFinite (fmul horiz cosAz) = true ∧ isFinite (fmul e.hOffCorr sinAz) = true ∧
      isFinite (fmul distM e.sinVert) = true ∧
      isFinite (fsub (fmul horiz sinAz) (fmul e.hOffCorr cosAz)) = true ∧
      isFinite (fadd (fmul horiz cosAz) (fmul e.hOffCorr sinAz)) = true ∧
      isFinite (fadd (fmul distM e.sinVert) e.cosVOff) = true)

/-- R180: the source's geometry scenario under the default trig unit. -/
def Obligations.GeometryScenario : Prop :=
  ∀ (word : U32) (id : BitVec 6) (inty : Byte) (ts : U32) (k : Nat) (s : State), s.cfg = defaultConfig →
    s.cal[id.toNat]'id.isLt = deriveEntry defaultConfig ⟨0, 0, 0, 0, 0, 0, 0, 0, 0⟩ →
    correctReturn word id 9000 5000 inty ts k s =
      { s with
        events := s.events ++ [.point
          { x := 0x4024000000000000, y := 0x3CC60FAFBFD97309, z := 0, distance := 0x4024000000000000, intensity := inty,
            laserId := id, azimuth := 9000, timestamp := ts }]
        curFramePoints := s.curFramePoints + 1 }

/-- R111: LUT entry 0 for every trig unit, and entry 36000 under the default one. -/
def Obligations.AngleTableEnds : Prop :=
  (∀ cfg : Config, lutSin cfg 0 = 0x0000000000000000 ∧ lutCos cfg 0 = 0x3FF0000000000000) ∧
  lutSin defaultConfig 36000 = 0xBCB1A62633145C07 ∧ lutCos defaultConfig 36000 = 0x3FF0000000000000

/-- R114: Derive computes the four derived fields from vertCorr and vOffCorr and leaves the base fields; the operands' order does not
matter; a zero vOffCorr gives a zero with the sign of the sine. That a NaN product's bits are free is log 5. -/
def Obligations.DeriveRecomputesFromBaseFields : Prop :=
  (∀ (cfg : Config) (e : CalEntry),
    let s := trigSin cfg (fdiv (fmul e.vertCorr 0x400921FB54442D18) 0x4066800000000000)
    let c := trigCos cfg (fdiv (fmul e.vertCorr 0x400921FB54442D18) 0x4066800000000000)
    deriveEntry cfg e = ⟨e.azCorr, e.vertCorr, e.distCorr, e.vOffCorr, e.hOffCorr, s, c, fmul e.vOffCorr s, fmul e.vOffCorr c⟩) ∧
  (∀ a b : F64, isNaN (fmul a b) = isNaN (fmul b a) ∧ (isNaN (fmul a b) = false → fmul a b = fmul b a)) ∧
  (∀ s : F64, isFinite s = true → fmul 0 s = if signBit s then 0x8000000000000000 else 0)

/-- R251, with the codes of R95: raising an error sets its sticky bit and then emits EV_ERROR with the command's word. -/
def Obligations.RaiseSetsTheBitThenEmits : Prop :=
  (∀ (kind : ErrorKind) (word : U32) (a1 a2 a3 : U16) (s : State),
    raise kind word a1 a2 a3 s =
      { s with
        status := (s.status ||| match kind with | .azRange => 0x2 | .unknownLaser => 0x4 | .illegalCmd => 0x8) &&& 0xF
        events := s.events ++ [.error kind word a1 a2 a3] }) ∧
  ErrorKind.azRange.code = 1 ∧ ErrorKind.unknownLaser.code = 2 ∧ ErrorKind.illegalCmd.code = 3

/-! ### Binary64 arithmetic -/

/-- R10: addition and subtraction of finite values are the exact result rounded to nearest, ties to even; an exact zero is +0 unless both
terms are negative zeros. -/
def Obligations.AdditionRoundsToNearestEven : Prop :=
  ∀ a b : F64, isFinite a = true → isFinite b = true →
    roundsTo (f64Value a + f64Value b) (fadd a b) ∧ roundsTo (f64Value a - f64Value b) (fsub a b) ∧
    (f64Value a + f64Value b = 0 → signBit (fadd a b) = (signBit a && signBit b)) ∧
    (f64Value a - f64Value b = 0 → signBit (fsub a b) = (signBit a && !signBit b))

/-- R10: multiplication of finite values is the exact product rounded to nearest, ties to even, its sign that of the product. -/
def Obligations.MultiplicationRoundsToNearestEven : Prop :=
  ∀ a b : F64, isFinite a = true → isFinite b = true →
    roundsTo (f64Value a * f64Value b) (fmul a b) ∧ signBit (fmul a b) = (signBit a != signBit b)

/-- R10: division of a finite value by a finite nonzero one is the exact quotient rounded to nearest, ties to even; a nonzero value
divided by zero is infinite; the sign is that of the quotient. -/
def Obligations.DivisionRoundsToNearestEven : Prop :=
  ∀ a b : F64, isFinite a = true → isFinite b = true →
    (isZero b = false → roundsTo (f64Value a / f64Value b) (fdiv a b) ∧ signBit (fdiv a b) = (signBit a != signBit b)) ∧
    (isZero b = true → isZero a = false → isInf (fdiv a b) = true ∧ signBit (fdiv a b) = (signBit a != signBit b))

/-- R10, R179: an invalid operation or a NaN operand gives a NaN (its sign and payload free, log 5). Otherwise an infinity gives the result
of IEEE 754: it carries through a sum and a difference, and a product or a quotient with it is an infinity or a zero with the sign
of the operands' product. -/
def Obligations.InvalidOperationsGiveNaN : Prop :=
  (∀ a b : F64, isNaN a = true ∨ isNaN b = true →
    isNaN (fadd a b) = true ∧ isNaN (fsub a b) = true ∧ isNaN (fmul a b) = true ∧ isNaN (fdiv a b) = true) ∧
  (∀ a b : F64, isInf a = true → isInf b = true →
    (signBit a = signBit b → fadd a b = a ∧ isNaN (fsub a b) = true) ∧
    (signBit a ≠ signBit b → isNaN (fadd a b) = true ∧ fsub a b = a) ∧
    isInf (fmul a b) = true ∧ signBit (fmul a b) = (signBit a != signBit b) ∧ isNaN (fdiv a b) = true) ∧
  (∀ a b : F64, isInf a = true → isFinite b = true →
    fadd a b = a ∧ fadd b a = a ∧ fsub a b = a ∧ (isInf (fsub b a) = true ∧ signBit (fsub b a) = !signBit a) ∧
    (isZero b = true → isNaN (fmul a b) = true ∧ isNaN (fmul b a) = true) ∧
    (isZero b = false → isInf (fmul a b) = true ∧ signBit (fmul a b) = (signBit a != signBit b) ∧
      isInf (fmul b a) = true ∧ signBit (fmul b a) = (signBit a != signBit b)) ∧
    isInf (fdiv a b) = true ∧ signBit (fdiv a b) = (signBit a != signBit b) ∧
    isZero (fdiv b a) = true ∧ signBit (fdiv b a) = (signBit a != signBit b)) ∧
  (∀ a b : F64, isZero a = true → isZero b = true → isNaN (fdiv a b) = true)

/-- R10, D38: the conversion of a u16 is exact. -/
def Obligations.IntegerConversionIsExact : Prop :=
  ∀ n : U16, isFinite (i2f n) = true ∧ signBit (i2f n) = false ∧ f64Value (i2f n) = n.toNat

/-- R10: feq compares values: +0 equals -0, and a NaN equals nothing. -/
def Obligations.FeqComparesValues : Prop :=
  (∀ a b : F64, isNaN a = true ∨ isNaN b = true → feq a b = false) ∧
  (∀ a b : F64, isFinite a = true → isFinite b = true → (feq a b = true ↔ f64Value a = f64Value b)) ∧
  (∀ a b : F64, isInf a = true → isNaN b = false → (feq a b = true ↔ a = b))

/-! ### The trig unit -/

/-- R7, D9: under the default trig unit the sine and the cosine of every finite argument are the real ones rounded to nearest, ties to
even, so they are finite and of magnitude at most 1. How the model computes them, and that this always ends, is log 4. -/
def Obligations.DefaultTrigIsCorrectlyRounded : Prop :=
  ∀ (cfg : Config) (x : F64), cfg.trig = .correctlyRounded → isFinite x = true →
    roundsToReal (Real.sin (f64Value x)) (trigSin cfg x) ∧ roundsToReal (Real.cos (f64Value x)) (trigCos cfg x) ∧
      withinUnit (trigSin cfg x) ∧ withinUnit (trigCos cfg x)
end

