-- ==== Sys2Proof/Laws/Decode.lean ====
section
/-! SUPPORT. The laws of the encoding: the words of the instructions as numbers, their fields, and the little-endian bytes. -/

namespace Sys2Proof

/-! ### Words as numbers (R80, R87) -/

theorem encodeWord_packet_toNat (len : U16) (p : List Byte) :
    (encodeWord (.packet len p)).toNat = 0x10000000 + len.toNat := by
  have := len.isLt
  simp only [encodeWord, BitVec.toNat_append]
  rw [← Nat.shiftLeft_add_eq_or_of_lt this]
  rfl

theorem sel4_toNat (op : BitVec 4) (x : BitVec 4) :
    (op ++ 0#24 ++ x : BitVec 32).toNat = op.toNat * 2 ^ 28 + x.toNat := by
  have h := x.isLt
  simp only [BitVec.toNat_append, BitVec.toNat_ofNat]
  rw [← Nat.shiftLeft_add_eq_or_of_lt h, ← Nat.shiftLeft_add_eq_or_of_lt (by decide)]
  simp only [Nat.shiftLeft_eq]
  omega

theorem laserField_toNat (op : BitVec 4) (laser : Byte) (x : BitVec 4) :
    (op ++ 0#4 ++ laser ++ 0#12 ++ x : BitVec 32).toNat =
      op.toNat * 2 ^ 28 + laser.toNat * 2 ^ 16 + x.toNat := by
  have h := x.isLt
  have hl := laser.isLt
  simp only [BitVec.toNat_append, BitVec.toNat_ofNat]
  rw [← Nat.shiftLeft_add_eq_or_of_lt h, ← Nat.shiftLeft_add_eq_or_of_lt (by decide), ← Nat.shiftLeft_add_eq_or_of_lt hl,
    ← Nat.shiftLeft_add_eq_or_of_lt (by decide)]
  simp only [Nat.shiftLeft_eq]
  omega

/-! ### The reserved bits of a word (R80) -/

/-- The word's bits under a mask of the bits `lo` to `lo + n - 1` vanish exactly when that field is 0. -/
theorem and_mask_eq_zero_iff (w m : U32) (lo n : Nat) (hm : m.toNat = (2 ^ n - 1) * 2 ^ lo) :
    w &&& m = 0#32 ↔ w.toNat / 2 ^ lo % 2 ^ n = 0 := by
  have h1 : (w &&& m).toNat = (w.toNat / 2 ^ lo % 2 ^ n) * 2 ^ lo := by
    rw [BitVec.toNat_and, hm, ← Nat.shiftLeft_eq, Nat.and_comm]
    apply Nat.eq_of_testBit_eq
    intro i
    rw [Nat.testBit_and, Nat.testBit_shiftLeft, Nat.testBit_two_pow_sub_one, ← Nat.shiftLeft_eq, Nat.testBit_shiftLeft,
      Nat.testBit_mod_two_pow, Nat.testBit_div_two_pow]
    by_cases hi : lo ≤ i
    · simp [hi]
    · simp [hi]
  rw [← BitVec.toNat_inj, h1]
  simp

theorem plain_reserved_iff (w : U32) : w &&& 0x0FFFFFFF#32 = 0#32 ↔ w.toNat % 2 ^ 28 = 0 := by
  have := and_mask_eq_zero_iff w 0x0FFFFFFF#32 0 28 (by decide)
  simpa using this

theorem len16_reserved_iff (w : U32) : w &&& 0x0FFF0000#32 = 0#32 ↔ w.toNat / 2 ^ 16 % 2 ^ 12 = 0 :=
  and_mask_eq_zero_iff w 0x0FFF0000#32 16 12 (by decide)

theorem sel4_reserved_iff (w : U32) : w &&& 0x0FFFFFF0#32 = 0#32 ↔ w.toNat / 2 ^ 4 % 2 ^ 24 = 0 :=
  and_mask_eq_zero_iff w 0x0FFFFFF0#32 4 24 (by decide)

theorem laserField_reserved_iff (w : U32) :
    w &&& 0x0F00FFF0#32 = 0#32 ↔ w.toNat / 2 ^ 24 % 2 ^ 4 = 0 ∧ w.toNat / 2 ^ 4 % 2 ^ 12 = 0 := by
  rw [← and_mask_eq_zero_iff w 0x0F000000#32 24 4 (by decide), ← and_mask_eq_zero_iff w 0x0000FFF0#32 4 12 (by decide),
    show (0x0F00FFF0#32) = 0x0F000000#32 ||| 0x0000FFF0#32 from rfl, BitVec.and_or_distrib_left, BitVec.or_eq_zero_iff]

/-! ### The fields of a word (R80) -/

/-- The opcode is the word over 2^28. -/
theorem opOfWord_eq (w : U32) : opOfWord w = opOfNumber (w.toNat / 2 ^ 28) := by
  have := w.isLt
  rw [opOfWord, BitVec.extractLsb'_toNat, Nat.shiftRight_eq_div_pow, Nat.mod_eq_of_lt (by omega)]

theorem selField_toNat (w : U32) : (w.extractLsb' 0 4).toNat = w.toNat % 2 ^ 4 := by
  rw [BitVec.extractLsb'_toNat]; rfl

theorem lenField_toNat (w : U32) : (w.extractLsb' 0 16).toNat = w.toNat % 2 ^ 16 := by
  rw [BitVec.extractLsb'_toNat]; rfl

theorem laserField_eq (w : U32) : (w.extractLsb' 16 8).toNat = w.toNat / 2 ^ 16 % 2 ^ 8 := by
  rw [BitVec.extractLsb'_toNat, Nat.shiftRight_eq_div_pow]

/-! ### Selectors (R83, R84) -/

theorem calFieldOfSel_eq_none_iff (x : BitVec 4) : calFieldOfSel x = none ↔ 9 ≤ x.toNat := by revert x; decide

theorem regOfSel_eq_none_iff (x : BitVec 4) : regOfSel x = none ↔ 7 ≤ x.toNat := by revert x; decide

/-- The selector of the field a selector selects is that selector. -/
theorem sel_of_calFieldOfSel {x : BitVec 4} {f : CalField} (h : calFieldOfSel x = some f) : f.sel = x := by
  have key : ∀ x : BitVec 4, (calFieldOfSel x).all (fun f => f.sel == x) = true := by decide
  have := key x
  rw [h] at this
  simpa using this

theorem sel_of_regOfSel {x : BitVec 4} {r : Reg} (h : regOfSel x = some r) : r.sel = x := by
  have key : ∀ x : BitVec 4, (regOfSel x).all (fun r => r.sel == x) = true := by decide
  have := key x
  rw [h] at this
  simpa using this

/-! ### Little-endian bytes (R51, R85) -/

/-- The eight bytes of a bit pattern give it back. -/
theorem f64OfBytes_f64Bytes (v : F64) : f64OfBytes (f64Bytes v) = v := by
  apply BitVec.eq_of_toNat_eq
  have := v.isLt
  simp only [f64OfBytes, f64Bytes, leNat, BitVec.toNat_ofNat, BitVec.extractLsb'_toNat, Nat.shiftRight_eq_div_pow]
  omega

/-- Eight bytes are the bytes of the bit pattern they make up. -/
theorem f64Bytes_f64OfBytes (b0 b1 b2 b3 b4 b5 b6 b7 : Byte) :
    f64Bytes (f64OfBytes [b0, b1, b2, b3, b4, b5, b6, b7]) = [b0, b1, b2, b3, b4, b5, b6, b7] := by
  have h0 := b0.isLt; have h1 := b1.isLt; have h2 := b2.isLt; have h3 := b3.isLt
  have h4 := b4.isLt; have h5 := b5.isLt; have h6 := b6.isLt; have h7 := b7.isLt
  simp only [f64OfBytes, f64Bytes, leNat, List.cons.injEq, and_true, ← BitVec.toNat_inj, BitVec.extractLsb'_toNat,
    BitVec.toNat_ofNat, Nat.shiftRight_eq_div_pow]
  omega

end Sys2Proof
end

