-- ==== Sys2Proof/Laws/State.lean ====
section
/-! SUPPORT. What each shared update leaves in each field of State: one lemma per field per update, so that no later proof unfolds a
record update. -/

namespace Sys2Proof.Machine

variable (s : State)

/-! ### emit -/

@[simp] theorem emit_cfg (e : Event) : (emit e s).cfg = s.cfg := rfl
@[simp] theorem emit_status (e : Event) : (emit e s).status = s.status := rfl
@[simp] theorem emit_lastAz (e : Event) : (emit e s).lastAz = s.lastAz := rfl
@[simp] theorem emit_pendingSkip (e : Event) : (emit e s).pendingSkip = s.pendingSkip := rfl
@[simp] theorem emit_frameCount (e : Event) : (emit e s).frameCount = s.frameCount := rfl
@[simp] theorem emit_curFramePoints (e : Event) : (emit e s).curFramePoints = s.curFramePoints := rfl
@[simp] theorem emit_dataPktCount (e : Event) : (emit e s).dataPktCount = s.dataPktCount := rfl
@[simp] theorem emit_nondataPktCount (e : Event) : (emit e s).nondataPktCount = s.nondataPktCount := rfl
@[simp] theorem emit_cal (e : Event) : (emit e s).cal = s.cal := rfl
@[simp] theorem emit_events (e : Event) : (emit e s).events = s.events ++ [e] := rfl
@[simp] theorem emit_input (e : Event) : (emit e s).input = s.input := rfl

/-! ### setStatus -/

@[simp] theorem setStatus_cfg (b : StatusBit) : (setStatus b s).cfg = s.cfg := rfl
@[simp] theorem setStatus_status (b : StatusBit) : (setStatus b s).status = statusValue (s.status ||| b.mask) := rfl
@[simp] theorem setStatus_lastAz (b : StatusBit) : (setStatus b s).lastAz = s.lastAz := rfl
@[simp] theorem setStatus_pendingSkip (b : StatusBit) : (setStatus b s).pendingSkip = s.pendingSkip := rfl
@[simp] theorem setStatus_frameCount (b : StatusBit) : (setStatus b s).frameCount = s.frameCount := rfl
@[simp] theorem setStatus_curFramePoints (b : StatusBit) : (setStatus b s).curFramePoints = s.curFramePoints := rfl
@[simp] theorem setStatus_dataPktCount (b : StatusBit) : (setStatus b s).dataPktCount = s.dataPktCount := rfl
@[simp] theorem setStatus_nondataPktCount (b : StatusBit) : (setStatus b s).nondataPktCount = s.nondataPktCount := rfl
@[simp] theorem setStatus_cal (b : StatusBit) : (setStatus b s).cal = s.cal := rfl
@[simp] theorem setStatus_events (b : StatusBit) : (setStatus b s).events = s.events := rfl
@[simp] theorem setStatus_input (b : StatusBit) : (setStatus b s).input = s.input := rfl

/-! ### clearStatus -/

@[simp] theorem clearStatus_cfg (m : BitVec 4) : (clearStatus m s).cfg = s.cfg := rfl
@[simp] theorem clearStatus_status (m : BitVec 4) : (clearStatus m s).status = statusValue (s.status &&& ~~~(m.zeroExtend 32)) := rfl
@[simp] theorem clearStatus_lastAz (m : BitVec 4) : (clearStatus m s).lastAz = s.lastAz := rfl
@[simp] theorem clearStatus_pendingSkip (m : BitVec 4) : (clearStatus m s).pendingSkip = s.pendingSkip := rfl
@[simp] theorem clearStatus_frameCount (m : BitVec 4) : (clearStatus m s).frameCount = s.frameCount := rfl
@[simp] theorem clearStatus_curFramePoints (m : BitVec 4) : (clearStatus m s).curFramePoints = s.curFramePoints := rfl
@[simp] theorem clearStatus_dataPktCount (m : BitVec 4) : (clearStatus m s).dataPktCount = s.dataPktCount := rfl
@[simp] theorem clearStatus_nondataPktCount (m : BitVec 4) : (clearStatus m s).nondataPktCount = s.nondataPktCount := rfl
@[simp] theorem clearStatus_cal (m : BitVec 4) : (clearStatus m s).cal = s.cal := rfl
@[simp] theorem clearStatus_events (m : BitVec 4) : (clearStatus m s).events = s.events := rfl
@[simp] theorem clearStatus_input (m : BitVec 4) : (clearStatus m s).input = s.input := rfl

/-! ### raise -/

@[simp] theorem raise_cfg (k : ErrorKind) (w : U32) (a b c : U16) : (raise k w a b c s).cfg = s.cfg := rfl
@[simp] theorem raise_status (k : ErrorKind) (w : U32) (a b c : U16) : (raise k w a b c s).status = statusValue (s.status ||| k.bit.mask) := rfl
@[simp] theorem raise_lastAz (k : ErrorKind) (w : U32) (a b c : U16) : (raise k w a b c s).lastAz = s.lastAz := rfl
@[simp] theorem raise_pendingSkip (k : ErrorKind) (w : U32) (a b c : U16) : (raise k w a b c s).pendingSkip = s.pendingSkip := rfl
@[simp] theorem raise_frameCount (k : ErrorKind) (w : U32) (a b c : U16) : (raise k w a b c s).frameCount = s.frameCount := rfl
@[simp] theorem raise_curFramePoints (k : ErrorKind) (w : U32) (a b c : U16) : (raise k w a b c s).curFramePoints = s.curFramePoints := rfl
@[simp] theorem raise_dataPktCount (k : ErrorKind) (w : U32) (a b c : U16) : (raise k w a b c s).dataPktCount = s.dataPktCount := rfl
@[simp] theorem raise_nondataPktCount (k : ErrorKind) (w : U32) (a b c : U16) : (raise k w a b c s).nondataPktCount = s.nondataPktCount := rfl
@[simp] theorem raise_cal (k : ErrorKind) (w : U32) (a b c : U16) : (raise k w a b c s).cal = s.cal := rfl
@[simp] theorem raise_events (k : ErrorKind) (w : U32) (a b c : U16) : (raise k w a b c s).events = s.events ++ [.error k w a b c] := rfl
@[simp] theorem raise_input (k : ErrorKind) (w : U32) (a b c : U16) : (raise k w a b c s).input = s.input := rfl

/-! ### emitPoint -/

@[simp] theorem emitPoint_cfg (p : Point) : (emitPoint p s).cfg = s.cfg := rfl
@[simp] theorem emitPoint_status (p : Point) : (emitPoint p s).status = s.status := rfl
@[simp] theorem emitPoint_lastAz (p : Point) : (emitPoint p s).lastAz = s.lastAz := rfl
@[simp] theorem emitPoint_pendingSkip (p : Point) : (emitPoint p s).pendingSkip = s.pendingSkip := rfl
@[simp] theorem emitPoint_frameCount (p : Point) : (emitPoint p s).frameCount = s.frameCount := rfl
@[simp] theorem emitPoint_curFramePoints (p : Point) : (emitPoint p s).curFramePoints = s.curFramePoints + 1 := rfl
@[simp] theorem emitPoint_dataPktCount (p : Point) : (emitPoint p s).dataPktCount = s.dataPktCount := rfl
@[simp] theorem emitPoint_nondataPktCount (p : Point) : (emitPoint p s).nondataPktCount = s.nondataPktCount := rfl
@[simp] theorem emitPoint_cal (p : Point) : (emitPoint p s).cal = s.cal := rfl
@[simp] theorem emitPoint_events (p : Point) : (emitPoint p s).events = s.events ++ [.point p] := rfl
@[simp] theorem emitPoint_input (p : Point) : (emitPoint p s).input = s.input := rfl

/-! ### closeFrame -/

@[simp] theorem closeFrame_cfg (c : FrameCause) (k : BitVec 4) : (closeFrame c k s).cfg = s.cfg := rfl
@[simp] theorem closeFrame_status (c : FrameCause) (k : BitVec 4) : (closeFrame c k s).status = s.status := rfl
@[simp] theorem closeFrame_lastAz (c : FrameCause) (k : BitVec 4) : (closeFrame c k s).lastAz = s.lastAz := rfl
@[simp] theorem closeFrame_pendingSkip (c : FrameCause) (k : BitVec 4) : (closeFrame c k s).pendingSkip = s.pendingSkip := rfl
@[simp] theorem closeFrame_frameCount (c : FrameCause) (k : BitVec 4) : (closeFrame c k s).frameCount = s.frameCount + 1 := rfl
@[simp] theorem closeFrame_curFramePoints (c : FrameCause) (k : BitVec 4) : (closeFrame c k s).curFramePoints = 0 := rfl
@[simp] theorem closeFrame_dataPktCount (c : FrameCause) (k : BitVec 4) : (closeFrame c k s).dataPktCount = s.dataPktCount := rfl
@[simp] theorem closeFrame_nondataPktCount (c : FrameCause) (k : BitVec 4) : (closeFrame c k s).nondataPktCount = s.nondataPktCount := rfl
@[simp] theorem closeFrame_cal (c : FrameCause) (k : BitVec 4) : (closeFrame c k s).cal = s.cal := rfl
@[simp] theorem closeFrame_events (c : FrameCause) (k : BitVec 4) : (closeFrame c k s).events = s.events ++ [.frameEnd c k s.curFramePoints s.frameCount] := rfl
@[simp] theorem closeFrame_input (c : FrameCause) (k : BitVec 4) : (closeFrame c k s).input = s.input := rfl

/-! ### setCalEntry -/

@[simp] theorem setCalEntry_cfg (id : BitVec 6) (e : CalEntry) : (setCalEntry id e s).cfg = s.cfg := rfl
@[simp] theorem setCalEntry_status (id : BitVec 6) (e : CalEntry) : (setCalEntry id e s).status = s.status := rfl
@[simp] theorem setCalEntry_lastAz (id : BitVec 6) (e : CalEntry) : (setCalEntry id e s).lastAz = s.lastAz := rfl
@[simp] theorem setCalEntry_pendingSkip (id : BitVec 6) (e : CalEntry) : (setCalEntry id e s).pendingSkip = s.pendingSkip := rfl
@[simp] theorem setCalEntry_frameCount (id : BitVec 6) (e : CalEntry) : (setCalEntry id e s).frameCount = s.frameCount := rfl
@[simp] theorem setCalEntry_curFramePoints (id : BitVec 6) (e : CalEntry) : (setCalEntry id e s).curFramePoints = s.curFramePoints := rfl
@[simp] theorem setCalEntry_dataPktCount (id : BitVec 6) (e : CalEntry) : (setCalEntry id e s).dataPktCount = s.dataPktCount := rfl
@[simp] theorem setCalEntry_nondataPktCount (id : BitVec 6) (e : CalEntry) : (setCalEntry id e s).nondataPktCount = s.nondataPktCount := rfl
@[simp] theorem setCalEntry_cal (id : BitVec 6) (e : CalEntry) : (setCalEntry id e s).cal = s.cal.set id.toNat e id.isLt := rfl
@[simp] theorem setCalEntry_events (id : BitVec 6) (e : CalEntry) : (setCalEntry id e s).events = s.events := rfl
@[simp] theorem setCalEntry_input (id : BitVec 6) (e : CalEntry) : (setCalEntry id e s).input = s.input := rfl

end Sys2Proof.Machine
end

