-- ==== Sys2Proof/Laws/Ops.lean ====
section
/-! SUPPORT. The laws of the shared operations: STATUS bits, selectors, the calibration RAM, and what each operation does to the
registers and the event channel. -/

namespace Sys2Proof.Machine

/-! ### STATUS (R23) -/

theorem getLsbD_statusValue (w : U32) (i : Nat) : (statusValue w).getLsbD i = (w.getLsbD i && decide (i < 4)) := by
  unfold statusValue
  rw [BitVec.getLsbD_and]
  congr 1
  by_cases h : i < 32
  · interval_cases i <;> rfl
  · rw [BitVec.getLsbD_of_ge _ _ (by omega)]
    exact (decide_eq_false (by omega)).symm

@[simp] theorem statusValue_idem (w : U32) : statusValue (statusValue w) = statusValue w := by
  unfold statusValue; rw [BitVec.and_assoc, BitVec.and_self]

theorem getLsbD_mask (b : StatusBit) (i : Nat) : b.mask.getLsbD i = decide (i = b.index) := by
  by_cases h : i < 32
  · cases b <;> interval_cases i <;> rfl
  · rw [BitVec.getLsbD_of_ge _ _ (by omega)]
    refine (decide_eq_false ?_).symm
    cases b <;> simp [StatusBit.index] <;> omega

theorem index_lt (b : StatusBit) : b.index < 4 := by cases b <;> decide

theorem index_eq_iff {a b : StatusBit} : a.index = b.index ↔ a = b := by cases a <;> cases b <;> decide

/-- A bit of STATUS is read at its place in the register. -/
theorem statusHas_eq (b : StatusBit) (s : State) : statusHas b s = s.status.getLsbD b.index := by
  simp [statusHas, readStatus, getLsbD_statusValue, index_lt]

/-- Its bits depend on the register alone. -/
theorem statusHas_congr {s t : State} (h : t.status = s.status) (b : StatusBit) : statusHas b t = statusHas b s := by
  rw [statusHas_eq, statusHas_eq, h]

/-- Setting a bit sets that bit and keeps the others. -/
@[simp] theorem statusHas_setStatus (a b : StatusBit) (s : State) :
    statusHas a (setStatus b s) = (statusHas a s || decide (a = b)) := by
  simp [statusHas_eq, getLsbD_statusValue, index_lt, getLsbD_mask, index_eq_iff]

/-- A read of STATUS gives the defined bits, and 0 in bits 31:4. -/
theorem readStatus_ext {s t : State} (h : ∀ b, statusHas b s = statusHas b t) : readStatus s = readStatus t := by
  apply BitVec.eq_of_getLsbD_eq
  intro i _
  simp only [readStatus, getLsbD_statusValue]
  by_cases h4 : i < 4
  · have h0 := h .blkidOther; have h1 := h .azRange; have h2 := h .unknownLaser; have h3 := h .illegalCmd
    simp only [statusHas_eq, StatusBit.index] at h0 h1 h2 h3
    interval_cases i <;> simp_all only [BitVec.getLsbD_eq_getElem]
  · simp [h4]

@[simp] theorem statusHas_emit (b : StatusBit) (e : Event) (s : State) : statusHas b (emit e s) = statusHas b s := rfl

@[simp] theorem statusHas_emitPoint (b : StatusBit) (p : Point) (s : State) : statusHas b (emitPoint p s) = statusHas b s := rfl

@[simp] theorem statusHas_closeFrame (b : StatusBit) (c : FrameCause) (k : BitVec 4) (s : State) :
    statusHas b (closeFrame c k s) = statusHas b s := rfl

@[simp] theorem statusHas_setCalEntry (b : StatusBit) (id : BitVec 6) (e : CalEntry) (s : State) :
    statusHas b (setCalEntry id e s) = statusHas b s := rfl

/-- Raising an error sets its bit and keeps the others (R251). -/
@[simp] theorem statusHas_raise (b : StatusBit) (k : ErrorKind) (w : U32) (a1 a2 a3 : U16) (s : State) :
    statusHas b (raise k w a1 a2 a3 s) = (statusHas b s || decide (b = k.bit)) := by
  simp [raise]

/-- STATUS_CLEAR clears the bits of the mask and keeps the others (R232). -/
theorem statusHas_clearStatus (b : StatusBit) (m : BitVec 4) (s : State) :
    statusHas b (clearStatus m s) = (statusHas b s && !m.getLsbD b.index) := by
  have h := index_lt b
  rw [statusHas_eq, statusHas_eq, clearStatus_status, getLsbD_statusValue, BitVec.getLsbD_and, BitVec.getLsbD_not,
    BitVec.getLsbD_setWidth]
  simp [h, show b.index < 32 by omega]

/-! ### The calibration RAM (R32) -/

@[simp] theorem calEntry_setCalEntry_self (id : BitVec 6) (e : CalEntry) (s : State) : calEntry (setCalEntry id e s) id = e := by
  simp [calEntry]

/-- Writing an entry leaves every other entry alone. -/
theorem calEntry_setCalEntry_of_ne {id id' : BitVec 6} (h : id ≠ id') (e : CalEntry) (s : State) :
    calEntry (setCalEntry id e s) id' = calEntry s id' := by
  have hne : id.toNat ≠ id'.toNat := fun h' => h (BitVec.eq_of_toNat_eq h')
  simp [calEntry, hne]

/-- The derived fields follow from the base fields, so recomputing them twice is recomputing them once (R114). -/
@[simp] theorem deriveEntry_idem (cfg : Config) (e : CalEntry) : deriveEntry cfg (deriveEntry cfg e) = deriveEntry cfg e := rfl

/-- Entry k of the built-in profile (R117). -/
theorem getElem_defaultProfile (cfg : Config) (k : Nat) (hk : k < 64) : (defaultProfile cfg)[k] = defaultEntry cfg k := by
  simp [defaultProfile]

/-- Its derived fields are consistent with its base fields (R115). -/
theorem deriveEntry_defaultEntry (cfg : Config) (k : Nat) : deriveEntry cfg (defaultEntry cfg k) = defaultEntry cfg k := rfl

/-! ### Selectors (R83, R84) -/

@[simp] theorem calFieldOfSel_sel (f : CalField) : calFieldOfSel f.sel = some f := by
  rcases f with f | f <;> cases f <;> rfl

@[simp] theorem regOfSel_sel (r : Reg) : regOfSel r.sel = some r := by cases r <;> rfl

end Sys2Proof.Machine
end

