-- ==== Sys2Proof/Laws/Packet.lean ====
section
/-! SUPPORT. What the parts of PACKET do, said once: each appends the events that the packet's bytes determine and moves the
registers as those events say. -/

namespace Sys2Proof.Machine

/-! ### The packet's bytes (R11, R51, R54) -/

theorem leNat_cons_take (buf : List Byte) (a n : Nat) :
    leNat ((buf.drop a).take (n + 1)) = (byteAt buf a).toNat + 256 * leNat ((buf.drop (a + 1)).take n) := by
  by_cases h : a < buf.length
  · rw [List.drop_eq_getElem_cons h, List.take_succ_cons, leNat, byteAt, List.getD_eq_getElem _ _ h]
  · have h1 : buf.drop a = [] := List.drop_eq_nil_of_le (by omega)
    have h2 : buf.drop (a + 1) = [] := List.drop_eq_nil_of_le (by omega)
    simp [h1, h2, leNat, byteAt, List.getElem?_eq_none (Nat.le_of_not_lt h)]

theorem memRead_one (buf : List Byte) (a : Nat) : memRead buf a 1 = byteAt buf a := by
  apply BitVec.eq_of_toNat_eq
  have := (byteAt buf a).isLt
  rw [memRead, leNat_cons_take]
  simp only [List.take_zero, leNat, BitVec.toNat_ofNat]
  omega

/-- A little-endian u16 has the byte at the higher offset on top (R51). -/
theorem memRead_two (buf : List Byte) (a : Nat) : memRead buf a 2 = u16At buf a := by
  apply BitVec.eq_of_toNat_eq
  have h0 := (byteAt buf a).isLt
  have h1 := (byteAt buf (a + 1)).isLt
  rw [memRead, leNat_cons_take, leNat_cons_take, u16At, BitVec.toNat_append]
  simp only [List.take_zero, leNat, BitVec.toNat_ofNat]
  rw [← Nat.shiftLeft_add_eq_or_of_lt h0, Nat.shiftLeft_eq]
  omega

/-- A little-endian u32 (R51). -/
theorem memRead_four (buf : List Byte) (a : Nat) : memRead buf a 4 = u32At buf a := by
  apply BitVec.eq_of_toNat_eq
  have h0 := (byteAt buf a).isLt
  have h1 := (byteAt buf (a + 1)).isLt
  have h2 := (byteAt buf (a + 2)).isLt
  have h3 := (byteAt buf (a + 3)).isLt
  rw [memRead, leNat_cons_take, leNat_cons_take, leNat_cons_take, leNat_cons_take, u32At, BitVec.toNat_append,
    BitVec.toNat_append, BitVec.toNat_append]
  simp only [List.take_zero, leNat, BitVec.toNat_ofNat, show a + 1 + 1 = a + 2 from rfl, show a + 2 + 1 = a + 3 from rfl]
  rw [← Nat.shiftLeft_add_eq_or_of_lt h0, ← Nat.shiftLeft_add_eq_or_of_lt h1, ← Nat.shiftLeft_add_eq_or_of_lt h2]
  simp only [Nat.shiftLeft_eq]
  omega

/-- The machine reads the laser id of a return as the packet's bytes give it (R72, R143). -/
theorem laserOffset_add (cfg : Config) (buf : List Byte) (k j : Nat) :
    laserOffset cfg (blockId buf k) + BitVec.ofNat 6 j = laserIdAt cfg buf k j := by
  unfold laserOffset laserIdAt blockId
  rw [memRead_two, BitVec.ofNat_add]
  split <;> rfl

/-! ### Events and registers -/

/-- The event raises the error of STATUS bit `b` (R251). -/
def Event.raises (b : StatusBit) : Event → Bool
  | .error kind _ _ _ _ => decide (b = kind.bit)
  | .point _ | .frameEnd _ _ _ _ | .packet _ _ _ _ | .calData _ _ _ | .regData _ _ => false

/-- `t` is `s` after the events `es`: they are appended, the frame counters follow them, and the registers that only other parts of
a command write are as before. -/
structure Advances (es : List Event) (s t : State) : Prop where
  cfg : t.cfg = s.cfg
  cal : t.cal = s.cal
  input : t.input = s.input
  pendingSkip : t.pendingSkip = s.pendingSkip
  dataPktCount : t.dataPktCount = s.dataPktCount
  nondataPktCount : t.nondataPktCount = s.nondataPktCount
  events : t.events = s.events ++ es
  frames : (t.curFramePoints, t.frameCount) = es.foldl account (s.curFramePoints, s.frameCount)

theorem Advances.refl (s : State) : Advances [] s s := by constructor <;> simp

theorem Advances.trans {es fs : List Event} {s t u : State} (h : Advances es s t) (h' : Advances fs t u) :
    Advances (es ++ fs) s u where
  cfg := h'.cfg.trans h.cfg
  cal := h'.cal.trans h.cal
  input := h'.input.trans h.input
  pendingSkip := h'.pendingSkip.trans h.pendingSkip
  dataPktCount := h'.dataPktCount.trans h.dataPktCount
  nondataPktCount := h'.nondataPktCount.trans h.nondataPktCount
  events := by rw [h'.events, h.events, List.append_assoc]
  frames := by rw [h'.frames, h.frames, List.foldl_append]

/-! ### One return (R170 to R178) -/

theorem azimuthTrig_eq (cfg : Config) (azCorr : F64) (az : U16) :
    azimuthTrig cfg azCorr az = if offTable azCorr az then none else some (azimuthPair cfg azCorr az) := by
  have hz : feq azCorr zero64 = isSignedZero azCorr := by
    rw [Bool.eq_iff_iff, feq_zero_iff]
    simp [isSignedZero]
  unfold azimuthTrig offTable azimuthPair azMaxLut slowRadians
  rw [hz]
  cases isSignedZero azCorr <;> simp

/-- One return appends its events (R171, R173, R178), leaves LAST_AZ alone and sets a STATUS bit only by raising its error. -/
theorem processReturn_spec (word : U32) (buf : List Byte) (k j : Nat) (s : State) :
    Advances (returnEvents s.cfg s.cal word buf k j) s (processReturn word buf k s j) ∧
      (processReturn word buf k s j).lastAz = s.lastAz ∧
      ∀ b, statusHas b (processReturn word buf k s j) =
        (statusHas b s || (returnEvents s.cfg s.cal word buf k j).any (Event.raises b)) := by
  unfold processReturn correctReturn returnEvents eventsOfReturn
  rw [laserOffset_add, azimuthTrig_eq, show returnDist buf k j = u16At buf (100 * k + 4 + 3 * j) from memRead_two _ _,
    show blockPos buf k = u16At buf (100 * k + 2) from memRead_two _ _,
    show returnIntensity buf k j = byteAt buf (100 * k + 6 + 3 * j) from memRead_one _ _,
    show packetTimestamp buf = u32At buf 1200 from memRead_four _ _]
  simp only [calEntry]
  by_cases hd : u16At buf (100 * k + 4 + 3 * j) = 0
  · simp [hd, Advances.refl]
  · by_cases ho : offTable (s.cal[(laserIdAt s.cfg buf k j).toNat]'(laserIdAt s.cfg buf k j).isLt).azCorr
        (u16At buf (100 * k + 2)) = true
    · simp only [hd, ho, if_true, if_false]
      refine ⟨?_, by simp, fun b => by simp [Event.raises]⟩
      constructor <;> simp [account]
    · simp only [hd, ho, if_false]
      refine ⟨?_, by simp, fun b => by simp [Event.raises]⟩
      constructor <;> simp [account, pointOf, pointBy, distMetres, horizRange, distLsb]

/-- The returns of a block, one after another (R145). -/
theorem processReturns_spec (word : U32) (buf : List Byte) (k : Nat) (js : List Nat) (s : State) :
    Advances (js.flatMap (returnEvents s.cfg s.cal word buf k)) s (js.foldl (processReturn word buf k) s) ∧
      (js.foldl (processReturn word buf k) s).lastAz = s.lastAz ∧
      ∀ b, statusHas b (js.foldl (processReturn word buf k) s) =
        (statusHas b s || (js.flatMap (returnEvents s.cfg s.cal word buf k)).any (Event.raises b)) := by
  induction js generalizing s with
  | nil => exact ⟨Advances.refl s, rfl, by simp⟩
  | cons j js ih =>
    obtain ⟨h1, l1, b1⟩ := processReturn_spec word buf k j s
    obtain ⟨h2, l2, b2⟩ := ih (processReturn word buf k s j)
    rw [h1.cfg, h1.cal] at h2 b2
    refine ⟨by simpa using h1.trans h2, by simpa using l2.trans l1, fun b => ?_⟩
    rw [List.foldl_cons, b2, b1, List.flatMap_cons, List.any_append, Bool.or_assoc]

/-! ### One block (R140, R144, R145, R201) -/

/-- The block's identifier is neither sentinel (R144). -/
def unknownId (cfg : Config) (buf : List Byte) (k : Nat) : Bool :=
  u16At buf (100 * k) != cfg.blkidLo && u16At buf (100 * k) != cfg.blkidHi

theorem noteIdentifier_spec (buf : List Byte) (k : Nat) (s : State) :
    Advances [] s (noteIdentifier (blockId buf k) s) ∧ (noteIdentifier (blockId buf k) s).lastAz = s.lastAz ∧
      ∀ b, statusHas b (noteIdentifier (blockId buf k) s) =
        (statusHas b s || (decide (b = .blkidOther) && unknownId s.cfg buf k)) := by
  unfold noteIdentifier unknownId
  rw [show blockId buf k = u16At buf (100 * k) from memRead_two _ _]
  split <;> rename_i h
  · have : (u16At buf (100 * k) != s.cfg.blkidLo && u16At buf (100 * k) != s.cfg.blkidHi) = true := by simpa using h
    refine ⟨by constructor <;> simp, by simp, fun b => by rw [statusHas_setStatus, this, Bool.and_true]⟩
  · refine ⟨Advances.refl s, rfl, fun b => ?_⟩
    have : (u16At buf (100 * k) != s.cfg.blkidLo && u16At buf (100 * k) != s.cfg.blkidHi) = false := by
      rw [Bool.eq_false_iff]; simpa using h
    simp [this]

/-- The frame end of a block that splits (R202). -/
def splitEvents (k : Nat) (pos last : U16) (c : U32 × U32) : List Event :=
  if pos < last then [.frameEnd .split (BitVec.ofNat 4 k) c.1 c.2] else []

theorem segmentBlock_spec (k : Nat) (pos : U16) (s : State) :
    Advances (splitEvents k pos s.lastAz (s.curFramePoints, s.frameCount)) s (segmentBlock k pos s) ∧
      (segmentBlock k pos s).lastAz = pos ∧ ∀ b, statusHas b (segmentBlock k pos s) = statusHas b s := by
  unfold segmentBlock splitEvents
  split
  · exact ⟨by constructor <;> simp [account], rfl, fun b => rfl⟩
  · exact ⟨by constructor <;> simp, rfl, fun b => rfl⟩

/-- The events of a block (R145): its frame end, if it splits, before its returns. -/
def blockEvents (cfg : Config) (cal : Vector CalEntry 64) (word : U32) (buf : List Byte) (k : Nat) (last : U16)
    (c : U32 × U32) : List Event :=
  splitEvents k (u16At buf (100 * k + 2)) last c ++ (List.range 32).flatMap (returnEvents cfg cal word buf k)

theorem splitEvents_any (k : Nat) (pos last : U16) (c : U32 × U32) (b : StatusBit) :
    (splitEvents k pos last c).any (Event.raises b) = false := by
  unfold splitEvents; split <;> simp [Event.raises]

theorem processBlock_spec (word : U32) (buf : List Byte) (k : Nat) (s : State) :
    Advances (blockEvents s.cfg s.cal word buf k s.lastAz (s.curFramePoints, s.frameCount)) s (processBlock word buf s k) ∧
      (processBlock word buf s k).lastAz = u16At buf (100 * k + 2) ∧
      ∀ b, statusHas b (processBlock word buf s k) =
        (statusHas b s || (decide (b = .blkidOther) && unknownId s.cfg buf k) ||
          (blockEvents s.cfg s.cal word buf k s.lastAz (s.curFramePoints, s.frameCount)).any (Event.raises b)) := by
  unfold processBlock
  rw [show blockPos buf k = u16At buf (100 * k + 2) from memRead_two _ _]
  obtain ⟨h1, l1, b1⟩ := noteIdentifier_spec buf k s
  generalize noteIdentifier (blockId buf k) s = s1 at *
  obtain ⟨h2, l2, b2⟩ := segmentBlock_spec k (u16At buf (100 * k + 2)) s1
  have hf : (s1.curFramePoints, s1.frameCount) = (s.curFramePoints, s.frameCount) := h1.frames
  rw [l1, hf] at h2
  generalize segmentBlock k (u16At buf (100 * k + 2)) s1 = s2 at *
  obtain ⟨h3, l3, b3⟩ := processReturns_spec word buf k (List.range 32) s2
  rw [h2.cfg, h1.cfg, h2.cal, h1.cal] at h3 b3
  refine ⟨by simpa [blockEvents] using (h1.trans h2).trans h3, l3.trans l2, fun b => ?_⟩
  rw [b3, b2, b1, blockEvents, List.any_append, splitEvents_any, Bool.false_or]

/-! ### All the blocks of a data packet (R142) -/

theorem blocksEvents_cons (cfg : Config) (cal : Vector CalEntry 64) (word : U32) (buf : List Byte) (k : Nat) (ks : List Nat)
    (last : U16) (c : U32 × U32) :
    blocksEvents cfg cal word buf (k :: ks) last c =
      blockEvents cfg cal word buf k last c ++
        blocksEvents cfg cal word buf ks (u16At buf (100 * k + 2)) ((blockEvents cfg cal word buf k last c).foldl account c) :=
  rfl

/-- Blocks in the order given: the events, LAST_AZ after the last one, and the STATUS bits. -/
theorem processBlockList_spec (word : U32) (buf : List Byte) (ks : List Nat) (s : State) :
    Advances (blocksEvents s.cfg s.cal word buf ks s.lastAz (s.curFramePoints, s.frameCount)) s
        (ks.foldl (processBlock word buf) s) ∧
      (ks.foldl (processBlock word buf) s).lastAz = (ks.getLast?.map (fun k => u16At buf (100 * k + 2))).getD s.lastAz ∧
      ∀ b, statusHas b (ks.foldl (processBlock word buf) s) =
        (statusHas b s || (decide (b = .blkidOther) && ks.any (unknownId s.cfg buf)) ||
          (blocksEvents s.cfg s.cal word buf ks s.lastAz (s.curFramePoints, s.frameCount)).any (Event.raises b)) := by
  induction ks generalizing s with
  | nil => exact ⟨Advances.refl s, rfl, fun b => by simp [blocksEvents]⟩
  | cons k ks ih =>
    obtain ⟨h1, l1, b1⟩ := processBlock_spec word buf k s
    obtain ⟨h2, l2, b2⟩ := ih (processBlock word buf s k)
    rw [h1.cfg, h1.cal, l1, h1.frames] at h2 b2
    rw [l1] at l2
    refine ⟨by rw [blocksEvents_cons]; exact h1.trans h2, ?_, fun b => ?_⟩
    · rw [List.foldl_cons, l2]
      cases ks with
      | nil => rfl
      | cons k' ks => simp only [List.getLast?_cons, Option.map_some, Option.getD_some]
    · rw [List.foldl_cons, b2, b1, blocksEvents_cons, List.any_append, List.any_cons]
      cases statusHas b s <;> cases decide (b = .blkidOther) <;> cases unknownId s.cfg buf k <;>
        simp [Bool.or_left_comm, Bool.or_assoc]

/-- The block indices a data packet processes are those from PENDING_SKIP to 11 (R142). -/
theorem blocksFrom_eq (start : BitVec 4) : blocksFrom start = blocksProcessed start := by
  revert start; decide

/-- A data packet is its blocks, then the consumed skip, the count and EV_PACKET (R140, R142). -/
theorem dataPacket_spec (word : U32) (buf : List Byte) (s : State) :
    ∃ t, Advances (blocksEvents s.cfg s.cal word buf (blocksProcessed s.pendingSkip) s.lastAz (s.curFramePoints, s.frameCount)) s t ∧
      t.lastAz = ((blocksProcessed s.pendingSkip).getLast?.map (fun k => u16At buf (100 * k + 2))).getD s.lastAz ∧
      (∀ b, statusHas b t =
        (statusHas b s || (decide (b = .blkidOther) && (blocksProcessed s.pendingSkip).any (unknownId s.cfg buf)) ||
          (blocksEvents s.cfg s.cal word buf (blocksProcessed s.pendingSkip) s.lastAz (s.curFramePoints, s.frameCount)).any
            (Event.raises b))) ∧
      dataPacket word buf s =
        { t with
          pendingSkip := 0
          dataPktCount := s.dataPktCount + 1
          events := t.events ++ [.packet .data 1206 (u32At buf 1200) s.pendingSkip] } := by
  obtain ⟨h1, h2, h3⟩ := processBlockList_spec word buf (blocksFrom s.pendingSkip) s
  rw [blocksFrom_eq] at h1 h2 h3
  refine ⟨_, h1, h2, h3, ?_⟩
  unfold dataPacket processBlocks
  rw [blocksFrom_eq]
  simp only [emit, h1.dataPktCount]
  rw [show packetTimestamp buf = u32At buf 1200 from memRead_four _ _]
  rfl

end Sys2Proof.Machine
end

