-- ==== Sys2Proof/Laws/PerInstr.lean ====
section
/-! SUPPORT. Statements about every instruction as syntax, one lemma per constructor. -/

namespace Sys2Proof.Laws.PassesChecks

/-- The encoded command of a well-formed instruction passes the first three checks of R81: a defined opcode, no reserved bit set, the
payload length the format requires. -/
def Statement (i : Instr) : Prop :=
  i.wellFormed = true → ∃ op, opOfWord (encodeWord i) = some op ∧ encodeWord i &&& op.reservedMask = 0 ∧
    (encodePayload i).length = op.payloadLength (encodeWord i)

theorem nop : Statement .nop := fun _ => ⟨.nop, rfl, rfl, rfl⟩

theorem packet (len : U16) (payload : List Byte) : Statement (.packet len payload) := by
  intro h
  have hn := encodeWord_packet_toNat len payload
  have hl := len.isLt
  have ho : ((encodeWord (.packet len payload)).extractLsb' 28 4).toNat = 1 := by
    rw [BitVec.extractLsb'_toNat, hn, Nat.shiftRight_eq_div_pow]; omega
  refine ⟨.packet, by rw [opOfWord, ho]; rfl, (len16_reserved_iff _).mpr (by omega), ?_⟩
  have h' : payload.length = len.toNat := by simpa [Instr.wellFormed] using h
  simp only [encodePayload, Op.payloadLength, h', BitVec.extractLsb'_toNat, hn]
  omega

theorem flush : Statement .flush := fun _ => ⟨.flush, rfl, rfl, rfl⟩

theorem sessionReset : Statement .sessionReset := fun _ => ⟨.sessionReset, rfl, rfl, rfl⟩

/-- A word of layout `sel4` has its opcode on top and no reserved bit set. -/
theorem sel4 (op x : BitVec 4) :
    ((op ++ 0#24 ++ x : U32).extractLsb' 28 4).toNat = op.toNat ∧
      (op ++ 0#24 ++ x : U32) &&& 0x0FFFFFF0#32 = 0#32 := by
  have hx := x.isLt
  have ho := op.isLt
  constructor
  · rw [BitVec.extractLsb'_toNat, sel4_toNat, Nat.shiftRight_eq_div_pow]; omega
  · rw [sel4_reserved_iff, sel4_toNat]; omega

/-- A word of layout `laser_field` has its opcode on top and no reserved bit set. -/
theorem laserField (op : BitVec 4) (laser : Byte) (x : BitVec 4) :
    ((op ++ 0#4 ++ laser ++ 0#12 ++ x : U32).extractLsb' 28 4).toNat = op.toNat ∧
      (op ++ 0#4 ++ laser ++ 0#12 ++ x : U32) &&& 0x0F00FFF0#32 = 0#32 := by
  have hx := x.isLt
  have ho := op.isLt
  have hl := laser.isLt
  constructor
  · rw [BitVec.extractLsb'_toNat, laserField_toNat, Nat.shiftRight_eq_div_pow]; omega
  · rw [laserField_reserved_iff, laserField_toNat]; omega

theorem setSkip (skip : BitVec 4) : Statement (.setSkip skip) := fun _ =>
  ⟨.setSkip, by rw [opOfWord, encodeWord, (sel4 0x4#4 skip).1]; rfl, (sel4 0x4#4 skip).2, rfl⟩

theorem loadDefault : Statement .loadDefault := fun _ => ⟨.loadDefault, rfl, rfl, rfl⟩

theorem calWrite (laser : Byte) (field : BaseField) (value : F64) : Statement (.calWrite laser field value) := fun _ =>
  ⟨.calWrite, by rw [opOfWord, encodeWord, (laserField 0x6#4 laser field.sel).1]; rfl, (laserField 0x6#4 laser field.sel).2, rfl⟩

theorem calRead (laser : Byte) (field : CalField) : Statement (.calRead laser field) := fun _ =>
  ⟨.calRead, by rw [opOfWord, encodeWord, (laserField 0x7#4 laser field.sel).1]; rfl, (laserField 0x7#4 laser field.sel).2, rfl⟩

theorem regRead (reg : Reg) : Statement (.regRead reg) := fun _ =>
  ⟨.regRead, by rw [opOfWord, encodeWord, (sel4 0x8#4 reg.sel).1]; rfl, (sel4 0x8#4 reg.sel).2, rfl⟩

theorem statusClear (mask : BitVec 4) : Statement (.statusClear mask) := fun _ =>
  ⟨.statusClear, by rw [opOfWord, encodeWord, (sel4 0x9#4 mask).1]; rfl, (sel4 0x9#4 mask).2, rfl⟩

end Sys2Proof.Laws.PassesChecks
end

