-- ==== Sys2Proof/Laws/Step.lean ====
section
/-! SUPPORT. What a command and a step can do, said once: later proofs cite these case analyses and unfold neither. -/

namespace Sys2Proof.Machine

/-- A PACKET of LEN 1206 with all its bytes is a data packet; 0x100004B6 is its word (R87, R140). -/
theorem exec_dataPacket (p : List Byte) (s : State) (h : p.length = 1206) :
    exec (.packet 1206 p) s = .next (dataPacket 0x100004B6 p s) := by
  simp only [exec]
  unfold execPacket
  rw [if_neg (by rw [h]; decide), if_neg (by decide)]
  rfl

/-- What PACKET does: the rejection of a payload of the wrong length, a non-data packet or a data packet. -/
theorem exec_packet_cases {len : U16} {p : List Byte} {s t : State} (h : exec (.packet len p) s = .next t) :
    (p.length ≠ len.toNat ∧ t = raiseIllegal .payloadLength (encode (.packet len p)) s) ∨
      (p.length = len.toNat ∧ len ≠ 1206 ∧ t = nondataPacket len s) ∨
      (len = 1206 ∧ p.length = 1206 ∧ t = dataPacket 0x100004B6 p s) := by
  by_cases hl : p.length = len.toNat
  · by_cases h6 : len = 1206
    · subst h6
      rw [exec_dataPacket p s hl] at h
      cases h
      exact .inr (.inr ⟨rfl, hl, rfl⟩)
    · have hn : len.toNat ≠ 1206 := fun h' => h6 (BitVec.eq_of_toNat_eq h')
      simp only [exec] at h
      unfold execPacket at h
      rw [if_neg (not_not.mpr hl), if_pos (by simpa [pktLen] using hn)] at h
      cases h
      exact .inr (.inl ⟨hl, h6, rfl⟩)
  · simp only [exec] at h
    unfold execPacket at h
    rw [if_pos hl] at h
    cases h
    exact .inl ⟨hl, rfl⟩

/-- What LOAD_DEFAULT does, the profile left folded. -/
theorem exec_loadDefault_iff {s t : State} : exec .loadDefault s = .next t ↔ t = { s with cal := defaultProfile s.cfg } := by
  simp only [exec, execLoadDefault, Host.Outcome.next.injEq, eq_comm]

/-- Whichever action takes place next, the others stay as they were listed; what it overtakes are commands that wait on a hold. -/
theorem nextAction_cases {held : Bool} {l : List HostAction} {a : HostAction} {rest : List HostAction}
    (h : nextAction held l = some (a, rest)) :
    ∃ waiting post, l = waiting ++ a :: post ∧ rest = waiting ++ post ∧ (∀ x ∈ waiting, ∃ c, x = .command c) ∧
      (waiting ≠ [] → held = true) ∧ (held = true → ∀ c, a ≠ .command c) := by
  induction l generalizing rest with
  | nil => cases h
  | cons x l ih =>
    cases x with
    | takeEvent => cases h; exact ⟨[], _, rfl, rfl, by simp, by simp, by simp⟩
    | reset => cases h; exact ⟨[], _, rfl, rfl, by simp, by simp, by simp⟩
    | command c =>
      unfold nextAction at h
      split at h
      · next hh =>
        simp only [Option.map_eq_some_iff, Prod.mk.injEq] at h
        obtain ⟨r, hr, rfl, rfl⟩ := h
        obtain ⟨w, post, rfl, e, hw, -, hc⟩ := ih hr
        exact ⟨.command c :: w, post, rfl, by rw [e]; rfl, by simpa using hw, fun _ => hh, hc⟩
      · next hh => cases h; exact ⟨[], _, rfl, rfl, by simp, by simp, fun h => absurd h hh⟩

/-- No action takes place when none is listed, or when the block holds and only commands are. -/
theorem nextAction_eq_none {held : Bool} {l : List HostAction} :
    nextAction held l = none ↔ l = [] ∨ held = true ∧ ∀ x ∈ l, ∃ c, x = .command c := by
  induction l with
  | nil => simp [nextAction]
  | cons x l ih => cases x <;> cases held <;> simp_all [nextAction]

/-- An event removal or a reset overtakes commands that wait on a hold. -/
theorem nextAction_of_waiting {held : Bool} (waiting post : List HostAction) {a : HostAction}
    (hw : waiting = [] ∨ held = true ∧ ∀ x ∈ waiting, ∃ c, x = .command c) (ha : ∀ c, a ≠ .command c) :
    nextAction held (waiting ++ a :: post) = some (a, waiting ++ post) := by
  have hd : nextAction held (a :: post) = some (a, post) := by
    cases a with
    | command c => exact absurd rfl (ha c)
    | takeEvent => rfl
    | reset => rfl
  rcases hw with rfl | ⟨rfl, hw⟩
  · exact hd
  · induction waiting with
    | nil => exact hd
    | cons x w ih =>
      obtain ⟨c, rfl⟩ := hw x (List.mem_cons_self ..)
      rw [List.cons_append, nextAction, if_pos rfl, ih (fun y hy => hw y (List.mem_cons_of_mem _ hy))]
      rfl

/-- What a step can do: nothing, if no action is listed or the block holds; or one action, which overtakes only commands that wait on a
hold: the host removes an event, or finds none; reset; or a command, when the block does not hold. -/
theorem step_cases {s t : State} (h : step s = .next t) :
    (t = s ∧ (s.input = [] ∨ holds s = true ∧ ∀ x ∈ s.input, ∃ c, x = .command c)) ∨
      ∃ waiting a post, s.input = waiting ++ a :: post ∧ (∀ x ∈ waiting, ∃ c, x = .command c) ∧ (waiting ≠ [] → holds s = true) ∧
        ((a = .takeEvent ∧
            (t = { s with input := waiting ++ post } ∨ t = { s with input := waiting ++ post, events := s.events.tail })) ∨
          (a = .reset ∧ t = { State.resetWith s.cfg with input := waiting ++ post }) ∨
          (∃ c, a = .command c ∧ holds s = false ∧ waiting = [] ∧ runCommand c { s with input := post } = .next t)) := by
  unfold step at h
  rcases hn : nextAction (holds s) s.input with _ | ⟨a, rest⟩ <;> rw [hn] at h
  · cases h; exact .inl ⟨rfl, nextAction_eq_none.1 hn⟩
  · obtain ⟨waiting, post, e, rfl, hw, hh, hc⟩ := nextAction_cases hn
    refine .inr ⟨waiting, a, post, e, hw, hh, ?_⟩
    cases a with
    | takeEvent =>
      cases h
      refine .inl ⟨rfl, ?_⟩
      unfold takeEvent; split
      · exact .inl rfl
      · exact .inr rfl
    | reset => cases h; exact .inr (.inl ⟨rfl, rfl⟩)
    | command c =>
      have h0 : holds s = false := by rw [← Bool.not_eq_true]; exact fun h => hc h c rfl
      obtain rfl : waiting = [] := by
        by_contra hne; rw [hh hne] at h0; cases h0
      exact .inr (.inr ⟨c, rfl, h0, rfl, h⟩)

end Sys2Proof.Machine
end

