-- ==== Sys2Proof/Laws/Trig.lean ====
section
/-! SUPPORT. The default trig unit is correctly rounded: what its evaluation gives, and why a small argument is its own sine (R7, D9;
log 4). -/

namespace Sys2Proof.Machine

open Real

/-! ### A small argument -/

theorem mag_form (a : F64) : ∃ s e, mag a = s * 2 ^ e ∧ s < 2 ^ 53 ∧ (e = 0 ∨ 2 ^ 52 ≤ s) := by
  have hf := fracBits_lt a
  unfold mag
  split
  · exact ⟨fracBits a, 0, by simp, by omega, .inl rfl⟩
  · exact ⟨2 ^ 52 + fracBits a, expBits a - 1, by rw [Nat.shiftLeft_eq], by omega, .inr (by omega)⟩

/-- Below a finite value there is no other within a part in 2^54 of it. -/
theorem mag_gap (a b : F64) (h : mag b < mag a) : mag a ≤ (mag a - mag b) * 2 ^ 54 := by
  obtain ⟨s, e, ha, hs, hse⟩ := mag_form a
  obtain ⟨t, d, hb, ht, -⟩ := mag_form b
  rw [ha, hb] at h ⊢
  clear ha hb
  rcases Nat.lt_or_ge d e with hde | hde
  · have h52 : 2 ^ 52 ≤ s := by omega
    obtain ⟨j, rfl⟩ : ∃ j, e = d + 1 + j := ⟨e - d - 1, by omega⟩
    have hx : 1 ≤ 2 ^ (d + j) := Nat.one_le_two_pow
    have e1 : 2 ^ (d + 1 + j) = 2 * 2 ^ (d + j) := by rw [show d + 1 + j = (d + j) + 1 by ring, pow_succ]; ring
    have hle : t * 2 ^ d ≤ (2 ^ 53 - 1) * 2 ^ (d + j) := Nat.mul_le_mul (by omega) (Nat.pow_le_pow_right (by norm_num) (by omega))
    rw [e1] at h ⊢
    have e2 : s * (2 * 2 ^ (d + j)) = 2 * s * 2 ^ (d + j) := by ring
    rw [e2] at h ⊢
    generalize 2 ^ (d + j) = X at *
    have : (2 * s - (2 ^ 53 - 1)) * X ≤ 2 * s * X - t * 2 ^ d := by rw [Nat.sub_mul]; omega
    refine le_trans ?_ (Nat.mul_le_mul_right _ this)
    have : 2 * s ≤ (2 * s - (2 ^ 53 - 1)) * 2 ^ 54 := by omega
    calc 2 * s * X ≤ (2 * s - (2 ^ 53 - 1)) * 2 ^ 54 * X := Nat.mul_le_mul_right _ this
      _ = _ := by ring
  · obtain ⟨j, rfl⟩ := Nat.exists_eq_add_of_le hde
    have e1 : t * 2 ^ (e + j) = t * 2 ^ j * 2 ^ e := by rw [pow_add]; ring
    rw [e1] at h ⊢
    have hlt : t * 2 ^ j < s := lt_of_mul_lt_mul_right h (Nat.zero_le _)
    rw [← Nat.sub_mul]
    have : s ≤ (s - t * 2 ^ j) * 2 ^ 54 := by omega
    calc s * 2 ^ e ≤ (s - t * 2 ^ j) * 2 ^ 54 * 2 ^ e := Nat.mul_le_mul_right _ this
      _ = _ := by ring

/-- The sine of a finite argument of magnitude up to 2^-27 rounds to the argument. -/
theorem sin_small (x : F64) (hx : isFinite x = true) (h0 : mag x ≠ 0) (hm : mag x ≤ 1 <<< 1047) :
    roundsToReal (sin (f64Value x)) x := by
  have hU : (0 : ℝ) < 2 ^ 1074 := pow_pos (by norm_num) _
  have hval (f : F64) : (f64Value f : ℝ) = (signFactor (signBit f) : ℚ) * ((mag f : ℝ) / 2 ^ 1074) := by
    rw [f64Value_eq, Rat.cast_div, Rat.cast_mul, Rat.cast_natCast, Rat.cast_pow, Rat.cast_ofNat, mul_div_assoc]
  have hV : (mag x : ℝ) / 2 ^ 1074 ≤ 1 / 2 ^ 27 := by
    rw [Nat.one_shiftLeft] at hm
    have hm' := (Nat.cast_le (α := ℝ)).2 hm
    rw [Nat.cast_pow, Nat.cast_ofNat] at hm'
    have e : (2 : ℝ) ^ 1074 = 2 ^ 1047 * 2 ^ 27 := by rw [← pow_add]
    have hW : (0 : ℝ) < 2 ^ 1047 := pow_pos (by norm_num) _
    rw [e]
    clear hm e hU hval
    generalize (2 : ℝ) ^ 1047 = W at *
    rw [div_le_div_iff₀ (mul_pos hW (by norm_num)) (by norm_num)]
    linarith
  clear hm
  have gap (f : F64) (h : mag f < mag x) : (mag x : ℝ) / 2 ^ 1074 ≤ ((mag x : ℝ) / 2 ^ 1074 - mag f / 2 ^ 1074) * 2 ^ 54 := by
    have g := mag_gap x f h
    have g' : (mag x : ℝ) ≤ (mag x - mag f) * 2 ^ 54 := by
      have := (Nat.cast_le (α := ℝ)).2 g
      rwa [Nat.cast_mul, Nat.cast_sub h.le, Nat.cast_pow, Nat.cast_ofNat] at this
    rw [← sub_div, div_mul_eq_mul_div, div_le_div_iff_of_pos_right hU]; exact g'
  have hpos : 0 < (mag x : ℝ) / 2 ^ 1074 := div_pos (by exact_mod_cast Nat.pos_of_ne_zero h0) hU
  have mpos (f : F64) : 0 ≤ (mag f : ℝ) / 2 ^ 1074 := div_nonneg (Nat.cast_nonneg _) hU.le
  have mono (f : F64) : ¬ mag f < mag x → (mag x : ℝ) / 2 ^ 1074 ≤ mag f / 2 ^ 1074 := fun h => by
    rw [div_le_div_iff_of_pos_right hU]; exact_mod_cast not_lt.1 h
  generalize hVd : (mag x : ℝ) / 2 ^ 1074 = V at *
  have y1 := sin_lt hpos
  have y2 := sin_gt_sub_cube hpos
  have y3 : V ^ 3 / 6 ≤ V / 2 ^ 54 / 6 := by
    have : V ^ 2 ≤ (1 / 2 ^ 27) ^ 2 := pow_le_pow_left₀ hpos.le hV 2
    have : V ^ 3 ≤ V / 2 ^ 54 := by
      calc V ^ 3 = V * V ^ 2 := by ring
        _ ≤ V * (1 / 2 ^ 27) ^ 2 := mul_le_mul_of_nonneg_left this hpos.le
        _ = V / 2 ^ 54 := by ring
    linarith
  have y0 : 0 < sin V := by
    have : V / 2 ^ 54 / 6 < V := by rw [div_div, div_lt_iff₀ (by positivity)]; nlinarith
    linarith
  have near (G : ℝ) (hG : V ≤ G ∨ V ≤ (V - G) * 2 ^ 54) : |V - sin V| ≤ |G - sin V| ∧ (|V - sin V| = |G - sin V| → G = V) := by
    rw [abs_of_pos (show (0 : ℝ) < V - sin V by linarith)]
    rcases hG with h | h
    · rw [abs_of_pos (show (0 : ℝ) < G - sin V by linarith)]
      exact ⟨by linarith, fun h => by linarith⟩
    · have h' : V / 2 ^ 54 ≤ V - G := by rw [div_le_iff₀ (by positivity)]; exact h
      have hp54 : 0 < V / 2 ^ 54 := by positivity
      rw [abs_of_neg (show G - sin V < 0 by linarith)]
      exact ⟨by linarith, fun h => by linarith⟩
  have cases (f : F64) (σ : ℝ) (hσ : σ = 1 ∨ σ = -1) : V ≤ σ * ((mag f : ℝ) / 2 ^ 1074) ∨ V ≤ (V - σ * ((mag f : ℝ) / 2 ^ 1074)) * 2 ^ 54 := by
    rcases hσ with rfl | rfl
    · by_cases h : mag f < mag x
      · right; rw [one_mul]; exact gap f h
      · left; rw [one_mul]; exact mono f h
    · right; have := mpos f; nlinarith
  have sx : sin (f64Value x) = (signFactor (signBit x) : ℚ) * sin V := by
    rw [hval, hVd]; cases signBit x <;> simp [signFactor]
  have sg (b : Bool) : ((signFactor b : ℚ) : ℝ) = 1 ∨ ((signFactor b : ℚ) : ℝ) = -1 := by cases b <;> simp [signFactor]
  have hT := (Rat.cast_lt (K := ℝ)).2 one_lt_overflowThreshold
  rw [sx]
  refine ⟨?_, ?_, fun _ => ⟨hx, fun f hf => ?_⟩, fun h => ?_⟩
  · cases signBit x <;> simp [signFactor]; linarith
  · cases signBit x <;> simp [signFactor]; linarith
  · rw [hval x, hval f, hVd]
    have key : ∀ F : ℝ, |((signFactor (signBit x) : ℚ) : ℝ) * V - (signFactor (signBit x) : ℚ) * sin V| = |V - sin V| ∧
        |F - (signFactor (signBit x) : ℚ) * sin V| = |(signFactor (signBit x) : ℚ) * F - sin V| := by
      intro F
      rcases sg (signBit x) with h | h <;> rw [h]
      · simp
      · constructor <;> rw [← abs_neg] <;> congr 1 <;> ring
    rw [(key 0).1, (key _).2, ← mul_assoc]
    have hσ : ((signFactor (signBit x) : ℚ) : ℝ) * (signFactor (signBit f) : ℚ) = 1 ∨
        ((signFactor (signBit x) : ℚ) : ℝ) * (signFactor (signBit f) : ℚ) = -1 := by
      cases signBit x <;> cases signBit f <;> simp [signFactor]
    obtain ⟨a, b⟩ := near _ (cases f _ hσ)
    refine ⟨a, fun h => .inl ?_⟩
    have := b h
    rw [← Rat.cast_inj (α := ℝ), hval x, hval f, hVd, ← this, ← mul_assoc, ← mul_assoc]
    congr 1
    rcases sg (signBit x) with h | h <;> rw [h] <;> ring
  · exfalso
    have : |((signFactor (signBit x) : ℚ) : ℝ) * sin V| ≤ 1 := by
      rw [abs_mul, abs_of_pos y0]
      rcases sg (signBit x) with h | h <;> rw [h] <;> simp <;> exact sin_le_one V
    push_cast at hT
    linarith

/-! ### The whole evaluation -/

theorem mag_lt_of_finite (x : F64) (h : isFinite x = true) : mag x < 2 ^ 2098 := by
  have hf := fracBits_lt x
  have he := expBits_lt x
  unfold isFinite isSpecial at h
  simp at h
  unfold mag
  split
  · exact lt_of_lt_of_le hf (Nat.pow_le_pow_right (by norm_num) (by norm_num))
  · rw [Nat.shiftLeft_eq]
    calc (2 ^ 52 + fracBits x) * 2 ^ (expBits x - 1) < 2 ^ 53 * 2 ^ (expBits x - 1) :=
          Nat.mul_lt_mul_of_pos_right (by omega) (Nat.pow_pos (by norm_num))
      _ ≤ 2 ^ 53 * 2 ^ 2045 := Nat.mul_le_mul_left _ (Nat.pow_le_pow_right (by norm_num) (by omega))
      _ = 2 ^ 2098 := by rw [← pow_add]

theorem f64Value_real (f : F64) : (f64Value f : ℝ) = (signFactor (signBit f) : ℚ) * ((mag f : ℝ) / 2 ^ 1074) := by
  rw [f64Value_eq, Rat.cast_div, Rat.cast_mul, Rat.cast_natCast, Rat.cast_pow, Rat.cast_ofNat, mul_div_assoc]

/-- A binary64 value rounds to itself. -/
theorem roundsToReal_of_eq (a : F64) (h : isFinite a = true) (y : ℝ) (hy : (f64Value a : ℝ) = y)
    (hs : y = 0 ∨ 0 < y ∧ signBit a = false) (h1 : |y| ≤ 1) : roundsToReal y a := by
  have hT := (Rat.cast_lt (K := ℝ)).2 one_lt_overflowThreshold
  push_cast at hT
  refine ⟨fun h => ?_, fun h => ?_, fun _ => ⟨h, fun f hf => ?_⟩, fun h => ?_⟩
  · rcases hs with h' | h'
    · linarith
    · linarith [h'.1]
  · rcases hs with h' | h'
    · linarith
    · exact h'.2
  · rw [hy, sub_self, abs_zero]
    refine ⟨abs_nonneg _, fun h => .inl ?_⟩
    have := abs_eq_zero.1 h.symm
    rw [← Rat.cast_inj (α := ℝ)]; linarith
  · linarith

/-- The default evaluation gives the sine (shift 0) or the cosine (shift 1) of every finite magnitude rounded, with the sign of a negative
argument put on it. -/
theorem trigDefault_spec (shift m : ℕ) (h : m ≠ 0) (s : Bool) (hm : m < 2 ^ 2098) :
    roundsToReal ((signFactor s : ℚ) * sin ((m : ℝ) / 2 ^ 1074 + shift * (π / 2)))
      (withSign ((trigDefault shift m h).1 != s) (trigDefault shift m h).2) := by
  unfold trigDefault
  split
  · next r hr =>
    obtain ⟨d, hd, hdr⟩ := List.exists_of_findSome?_eq_some hr
    have ok : d.Ok m := by
      simp only [precisions, List.mem_cons, List.not_mem_nil, or_false] at hd
      rcases hd with rfl | rfl | rfl <;> exact fixedPrecision_ok _ m (by norm_num) (by norm_num) hm
    exact evaluate_spec d shift m r.2 r.1 s ok hdr
  · exact evaluate_spec _ shift m _ _ s (widePrecision_ok m _ (Nat.find_spec (evaluate_settles shift m h)).1) (Option.some_get _).symm

end Sys2Proof.Machine
end

