-- ==== Sys2Proof/Tests/Slice0.lean ====
section
/-! SUPPORT. The model's own tests, their expected values taken from spec/95_test_vectors.md (named in each docstring) or written out from
the encoding rules, and the witnesses that the statements' hypotheses can be met, at the ends of their ranges. -/

namespace Sys2Proof.Tests

open Sys2Proof Sys2Proof.Machine

/- One test after the other: checked at the same time they would together hold much memory. -/
set_option Elab.async false

/-! ### Helpers -/

/-- The state after a command issued at `s`, the events of `s` dropped first. -/
def after (c : Command) (s : State) : State :=
  match step { s with events := [], input := [.command c] } with
  | .next t => t
  | .fault _ => s
  | .refused _ => s

/-- A data packet whose blocks all have one identifier and one position, with one return (k, j) of distance and intensity given. -/
def packetWith (id pos : U16) (k j : Nat) (dist : U16) (inty : Byte) (ts : U32) : List Byte :=
  (List.range 12).flatMap (fun k' =>
    [id.setWidth 8, id.extractLsb' 8 8, pos.setWidth 8, pos.extractLsb' 8 8]
      ++ (List.range 32).flatMap (fun j' =>
        if k' = k ∧ j' = j then [dist.setWidth 8, dist.extractLsb' 8 8, inty] else [0, 0, 0]))
    ++ [ts.setWidth 8, ts.extractLsb' 8 8, ts.extractLsb' 16 8, ts.extractLsb' 24 8, 0, 0]

/-- A data packet without returns whose block k has position `pos k`. -/
def packetAt (pos : Nat → U16) : List Byte :=
  (List.range 12).flatMap (fun k => [0xff, 0xee, (pos k).setWidth 8, (pos k).extractLsb' 8 8] ++ List.replicate 96 0)
    ++ [0, 0, 0, 0, 0, 0]

/-- The state after reset, with the next data packet starting at block `k`. -/
def startingAt (k : BitVec 4) : State := { State.reset with pendingSkip := k }

/-- The default state with the entry of laser 40 replaced by the one these base fields give. -/
def withLaser40 (az vert dist voff hoff : F64) : State :=
  setCalEntry 40 (deriveEntry defaultConfig ⟨az, vert, dist, voff, hoff, 0, 0, 0, 0⟩) State.reset

/-- The events of the corrector for one return of distance `dist` at azimuth `az` of laser `id` (intensity 1, timestamp 2, block 3). -/
def corrected (id : BitVec 6) (az dist : U16) (s : State) : List Event :=
  (correctReturn 0x100004B6 id az dist 1 2 3 { s with events := [] }).events

/-! ### Well-formedness -/

theorem test_wellFormed_refuses_short_packet : (Instr.packet 3 [1, 2]).wellFormed = false := by decide

theorem test_wellFormed_refuses_long_packet : (Instr.packet 0 [1]).wellFormed = false := by decide

theorem test_wellFormed_accepts_packet : (Instr.packet 2 [1, 2]).wellFormed = true := by decide

/-! ### Decoding: a word of every constructor, written out from R80 -/

theorem test_decode_nop : decode ⟨0x00000000, []⟩ = .ok .nop := by decide

theorem test_decode_packet : decode ⟨0x10000002, [0xAB, 0xCD]⟩ = .ok (.packet 2 [0xAB, 0xCD]) := by decide

theorem test_decode_flush : decode ⟨0x20000000, []⟩ = .ok .flush := by decide

theorem test_decode_sessionReset : decode ⟨0x30000000, []⟩ = .ok .sessionReset := by decide

theorem test_decode_setSkip : decode ⟨0x40000005, []⟩ = .ok (.setSkip 5) := by decide

theorem test_decode_loadDefault : decode ⟨0x50000000, []⟩ = .ok .loadDefault := by decide

/-- The bytes of T-CAL-4: 0.2 is 0x3FC999999999999A. -/
theorem test_decode_calWrite :
    decode ⟨0x60280003, [0x9a, 0x99, 0x99, 0x99, 0x99, 0x99, 0xc9, 0x3f]⟩ = .ok (.calWrite 40 .vOffCorr 0x3FC999999999999A) := by
  decide

theorem test_decode_calRead : decode ⟨0x701F0007, []⟩ = .ok (.calRead 31 (.derived .sinVOff)) := by decide

theorem test_decode_regRead : decode ⟨0x80000003, []⟩ = .ok (.regRead .frameCount) := by decide

theorem test_decode_statusClear : decode ⟨0x90000006, []⟩ = .ok (.statusClear 6) := by decide

/-- T-CAL-6, T-DEC-11 and the table of control commands: the first check that fails names the sub-reason. -/
theorem test_decode_rejections :
    decode ⟨0xFFFFFFFF, [0, 0, 0]⟩ = .error .reservedOpcode ∧ decode ⟨0x10010000, []⟩ = .error .reservedBit ∧
      decode ⟨0x60010010, List.replicate 8 0⟩ = .error .reservedBit ∧
      decode ⟨0x60010000, List.replicate 7 0⟩ = .error .payloadLength ∧
      decode ⟨0x60010009, List.replicate 8 0⟩ = .error .reservedValue ∧ decode ⟨0x8000000F, []⟩ = .error .reservedValue ∧
      decode ⟨0x60400005, List.replicate 8 0⟩ = .error .derivedField := by
  decide

/-- The row of each mnemonic of the opcode table, operand bits 0, decodes to its instruction. -/
theorem test_opcode_table_rows :
    [0x00000000, 0x10000000, 0x20000000, 0x30000000, 0x40000000, 0x50000000, 0x60000000, 0x70000000, 0x80000000, 0x90000000].map
        (decodeTableWord 32) =
      [some .nop, some (.packet 0 []), some .flush, some .sessionReset, some (.setSkip 0), some .loadDefault,
        some (.calWrite 0 .azCorr 0), some (.calRead 0 (.base .azCorr)), some (.regRead .status), some (.statusClear 0)] := by
  decide

/-- A placed word is the next instruction: a REG_READ of PENDING_SKIP runs as the first after reset. -/
theorem test_withFetchWord_runs :
    (match step (State.reset.withFetchWord 32 0x80000002) with
      | .next t => t.events
      | .fault _ => []
      | .refused _ => []) = [.regData 2 0] := by
  decide +kernel

/-! ### The commands -/

/-- Control commands 1 and 2. -/
theorem test_nop :
    (after ⟨0x00000000, []⟩ State.reset).events = [] ∧
      (after ⟨0x00000000, [0]⟩ State.reset).events = [.error .illegalCmd 0x00000000 3 1 0] := by
  decide +kernel

/-- T-DEC-5, its second point, from block 4 on: laser 33 of an HI block. -/
theorem test_packet_data :
    (after ⟨0x100004B6, packetWith 0xDDFF 9000 11 1 2500 0x80 0x12345678⟩ (startingAt 11)).events =
      [.point
        { x := 0x4014000000000000, y := 0x3CB60FAFBFD97309, z := 0, distance := 0x4014000000000000, intensity := 0x80,
          laserId := 33, azimuth := 9000, timestamp := 0x12345678 },
        .packet .data 1206 0x12345678 11] := by
  decide +kernel

/-- T-DEC-2 and T-DEC-3. -/
theorem test_packet_other_lengths :
    (after ⟨0x10000000, []⟩ State.reset).events = [.packet .notData 0 0 0] ∧
      (after ⟨0x10000000, []⟩ State.reset).nondataPktCount = 1 ∧
      (after ⟨0x100004B6, List.replicate 1205 0⟩ State.reset).events = [.error .illegalCmd 0x100004B6 3 1205 0] := by
  decide +kernel

/-- T-SEG-8: an empty flush is emitted, and the second one closes frame 1. -/
theorem test_flush :
    (after ⟨0x20000000, []⟩ State.reset).events = [.frameEnd .flush 0 0 0] ∧
      (after ⟨0x20000000, []⟩ (after ⟨0x20000000, []⟩ State.reset)).events = [.frameEnd .flush 0 0 1] := by
  decide +kernel

/-- R208's example: the session registers are 0, the packet counter is kept. -/
theorem test_sessionReset :
    let t := after ⟨0x30000000, []⟩ { State.reset with lastAz := 2300, frameCount := 2, curFramePoints := 7, pendingSkip := 3, dataPktCount := 3 }
    t.lastAz = 0 ∧ t.frameCount = 0 ∧ t.curFramePoints = 0 ∧ t.pendingSkip = 0 ∧ t.dataPktCount = 3 := by
  decide +kernel

/-- Control commands 16 and 17. -/
theorem test_setSkip :
    (after ⟨0x40000010, []⟩ State.reset).pendingSkip = 0 ∧ (after ⟨0x4000000F, []⟩ State.reset).pendingSkip = 15 := by
  decide +kernel

/-- T-CAL-1 and T-CAL-7: the row of laser 0 after LOAD_DEFAULT, whatever stood there. -/
theorem test_loadDefault :
    calEntry (after ⟨0x50000000, []⟩ (setCalEntry 0 ⟨1, 2, 3, 4, 5, 6, 7, 8, 9⟩ State.reset)) 0 =
      ⟨0, 0xC03EAB851EB851EC, 0, 0, 0, 0xBFE052ADC7A948A7, 0x3FEB86194618211A, 0x8000000000000000, 0⟩ := by
  decide +kernel

/-- T-CAL-4, steps 1 and 2: the derived fields of laser 40 (10.0 degrees, then 0.2 m). -/
theorem test_calWrite :
    calEntry (after ⟨0x60280003, [0x9a, 0x99, 0x99, 0x99, 0x99, 0x99, 0xc9, 0x3f]⟩
        (after ⟨0x60280001, [0, 0, 0, 0, 0, 0, 0x24, 0x40]⟩ State.reset)) 40 =
      ⟨0, 0x4024000000000000, 0, 0x3FC999999999999A, 0, 0x3FC63A1A7E0B7389, 0x3FEF838B8C811C17, 0x3FA1C81531A2C2D4,
        0x3FC936093D341679⟩ := by
  decide +kernel

/-- T-CAL-6: LASER 64 and 255 are unknown. -/
theorem test_calWrite_unknown_laser :
    (after ⟨0x60400000, List.replicate 8 0⟩ State.reset).events = [.error .unknownLaser 0x60400000 64 0 0] ∧
      (after ⟨0x60FF0000, List.replicate 8 0⟩ State.reset).events = [.error .unknownLaser 0x60FF0000 255 0 0] := by
  decide +kernel

/-- T-CAL-2 and T-CAL-6. -/
theorem test_calRead :
    (after ⟨0x70000007, []⟩ State.reset).events = [.calData 0 7 0x8000000000000000] ∧
      (after ⟨0x703F0006, []⟩ State.reset).events = [.calData 63 6 0x3FF0000000000000] ∧
      (after ⟨0x70400000, []⟩ State.reset).events = [.error .unknownLaser 0x70400000 64 0 0] := by
  decide +kernel

/-- Control commands 10 and 7; a u16 register is zero-extended. -/
theorem test_regRead :
    (after ⟨0x80000000, []⟩ { State.reset with status := 8 }).events = [.regData 0 8] ∧
      (after ⟨0x80000001, []⟩ { State.reset with lastAz := 1100 }).events = [.regData 1 1100] ∧
      (after ⟨0x80000007, []⟩ State.reset).events = [.error .illegalCmd 0x80000007 4 0 0] := by
  decide +kernel

/-- R232's example, and control command 13. -/
theorem test_statusClear :
    (after ⟨0x90000001, []⟩ { State.reset with status := 3 }).status = 2 ∧
      (after ⟨0x90000100, []⟩ State.reset).status = 8 := by
  decide +kernel

/-! ### The angle tables and the corrector -/

/-- T-LUT-2, T-LUT-6, T-LUT-8. -/
theorem test_angle_tables :
    lutSin defaultConfig 1 = 0x3F26E05A676CADA7 ∧ lutCos defaultConfig 1 = 0x3FEFFFFFF7D2AF5F ∧
      lutSin defaultConfig 18000 = 0x3CA1A62633145C07 ∧ lutCos defaultConfig 18000 = 0xBFF0000000000000 ∧
      lutSin defaultConfig 35999 = 0xBF26E05A676C4F62 := by
  decide +kernel

/-- T-CAL-5: the sines of -9.33 and -9.3299999 degrees. -/
theorem test_trig_digit_sensitivity :
    trigSin defaultConfig (toRadians 0xC022A8F5C28F5C29) = 0xBFC4C05D73C46A0E ∧
      trigSin defaultConfig (toRadians 0xC022A8F5BF345DD6) = 0xBFC4C05D70119A4B := by
  decide +kernel

/-- T-COR-4 and T-COR-5b: the greatest distance, and the first azimuth off the table. -/
theorem test_corrector_fast_path :
    corrected 40 18000 65535 State.reset =
        [.point ⟨0x3D121283A2BEA0B7, 0xC060623D70A3D70A, 0, 0x4060623D70A3D70A, 1, 40, 18000, 2⟩] ∧
      corrected 40 36001 5000 State.reset = [.error .azRange 0x100004B6 40 3 36001] := by
  decide +kernel

/-- T-COR-15: the slow path at the greatest position (azCorr 0.01, 0x3F847AE147AE147B). -/
theorem test_corrector_slow_path :
    corrected 40 65535 5000 (withLaser40 0x3F847AE147AE147B 0 0 0 0) =
      [.point ⟨0xC022135FBC167E75, 0x40111E9B4B8BB222, 0, 0x4024000000000000, 1, 40, 65535, 2⟩] := by
  decide +kernel

/-- T-COR-12: every offset in use (10.0 degrees, 0.1, 0.2 and 0.05 m). -/
theorem test_corrector_offsets :
    corrected 40 4500 5000 (withLaser40 0 0x4024000000000000 0x3FB999999999999A 0x3FC999999999999A 0x3FA999999999999A) =
      [.point ⟨0x401BE4BA09A48905, 0x401C2D226AEC8692, 0x3FFF368299FB5E45, 0x4024333333333333, 1, 40, 4500, 2⟩] := by
  decide +kernel

/-- T-SEG-13 and T-SEG-5b: positions are compared as unsigned 16-bit values, and an equal position does not split. -/
theorem test_segmenter :
    (segmentBlock 1 0 { State.reset with lastAz := 65535 }).events = [.frameEnd .split 1 0 0] ∧
      (segmentBlock 2 65535 State.reset).events = [] ∧
      (segmentBlock 0 700 { State.reset with lastAz := 700 }).events = [] := by
  decide +kernel

/-- T-SEG-11, its last blocks: the skipped blocks are not examined. -/
theorem test_packet_skips_blocks :
    let t := after ⟨0x100004B6, packetAt (fun k => if k < 10 then 35000 else 20)⟩ (startingAt 10)
    t.events = [.packet .data 1206 0 10] ∧ t.lastAz = 20 ∧ t.pendingSkip = 0 ∧ t.dataPktCount = 1 := by
  decide +kernel

/-! ### Witnesses: the hypotheses of the statements can be met

One theorem a statement with hypotheses, named after it: a concrete state and operands that meet them all, one for each clause, at the
ends of the ranges. -/

/-- A data packet of zero bytes. -/
def zeroPacket : List Byte := List.replicate 1206 0

/-- The all-zero packet with every identifier BLKID_HI. -/
def hiPacket : List Byte :=
  (List.range 1206).map (fun a => if a < 1200 ∧ a % 100 = 0 then 0xFF else if a < 1200 ∧ a % 100 = 1 then 0xDD else 0)

/-- The state after reset with one action waiting. -/
def waiting (a : HostAction) : State := { State.reset with input := [a] }

theorem zeroPacket_length : zeroPacket.length = 1206 := List.length_replicate

theorem hiPacket_length : hiPacket.length = 1206 := by rw [hiPacket, List.length_map, List.length_range]

theorem witness_DecodeInvertsEncode :
    (Instr.packet 0 []).wellFormed = true ∧ (Instr.packet 0xFFFF (List.replicate 65535 0)).wellFormed = true ∧
      (Instr.calRead 255 (.derived .cosVOff)).wellFormed = true := by
  refine ⟨rfl, ?_, rfl⟩
  rw [Instr.wellFormed, List.length_replicate]
  rfl

theorem witness_EncodeInvertsDecode :
    decode ⟨0x90000000, []⟩ = .ok (.statusClear 0) ∧ decode ⟨0x9000000F, []⟩ = .ok (.statusClear 15) := by decide

theorem witness_SyntaxTableWordsDecode :
    ([] : List Byte).length = (0 : U16).toNat ∧ (List.replicate 65535 (0 : Byte)).length = (0xFFFF : U16).toNat ∧
      ((4 : BitVec 4), BaseField.hOffCorr) ∈ [((0 : BitVec 4), BaseField.azCorr), (1, .vertCorr), (2, .distCorr), (3, .vOffCorr), (4, .hOffCorr)] := by
  refine ⟨rfl, by rw [List.length_replicate]; rfl, by simp⟩

theorem witness_MalformedCommandsAreRejectedInOrder :
    firstFailure ⟨0xA0000000, []⟩ = 1 ∧ firstFailure ⟨0x0F000000, []⟩ = 2 ∧ firstFailure ⟨0x10000001, []⟩ = 3 ∧
      firstFailure ⟨0x80000007, []⟩ = 4 ∧ firstFailure ⟨0x70000009, []⟩ = 4 ∧
      firstFailure ⟨0x60000005, List.replicate 8 0⟩ = 5 ∧ firstFailure ⟨0x80000006, []⟩ = 0 ∧
      firstFailure ⟨0x60000004, List.replicate 8 0⟩ = 0 := by
  decide

theorem witness_StepRunsTheDecodedCommand :
    (waiting (.command ⟨0, []⟩)).input = [.command ⟨0, []⟩] ∧ holds (waiting (.command ⟨0, []⟩)) = false ∧
      decode ⟨0, []⟩ = .ok .nop ∧ decode ⟨1, []⟩ = .error .reservedBit :=
  ⟨rfl, rfl, rfl, rfl⟩

/-- A block whose channel holds two events is full. -/
def fullBlock (actions : List HostAction) : State :=
  { State.reset with
    cfg := { defaultConfig with eventCapacity := some 2 }
    events := [.regData 0 0, .regData 0 1]
    input := actions }

/-- R31, D25: with a full channel the block does not step. -/
theorem test_full_channel_takes_no_command :
    step (fullBlock [.command ⟨0x20000000, []⟩]) = .next (fullBlock [.command ⟨0x20000000, []⟩]) := rfl

/-- R266: the hold ends when the host removes an event; the command that waited is still there (log 7). -/
theorem test_event_removal_ends_the_hold :
    step (fullBlock [.command ⟨0x20000000, []⟩, .takeEvent]) =
      .next { fullBlock [.command ⟨0x20000000, []⟩] with events := [.regData 0 1] } := rfl

theorem witness_IdleHoldAndHostActions :
    State.reset.input = [] ∧ (waiting .takeEvent).events = [] ∧ (waiting .takeEvent).input = [] ++ .takeEvent :: [] ∧
      (let s := fullBlock [.command ⟨0, []⟩]
       s.cfg.eventCapacity = some 2 ∧ 2 ≤ s.events.length ∧ ∀ a ∈ s.input, ∃ c, a = .command c) ∧
      (let s := fullBlock [.command ⟨0, []⟩, .takeEvent]
       s.cfg.eventCapacity = some 2 ∧ s.events = .regData 0 0 :: [.regData 0 1] ∧ s.events.length = 2 ∧ holds s = true ∧
         s.input = [.command ⟨0, []⟩] ++ .takeEvent :: [] ∧ s.cfg.eventCapacity ≠ some 0) ∧
      (let s := fullBlock [.command ⟨0, []⟩, .reset]
       holds s = true ∧ s.input = [.command ⟨0, []⟩] ++ .reset :: []) :=
  ⟨rfl, rfl, rfl, ⟨rfl, by decide, by simp [fullBlock]⟩, ⟨rfl, rfl, rfl, rfl, rfl, by decide⟩, rfl, rfl⟩

theorem witness_StepKeepsDerivedFieldsConsistent :
    ∃ t, derivedConsistent (waiting (.command ⟨0, []⟩)) ∧ step (waiting (.command ⟨0, []⟩)) = .next t := by
  refine ⟨_, fun k hk => ?_, rfl⟩
  show (defaultProfile defaultConfig)[k] = deriveEntry defaultConfig (defaultProfile defaultConfig)[k]
  rw [getElem_defaultProfile, deriveEntry_defaultEntry]

theorem witness_StatusReservedBitsStayZero :
    ∃ t u, ({ waiting (.command ⟨0, []⟩) with status := 0xF } : State).status &&& 0xFFFFFFF0 = 0 ∧
      step { waiting (.command ⟨0, []⟩) with status := 0xF } = .next t ∧ exec (.regRead .status) State.reset = .next u :=
  ⟨_, _, by decide, rfl, rfl⟩

theorem witness_StatusBitsAreSticky :
    ∃ t, step { waiting (.command ⟨0x90000002, []⟩) with status := 6 } = .next t ∧
      statusHas .azRange { waiting (.command ⟨0x90000002, []⟩) with status := 6 } = true ∧
      statusHas .unknownLaser { waiting (.command ⟨0x90000002, []⟩) with status := 6 } = true :=
  ⟨_, rfl, by decide, by decide⟩

theorem witness_ConfigurationNeverChanges : ∃ t, step (waiting (.command ⟨0x50000000, []⟩)) = .next t := ⟨_, rfl⟩

theorem witness_StepsTakeActionsInOrderAndOnlyAppendEvents :
    ∃ t u, step (waiting .takeEvent) = .next t ∧ runCommand ⟨0x20000000, []⟩ State.reset = .next u := ⟨_, _, rfl, rfl⟩

theorem witness_CountersCountPackets :
    (∃ t, runCommand ⟨0x100004B6, zeroPacket⟩ State.reset = .next t) ∧
      opNumber ⟨0x100004B6, zeroPacket⟩ = 1 ∧ firstFailure ⟨0x100004B6, zeroPacket⟩ = 0 ∧
      requiredLength ⟨0x100004B6, zeroPacket⟩ = 1206 ∧
      firstFailure ⟨0x100004B5, List.replicate 1205 0⟩ = 0 ∧ requiredLength ⟨0x100004B5, List.replicate 1205 0⟩ = 1205 := by
  refine ⟨⟨dataPacket 0x100004B6 zeroPacket State.reset, ?_⟩, by decide +kernel, by decide +kernel, by decide +kernel,
    by decide +kernel, by decide +kernel⟩
  have hd : decode ⟨0x100004B6, zeroPacket⟩ = .ok (.packet 1206 zeroPacket) := by decide +kernel
  unfold runCommand
  rw [hd]
  exact exec_dataPacket zeroPacket State.reset zeroPacket_length

theorem witness_SessionRegistersFrame : ∃ t, exec (.packet 1206 zeroPacket) (startingAt 11) = .next t :=
  ⟨_, exec_dataPacket _ _ zeroPacket_length⟩

theorem witness_CalibrationFrame : ∃ t u, exec (.calWrite 63 .azCorr 1) State.reset = .next t ∧ exec .nop State.reset = .next u :=
  ⟨_, _, rfl, rfl⟩

theorem witness_FrameCountersFollowEvents :
    ∃ t u, runCommand ⟨0x20000000, []⟩ State.reset = .next t ∧ decode ⟨0x20000000, []⟩ ≠ .ok .sessionReset ∧
      runCommand ⟨0x30000000, []⟩ State.reset = .next u ∧ decode ⟨0x30000000, []⟩ = .ok .sessionReset :=
  ⟨_, _, rfl, by decide, rfl, rfl⟩

theorem witness_SessionFramesAreNumberedAndCounted :
    ∃ t, (∀ a ∈ (waiting (.command ⟨0x20000000, []⟩)).input, ∃ c, a = .command c ∧ decode c ≠ .ok .sessionReset) ∧
      (waiting (.command ⟨0x20000000, []⟩)).curFramePoints = 0 ∧ (waiting (.command ⟨0x20000000, []⟩)).frameCount = 0 ∧
      Sys2Proof.core.run 2 (waiting (.command ⟨0x20000000, []⟩)) = .next t :=
  ⟨_, fun a ha => ⟨⟨0x20000000, []⟩, by simpa [waiting] using ha, by decide⟩, rfl, rfl, rfl⟩

theorem witness_ErrorEventsAndStatusBitsAgree :
    ∃ t, runCommand ⟨0x70400000, []⟩ State.reset = .next t ∧ statusHas .unknownLaser t = true ∧
      statusHas .unknownLaser State.reset = false ∧
      Event.error .unknownLaser 0x70400000 64 0 0 ∈ t.events :=
  ⟨_, rfl, rfl, rfl, .head _⟩

theorem witness_OnlyCalCommandsRaiseUnknownLaser :
    ∃ t, runCommand ⟨0x70FF0000, []⟩ State.reset = .next t ∧
      t.events = State.reset.events ++ [.error .unknownLaser 0x70FF0000 255 0 0] ∧
      Event.error .unknownLaser 0x70FF0000 255 0 0 ∈ [Event.error .unknownLaser 0x70FF0000 255 0 0] :=
  ⟨_, rfl, rfl, .head _⟩

theorem witness_SafeRunReportsNoError :
    ∃ t, (∀ a ∈ (waiting (.command ⟨0x20000000, []⟩)).input, ∃ c, a = .command c ∧ opNumber c ≠ 9) ∧
      Sys2Proof.core.run 2 (waiting (.command ⟨0x20000000, []⟩)) = .next t ∧ noRecordedFault t = true :=
  ⟨_, fun a ha => ⟨⟨0x20000000, []⟩, by simpa [waiting] using ha, by decide⟩, rfl, rfl⟩

/-- The premises of the clauses that every command of an opcode other than the good ones is rejected, for each opcode. -/
theorem witness_rejectsAllBut :
    opNumber ⟨0x00000001, []⟩ = 0 ∧ opNumber ⟨0x20000000, [0]⟩ = 2 ∧ opNumber ⟨0x30000001, []⟩ = 3 ∧ opNumber ⟨0x40000010, []⟩ = 4 ∧
      opNumber ⟨0x50000001, []⟩ = 5 ∧ opNumber ⟨0x60000005, List.replicate 8 0⟩ = 6 ∧ opNumber ⟨0x70000009, []⟩ = 7 ∧
      opNumber ⟨0x80000007, []⟩ = 8 ∧ opNumber ⟨0x90000010, []⟩ = 9 ∧
      ¬ ((⟨0x80000007, []⟩ : Command).payload = [] ∧ (⟨0x80000007, []⟩ : Command).word.toNat ≤ 0x80000006) := by
  decide

theorem witness_FlushClosesTheFrame :
    ∃ t u, exec .flush { State.reset with lastAz := 1000 } = .next t ∧ exec .flush t = .next u ∧
      (999 : U16) < ({ State.reset with lastAz := 1000 } : State).lastAz :=
  ⟨_, _, rfl, rfl, by decide⟩

theorem witness_SessionResetClearsTheSession : ∃ t, exec .sessionReset { State.reset with lastAz := 65535 } = .next t := ⟨_, rfl⟩

theorem witness_SetSkipWritesPendingSkip :
    (∃ t u, exec (.setSkip 3) State.reset = .next t ∧ (0 : U16) ≠ 1206 ∧ exec (.packet 0 []) t = .next u) ∧
      ∃ t u, 12 ≤ (12 : BitVec 4).toNat ∧ 12 ≤ (15 : BitVec 4).toNat ∧ zeroPacket.length = 1206 ∧
        exec (.setSkip 12) State.reset = .next t ∧ exec (.setSkip 15) State.reset = .next u :=
  ⟨⟨_, _, rfl, by decide, rfl⟩, _, _, by decide, by decide, zeroPacket_length, rfl, rfl⟩

theorem witness_LoadDefaultWritesTheBuiltInProfile :
    State.reset.cfg = defaultConfig ∧ signBit (0xC03EAB851EB851EC : F64) = true ∧ (32 ≤ 32 ∧ 32 < 64) := ⟨rfl, by decide, by decide⟩

theorem witness_CalWriteWritesOneEntry :
    ((0 : Byte).toNat < 64 ∧ (63 : Byte).toNat < 64) ∧ (64 ≤ (64 : Byte).toNat ∧ 64 ≤ (255 : Byte).toNat) ∧
      ∃ t, (State.reset.cal[63] = deriveEntry State.reset.cfg State.reset.cal[63]) ∧
        exec (.calWrite 63 .hOffCorr 1) State.reset = .next t := by
  refine ⟨by decide, by decide, _, ?_, rfl⟩
  show (defaultProfile defaultConfig)[63] = deriveEntry defaultConfig (defaultProfile defaultConfig)[63]
  rw [getElem_defaultProfile, deriveEntry_defaultEntry]

theorem witness_CalReadReturnsTheStoredBits :
    ((0 : Byte).toNat < 64 ∧ (63 : Byte).toNat < 64) ∧ 64 ≤ (64 : Byte).toNat ∧ 64 ≤ (255 : Byte).toNat := by decide

theorem witness_PseudoCommandsExpand : (0 : Byte).toNat < 64 ∧ (63 : Byte).toNat < 64 := by decide

theorem witness_NonDataPacketOnlyCounts :
    ((0 : U16) ≠ 1206 ∧ ([] : List Byte).length = (0 : U16).toNat) ∧
      ((1205 : U16) ≠ 1206 ∧ (List.replicate 1205 (0 : Byte)).length = (1205 : U16).toNat) ∧
      ((65535 : U16) ≠ 1206 ∧ (List.replicate 65535 (0 : Byte)).length = (65535 : U16).toNat) := by
  refine ⟨⟨by decide, rfl⟩, ⟨by decide, by rw [List.length_replicate]; rfl⟩, by decide, by rw [List.length_replicate]; rfl⟩

theorem witness_PacketOfWrongLengthIsRejected :
    (List.replicate 1205 (0 : Byte)).length ≠ (1206 : U16).toNat ∧ (List.replicate 1207 (0 : Byte)).length ≠ (1206 : U16).toNat := by
  rw [List.length_replicate, List.length_replicate]; decide

theorem witness_DataPacketFollowsItsBytes :
    zeroPacket.length = 1206 ∧ (startingAt 11).pendingSkip.toNat ≤ 11 ∧ ¬ (startingAt 12).pendingSkip.toNat ≤ 11 :=
  ⟨zeroPacket_length, by decide, by decide⟩

theorem witness_ReservedPacketBytesAreIgnored :
    (zeroPacket.take 1204 ++ [0xab, 0xcd]).length = 1206 ∧ zeroPacket.take 1204 = (zeroPacket.take 1204 ++ [0xab, 0xcd]).take 1204 := by
  decide +kernel

theorem witness_DataPacketPointCount :
    ∃ t es, zeroPacket.length = 1206 ∧ exec (.packet 1206 zeroPacket) State.reset = .next t ∧ t.events = State.reset.events ++ es :=
  ⟨_, _, zeroPacket_length, exec_dataPacket _ _ zeroPacket_length, (List.nil_append _).symm⟩

theorem witness_BlkidOtherIsOnlyANotice :
    ∃ t u, zeroPacket.length = 1206 ∧ hiPacket.length = 1206 ∧ State.reset.cfg.blkidLo ≠ State.reset.cfg.blkidHi ∧
      (∀ a, 2 ≤ a % 100 ∨ 1200 ≤ a → byteAt hiPacket a = byteAt zeroPacket a) ∧
      (∀ k, k < 12 → u16At hiPacket (100 * k) = u16At zeroPacket (100 * k) ∨
        (u16At zeroPacket (100 * k) ≠ State.reset.cfg.blkidLo ∧ u16At zeroPacket (100 * k) ≠ State.reset.cfg.blkidHi ∧
          u16At hiPacket (100 * k) = State.reset.cfg.blkidHi)) ∧
      exec (.packet 1206 zeroPacket) State.reset = .next t ∧ exec (.packet 1206 hiPacket) State.reset = .next u := by
  refine ⟨_, _, zeroPacket_length, hiPacket_length, by decide, fun a ha => ?_, by decide +kernel,
    exec_dataPacket _ _ zeroPacket_length, exec_dataPacket _ _ hiPacket_length⟩
  by_cases h : a < 1206
  · simp only [byteAt, List.getD_eq_getElem _ _ (show a < hiPacket.length by rw [hiPacket_length]; exact h),
      List.getD_eq_getElem _ _ (show a < zeroPacket.length by rw [zeroPacket_length]; exact h)]
    simp only [hiPacket, zeroPacket, List.getElem_map, List.getElem_range, List.getElem_replicate]
    rw [if_neg (by omega), if_neg (by omega)]
  · simp only [byteAt, List.getD_eq_default _ _ (show hiPacket.length ≤ a by rw [hiPacket_length]; omega),
      List.getD_eq_default _ _ (show zeroPacket.length ≤ a by rw [zeroPacket_length]; omega)]

theorem witness_SegmenterStep :
    (999 : U16).toNat < ({ State.reset with lastAz := 1000 } : State).lastAz.toNat ∧
      ({ State.reset with lastAz := 1000 } : State).lastAz.toNat ≤ (1000 : U16).toNat := by decide

theorem witness_SplitEventsMarkPositionDrops :
    ∃ t es, zeroPacket.length = 1206 ∧ exec (.packet 1206 zeroPacket) { State.reset with lastAz := 1 } = .next t ∧
      t.events = ({ State.reset with lastAz := 1 } : State).events ++ es ∧
      u16At zeroPacket (100 * 0 + 2) < ({ State.reset with lastAz := 1 } : State).lastAz :=
  ⟨_, _, zeroPacket_length, exec_dataPacket _ _ zeroPacket_length, (List.nil_append _).symm, by decide +kernel⟩

theorem witness_PacketIsDeterminedByTheSession :
    ∃ s' t', ({ State.reset with status := 0xF, dataPktCount := 9 } : State).cfg = State.reset.cfg ∧
      ({ State.reset with status := 0xF, dataPktCount := 9 } : State).cal = State.reset.cal ∧
      exec (.packet 1206 zeroPacket) State.reset = .next s' ∧
      exec (.packet 1206 zeroPacket) { State.reset with status := 0xF, dataPktCount := 9 } = .next t' :=
  ⟨_, _, rfl, rfl, exec_dataPacket _ _ zeroPacket_length, exec_dataPacket _ _ zeroPacket_length⟩

/-- The split at the first processed block, and at a later one. -/
theorem witness_RandomAccessReplaysTheFrame :
    zeroPacket.length = 1206 ∧ State.reset.pendingSkip.toNat ≤ (0 : BitVec 4).toNat ∧
      u16At zeroPacket (100 * (0 : BitVec 4).toNat + 2) < ({ State.reset with lastAz := 1 } : State).lastAz ∧
      (let p := packetAt (fun k => if k < 11 then 35000 else 10)
       p.length = 1206 ∧ u16At p (100 * (11 : BitVec 4).toNat + 2) < u16At p (100 * ((11 : BitVec 4).toNat - 1) + 2)) :=
  ⟨zeroPacket_length, by decide, by decide +kernel, by decide +kernel⟩

theorem witness_SessionsInStepGiveTheSameFrames :
    ({ State.reset with frameCount := 5, curFramePoints := 7, status := 1 } : State).cfg = State.reset.cfg ∧
      ({ State.reset with frameCount := 5, curFramePoints := 7, status := 1 } : State).cal = State.reset.cal ∧
      ({ State.reset with frameCount := 5, curFramePoints := 7, status := 1 } : State).lastAz = State.reset.lastAz ∧
      ({ State.reset with frameCount := 5, curFramePoints := 7, status := 1 } : State).pendingSkip = State.reset.pendingSkip :=
  ⟨rfl, rfl, rfl, rfl⟩

theorem witness_FastPathExactlyForSignedZero :
    (36000 : U16).toNat ≤ 36000 ∧ ¬ ((0x0000000000000001 : F64) = 0x0000000000000000 ∨ (0x0000000000000001 : F64) = 0x8000000000000000) ∧
      ¬ ((0x7FF8000000000000 : F64) = 0x0000000000000000 ∨ (0x7FF8000000000000 : F64) = 0x8000000000000000) := by decide

theorem witness_AzimuthOffTheTableRaisesAzRange :
    (1 : U16) ≠ 0 ∧ (calEntry State.reset 40).azCorr = 0x0000000000000000 ∧
      (calEntry (withLaser40 0x8000000000000000 0 0 0 0) 40).azCorr = 0x8000000000000000 ∧
      36000 < (36001 : U16).toNat ∧ 36000 < (65535 : U16).toNat := by
  decide +kernel

theorem witness_CorrectorPointFormulas :
    ¬ (((calEntry State.reset 40).azCorr = 0x0000000000000000 ∨ (calEntry State.reset 40).azCorr = 0x8000000000000000) ∧
        36000 < (36000 : U16).toNat) ∧
      ¬ (((calEntry (withLaser40 one64 0 0 0 0) 40).azCorr = 0x0000000000000000 ∨
          (calEntry (withLaser40 one64 0 0 0 0) 40).azCorr = 0x8000000000000000) ∧ 36000 < (36001 : U16).toNat) := by
  decide +kernel

/-- An entry with offsets of 1 metre and -1 metre that meets the premises of the third clause together. -/
def modestEntry : CalEntry :=
  { azCorr := 0, vertCorr := 0, distCorr := 0xBFF0000000000000, vOffCorr := one64, hOffCorr := 0xBFF0000000000000, sinVert := one64,
    cosVert := 0xBFF0000000000000, sinVOff := one64, cosVOff := 0xBFF0000000000000 }

theorem witness_ModestCalibrationKeepsPointsFinite :
    belowHuge 0 ∧ belowHuge 0xBFF0000000000000 ∧
      (belowHuge modestEntry.distCorr ∧ belowHuge modestEntry.vOffCorr ∧ belowHuge modestEntry.hOffCorr ∧
        withinUnit modestEntry.sinVert ∧ withinUnit modestEntry.cosVert ∧
        modestEntry.sinVOff = fmul modestEntry.vOffCorr modestEntry.sinVert ∧
        modestEntry.cosVOff = fmul modestEntry.vOffCorr modestEntry.cosVert ∧ withinUnit one64 ∧ withinUnit 0xBFF0000000000000) := by
  have hv : f64Value one64 = 1 ∧ f64Value 0xBFF0000000000000 = -1 := by
    have h1 : mag one64 = 2 ^ 1074 ∧ mag (0xBFF0000000000000 : F64) = 2 ^ 1074 := by decide +kernel
    have h2 : signBit one64 = false ∧ signBit (0xBFF0000000000000 : F64) = true := by decide
    have h3 : (2 : ℚ) ^ 1074 ≠ 0 := pow_ne_zero _ (by norm_num)
    simp only [f64Value, h1, h2, Nat.cast_pow, Nat.cast_ofNat]
    generalize (2 : ℚ) ^ 1074 = u at *
    exact ⟨by simp [h3], by simp [h3]⟩
  have h0 : f64Value 0 = 0 := by
    have : mag (0 : F64) = 0 := by decide
    rw [f64Value, this, Nat.cast_zero, mul_zero, zero_div]
  have hp : (1 : ℚ) < 10 ^ 300 := one_lt_pow₀ (by norm_num) (by decide)
  have z : belowHuge 0 := ⟨by decide, by rw [h0, abs_zero]; exact lt_trans zero_lt_one hp⟩
  have b : belowHuge one64 := ⟨by decide, by rw [hv.1, abs_one]; exact hp⟩
  have b' : belowHuge 0xBFF0000000000000 := ⟨by decide, by rw [hv.2, abs_neg, abs_one]; exact hp⟩
  have u : withinUnit one64 := ⟨by decide, by rw [hv.1, abs_one]⟩
  have u' : withinUnit 0xBFF0000000000000 := ⟨by decide, by rw [hv.2, abs_neg, abs_one]⟩
  exact ⟨z, b', b', b, b', u, u', by decide +kernel, by decide +kernel, u, u'⟩

theorem witness_GeometryScenario :
    State.reset.cfg = defaultConfig ∧ calEntry State.reset 40 = deriveEntry defaultConfig ⟨0, 0, 0, 0, 0, 0, 0, 0, 0⟩ :=
  ⟨rfl, by decide +kernel⟩

theorem witness_DeriveRecomputesFromBaseFields :
    isNaN (fmul one64 pi64) = false ∧ isFinite (0xBFF0000000000000 : F64) = true ∧ isFinite (0 : F64) = true := by
  decide +kernel

/-- Finite operands, the greatest finite value and the least subnormal among them. -/
theorem witness_AdditionRoundsToNearestEven :
    isFinite (0x7FEFFFFFFFFFFFFF : F64) = true ∧ isFinite (0x0000000000000001 : F64) = true ∧
      isFinite (0x8000000000000000 : F64) = true := by
  decide

theorem witness_MultiplicationRoundsToNearestEven :
    isFinite (0xFFEFFFFFFFFFFFFF : F64) = true ∧ isFinite (0x8000000000000001 : F64) = true := by decide

theorem witness_DivisionRoundsToNearestEven :
    isFinite one64 = true ∧ isZero one64 = false ∧ isZero (0x0000000000000001 : F64) = false ∧
      isZero (0x8000000000000000 : F64) = true ∧ isFinite (0x8000000000000000 : F64) = true := by
  decide

theorem witness_InvalidOperationsGiveNaN :
    isNaN (0x7FF0000000000001 : F64) = true ∧ isNaN (0xFFFFFFFFFFFFFFFF : F64) = true ∧ isInf (0x7FF0000000000000 : F64) = true ∧
      isInf (0xFFF0000000000000 : F64) = true ∧ signBit (0xFFF0000000000000 : F64) ≠ signBit (0x7FF0000000000000 : F64) ∧
      isFinite (0x7FEFFFFFFFFFFFFF : F64) = true ∧ isZero (0x7FEFFFFFFFFFFFFF : F64) = false ∧
      isFinite (0x8000000000000000 : F64) = true ∧ isZero (0x8000000000000000 : F64) = true := by
  decide

theorem witness_FeqComparesValues :
    isNaN (0x7FF8000000000000 : F64) = true ∧ isFinite (0x0000000000000001 : F64) = true ∧ isInf (0x7FF0000000000000 : F64) = true ∧
      isNaN (0x7FEFFFFFFFFFFFFF : F64) = false := by
  decide

/-- The least subnormal, -1e5, the greatest finite value and a zero. -/
theorem witness_DefaultTrigIsCorrectlyRounded :
    defaultConfig.trig = .correctlyRounded ∧ isFinite (0x0000000000000001 : F64) = true ∧ isFinite (0xC0F86A0000000000 : F64) = true ∧
      isFinite (0x7FEFFFFFFFFFFFFF : F64) = true ∧ isFinite (0x8000000000000000 : F64) = true := by
  decide

end Sys2Proof.Tests
end

section
/-! SUPPORT. The classes of a binary64 value exclude each other, and the values of zeros, of negations and of 1. -/

namespace Sys2Proof.Machine

/-! ### Classes -/

variable {a b : F64}

theorem isNaN_of_isFinite (h : isFinite a = true) : isNaN a = false := by
  simp only [isFinite, Bool.not_eq_true'] at h
  simp [isNaN, h]

theorem isInf_of_isFinite (h : isFinite a = true) : isInf a = false := by
  simp only [isFinite, Bool.not_eq_true'] at h
  simp [isInf, h]

theorem isNaN_of_isInf (h : isInf a = true) : isNaN a = false := by
  simp only [isInf, Bool.and_eq_true, beq_iff_eq] at h
  simp [isNaN, h.2]

theorem isFinite_of_isZero (h : isZero a = true) : isFinite a = true := by
  simp only [isZero, Bool.and_eq_true, beq_iff_eq] at h
  simp [isFinite, isSpecial, h.1]

theorem isZero_of_isInf (h : isInf a = true) : isZero a = false := by
  by_contra hz
  have := isInf_of_isFinite (isFinite_of_isZero (Bool.eq_true_of_not_eq_false hz))
  simp [h] at this

theorem isZero_withSign_zero (neg : Bool) : isZero (withSign neg 0) = true := by cases neg <;> decide

/-! ### Values -/

theorem cast_shiftLeft (n k : ℕ) : ((n <<< k : ℕ) : ℚ) = n * 2 ^ k := by
  rw [Nat.shiftLeft_eq, Nat.cast_mul, Nat.cast_pow, Nat.cast_ofNat]

theorem signFactor_ne_zero (neg : Bool) : signFactor neg ≠ 0 := by cases neg <;> simp [signFactor]

theorem signFactor_not (neg : Bool) : signFactor (!neg) = -signFactor neg := by cases neg <;> simp [signFactor]

theorem signFactor_bne (s t : Bool) : signFactor (s != t) = signFactor s * signFactor t := by
  cases s <;> cases t <;> simp [signFactor]

theorem signFactor_sq (neg : Bool) : signFactor neg ^ 2 = 1 := by cases neg <;> simp [signFactor]

theorem f64Value_fneg (a : F64) : f64Value (fneg a) = -f64Value a := by
  rw [f64Value_eq, f64Value_eq, signBit_fneg, mag_fneg, signFactor_not, neg_mul, neg_div]

theorem f64Value_eq_zero_iff (a : F64) : f64Value a = 0 ↔ isZero a = true := by
  rw [f64Value_eq, div_eq_zero_iff, or_iff_left unit_pos.ne', mul_eq_zero, or_iff_right (signFactor_ne_zero _), Nat.cast_eq_zero,
    mag_eq_zero_iff]

theorem f64Value_one64 : f64Value one64 = 1 := by
  have hm : mag one64 = 2 ^ 1074 := by decide +kernel
  have hs : signBit one64 = false := by decide
  rw [f64Value_eq, hm, hs, Nat.cast_pow, Nat.cast_ofNat, signFactor, if_neg (by decide), one_mul, div_self unit_pos.ne']

/-- Different bit patterns of one value are the two zeros. -/
theorem f64Value_eq_iff (a b : F64) : f64Value a = f64Value b ↔ a = b ∨ isZero a = true ∧ isZero b = true := by
  constructor
  · intro h
    by_cases hz : isZero a = true
    · exact .inr ⟨hz, by rwa [← f64Value_eq_zero_iff, ← h, f64Value_eq_zero_iff]⟩
    left
    have hmag (c : F64) : |f64Value c| = mag c / 2 ^ 1074 := by
      rw [f64Value_eq, abs_div, abs_mul, abs_signFactor, one_mul, Nat.abs_cast, abs_of_pos unit_pos]
    have hm : mag a = mag b := by
      have := hmag a
      rwa [h, hmag b, div_left_inj' unit_pos.ne', Nat.cast_inj, eq_comm] at this
    have hm0 : (mag b : ℚ) ≠ 0 := by rwa [← hm, Nat.cast_ne_zero, ne_eq, mag_eq_zero_iff]
    have hs : signBit a = signBit b := by
      rw [f64Value_eq, f64Value_eq, hm, div_left_inj' unit_pos.ne', mul_left_inj' hm0] at h
      revert h
      cases signBit a <;> cases signBit b <;> norm_num [signFactor]
    rw [mag_eq_magOfBits, mag_eq_magOfBits] at hm
    have hlow := magOfBits_injective hm
    rw [signBit_eq, signBit_eq, decide_eq_decide] at hs
    have la := a.isLt
    have lb := b.isLt
    rw [← BitVec.toNat_inj]
    omega
  · rintro (rfl | ⟨ha, hb⟩)
    · rfl
    · rw [(f64Value_eq_zero_iff a).2 ha, (f64Value_eq_zero_iff b).2 hb]

end Sys2Proof.Machine
end

section
/-! SUPPORT. What each operation of R10 answers, class of operands by class. -/

namespace Sys2Proof.Machine

variable {a b : F64}

/-! ### Sums -/

theorem addWith_of_isNaN (nan : F64) (h : isNaN a = true ∨ isNaN b = true) : addWith nan a b = nan := by
  rcases h with h | h <;> simp [addWith, h]

theorem addWith_of_opposite_infinities (nan : F64) (ha : isInf a = true) (hb : isInf b = true) (h : signBit a ≠ signBit b) :
    addWith nan a b = nan := by
  simp [addWith, ha, hb, h]

theorem addWith_of_like_infinities (nan : F64) (ha : isInf a = true) (hb : isInf b = true) (h : signBit a = signBit b) :
    addWith nan a b = a := by
  simp [addWith, ha, h, isNaN_of_isInf ha, isNaN_of_isInf hb]

theorem addWith_of_isInf_left (nan : F64) (ha : isInf a = true) (hb : isFinite b = true) : addWith nan a b = a := by
  simp [addWith, ha, isNaN_of_isInf ha, isNaN_of_isFinite hb, isInf_of_isFinite hb]

theorem addWith_of_isInf_right (nan : F64) (ha : isFinite a = true) (hb : isInf b = true) : addWith nan a b = b := by
  simp [addWith, hb, isNaN_of_isInf hb, isNaN_of_isFinite ha, isInf_of_isFinite ha]

theorem addWith_of_isFinite (nan : F64) (ha : isFinite a = true) (hb : isFinite b = true) : addWith nan a b = finiteSum a b := by
  simp [addWith, isNaN_of_isFinite ha, isNaN_of_isFinite hb, isInf_of_isFinite ha, isInf_of_isFinite hb]

theorem exactSum_value (a b : F64) : f64Value a + f64Value b = (exactSum a b : ℚ) / 2 ^ 1074 := by
  have cast (c : F64) : (((if signBit c then -(mag c : ℤ) else mag c : ℤ)) : ℚ) = signFactor (signBit c) * mag c := by
    cases signBit c <;> simp [signFactor]
  rw [exactSum, Int.cast_add, cast, cast, add_div]; rfl

theorem exactSum_eq_zero_iff (a b : F64) : exactSum a b = 0 ↔ f64Value a + f64Value b = 0 := by
  rw [exactSum_value, div_eq_zero_iff, or_iff_left unit_pos.ne', Int.cast_eq_zero]

/-- A whole number is its magnitude with its sign. -/
theorem signFactor_mul_natAbs (v : ℤ) : signFactor (decide (v < 0)) * (v.natAbs : ℚ) = v := by
  rw [Nat.cast_natAbs, Int.cast_abs]
  rcases lt_or_ge v 0 with h | h
  · rw [decide_eq_true h, abs_of_neg (Int.cast_lt_zero.2 h)]; simp [signFactor]
  · rw [decide_eq_false (not_lt.2 h), abs_of_nonneg (Int.cast_nonneg h)]; simp [signFactor]

theorem roundMag_zero (d : ℕ) : roundMag 0 d = 0 := by simp [roundMag, ulpExp, roundDiv]

theorem finiteSum_signBit_of_zero (h : f64Value a + f64Value b = 0) : signBit (finiteSum a b) = (signBit a && signBit b) := by
  rw [finiteSum, if_pos ((exactSum_eq_zero_iff a b).2 h), signBit_withSign _ _ (by decide)]

theorem finiteSum_rounds (a b : F64) : roundsTo (f64Value a + f64Value b) (finiteSum a b) := by
  unfold finiteSum
  dsimp only
  split
  · next hz =>
    have h := roundsTo_withSign_roundMag (signBit a && signBit b) 0 1 one_pos
    rw [roundMag_zero] at h
    rw [(exactSum_eq_zero_iff a b).1 hz]
    simpa using h
  · have h := roundsTo_withSign_roundMag (decide (exactSum a b < 0)) (exactSum a b).natAbs 1 one_pos
    rwa [Nat.cast_one, div_one, signFactor_mul_natAbs, ← exactSum_value] at h

/-! ### Products -/

theorem fmul_of_isFinite (ha : isFinite a = true) (hb : isFinite b = true) :
    fmul a b = withSign (signBit a != signBit b) (roundMag (mag a * mag b) (1 <<< 1074)) := by
  simp [fmul, isNaN_of_isFinite ha, isNaN_of_isFinite hb, isInf_of_isFinite ha, isInf_of_isFinite hb]

/-- An infinity times anything but a NaN or a zero. -/
theorem fmul_of_isInf (h : isInf a = true ∧ isZero b = false ∨ isZero a = false ∧ isInf b = true) (ha : isNaN a = false)
    (hb : isNaN b = false) : fmul a b = withSign (signBit a != signBit b) infMag := by
  rcases h with ⟨hi, hz⟩ | ⟨hz, hi⟩ <;> simp [fmul, hi, hz, ha, hb, isZero_of_isInf hi]

/-- The invalid products: with a NaN, and an infinity with a zero. -/
theorem fmul_of_invalid (h : (isNaN a = true ∨ isNaN b = true) ∨ isInf a = true ∧ isZero b = true ∨ isZero a = true ∧ isInf b = true) :
    fmul a b = freeNaN .mul a b := by
  rcases h with (h | h) | h | h <;> simp [fmul, h]

/-! ### Quotients -/

theorem fdiv_of_isFinite (ha : isFinite a = true) (hb : isFinite b = true) (hz : isZero b = false) :
    fdiv a b = withSign (signBit a != signBit b) (roundMag (mag a <<< 1074) (mag b)) := by
  simp [fdiv, isNaN_of_isFinite ha, isNaN_of_isFinite hb, isInf_of_isFinite ha, isInf_of_isFinite hb, hz]

/-- An infinity over a finite value, and a finite value other than zero over zero. -/
theorem fdiv_of_infinite (h : isInf a = true ∧ isFinite b = true ∨ (isFinite a = true ∧ isZero a = false) ∧ isZero b = true) :
    fdiv a b = withSign (signBit a != signBit b) infMag := by
  rcases h with ⟨ha, hb⟩ | ⟨⟨ha, hz⟩, hb⟩
  · simp [fdiv, ha, isNaN_of_isInf ha, isNaN_of_isFinite hb, isInf_of_isFinite hb, isZero_of_isInf ha]
  · have hb' := isFinite_of_isZero hb
    simp [fdiv, hb, hz, isNaN_of_isFinite ha, isNaN_of_isFinite hb', isInf_of_isFinite hb']

theorem fdiv_of_isInf_right (ha : isFinite a = true) (hb : isInf b = true) : fdiv a b = withSign (signBit a != signBit b) 0 := by
  simp [fdiv, hb, isNaN_of_isFinite ha, isNaN_of_isInf hb, isInf_of_isFinite ha, isZero_of_isInf hb]

/-- The invalid quotients: with a NaN, infinity over infinity, and zero over zero. -/
theorem fdiv_of_invalid (h : (isNaN a = true ∨ isNaN b = true) ∨ isInf a = true ∧ isInf b = true ∨ isZero a = true ∧ isZero b = true) :
    fdiv a b = freeNaN .div a b := by
  rcases h with (h | h) | h | h <;> simp [fdiv, h]

/-! ### Conversion -/

theorem i2f_eq (n : U16) : i2f n = withSign false (roundMag (n.toNat <<< 1074) 1) := by
  rw [i2f, withSign, if_neg (by decide), Nat.add_zero]

theorem roundDiv_of_dvd {n d : ℕ} (hd : 0 < d) (h : d ∣ n) : roundDiv n d = n / d := by
  rw [roundDiv, Nat.mod_eq_zero_of_dvd h, if_neg (by omega)]

/-- A whole number of units that is a multiple of the last place kept, and does not overflow, is kept exactly. -/
theorem magOfBits_roundMag_of_dvd {n : ℕ} (hn : n < overflowMag) (h : 2 ^ ulpExp n 1 ∣ n) : magOfBits (roundMag n 1) = n := by
  have hlt : roundMag n 1 < infMag := (roundMag_lt_infMag_iff n 1 one_pos).2 (by rwa [mul_one])
  rw [(magOfBits_roundMag n 1 one_pos hlt).2, one_mul, roundDiv_of_dvd (Nat.pow_pos (by norm_num)) h, Nat.div_mul_cancel h]

/-- The last place kept of an integer of at most 53 bits, counted in units of 2^-k, is at most 1. -/
theorem ulpExp_shiftLeft_le (n k : ℕ) (hn : n < 2 ^ 53) : ulpExp (n <<< k) 1 ≤ k := by
  rw [ulpExp, Nat.div_one, Nat.shiftLeft_eq]
  rcases Nat.eq_zero_or_pos n with rfl | hpos
  · simp
  · have hk : 0 < 2 ^ k := Nat.pow_pos (by norm_num)
    have : Nat.log2 (n * 2 ^ k) < 53 + k := by
      rw [Nat.log2_lt (Nat.mul_pos hpos hk).ne', pow_add]
      exact Nat.mul_lt_mul_of_pos_right hn hk
    omega

theorem two_pow_ulpExp_dvd_shiftLeft (n k : ℕ) (hn : n < 2 ^ 53) : 2 ^ ulpExp (n <<< k) 1 ∣ n <<< k := by
  have hdvd : 2 ^ k ∣ n <<< k := by rw [Nat.shiftLeft_eq]; exact Nat.dvd_mul_left _ _
  exact (pow_dvd_pow 2 (ulpExp_shiftLeft_le n k hn)).trans hdvd

theorem u16_units_lt_overflowMag (n : U16) : n.toNat <<< 1074 < overflowMag := by
  have := n.isLt
  rw [Nat.shiftLeft_eq, overflowMag]
  exact Nat.mul_lt_mul_of_lt_of_le (by omega) (Nat.pow_le_pow_right (by norm_num) (by norm_num)) (Nat.pow_pos (by norm_num))

theorem magOfBits_i2f (n : U16) : magOfBits (roundMag (n.toNat <<< 1074) 1) = n.toNat <<< 1074 :=
  magOfBits_roundMag_of_dvd (u16_units_lt_overflowMag n) (two_pow_ulpExp_dvd_shiftLeft _ _ (n.isLt.trans (by norm_num)))

end Sys2Proof.Machine
end

section
/-! PROOFS. Binary64 arithmetic (R10, R179): O54 to O59. -/

namespace Sys2Proof.Machine

/-- Settles O54: the finite sum narrows the exact sum once, and a difference is the sum with the negated term. -/
theorem additionRoundsToNearestEven : Obligations.AdditionRoundsToNearestEven := by
  intro a b ha hb
  have hb' : isFinite (fneg b) = true := by rwa [isFinite_fneg]
  have hadd : fadd a b = finiteSum a b := addWith_of_isFinite _ ha hb
  have hsub : fsub a b = finiteSum a (fneg b) := addWith_of_isFinite _ ha hb'
  rw [hadd, hsub, sub_eq_add_neg, ← f64Value_fneg, ← signBit_fneg]
  exact ⟨finiteSum_rounds a b, finiteSum_rounds a (fneg b), finiteSum_signBit_of_zero, finiteSum_signBit_of_zero⟩

/-- Settles O55: the product of the magnitudes, in units of 2^-1074, over 2^1074 is what `fmul` narrows. -/
theorem multiplicationRoundsToNearestEven : Obligations.MultiplicationRoundsToNearestEven := by
  intro a b ha hb
  rw [fmul_of_isFinite ha hb]
  refine ⟨?_, signBit_withSign _ _ (roundMag_lt _ _)⟩
  have hd : 0 < 1 <<< 1074 := by rw [Nat.one_shiftLeft]; exact Nat.pow_pos (by norm_num)
  have h := roundsTo_withSign_roundMag (signBit a != signBit b) (mag a * mag b) (1 <<< 1074) hd
  have e : f64Value a * f64Value b =
      signFactor (signBit a != signBit b) * (((mag a * mag b : ℕ) : ℚ) / ((1 <<< 1074 : ℕ) : ℚ)) / 2 ^ 1074 := by
    rw [f64Value_eq, f64Value_eq, signFactor_bne, cast_shiftLeft, Nat.cast_mul]
    ring
  rwa [e]

/-- Settles O56: the units of 2^-1074 cancel in the quotient of the magnitudes, and `fdiv` narrows it counted in them again. -/
theorem divisionRoundsToNearestEven : Obligations.DivisionRoundsToNearestEven := by
  intro a b ha hb
  constructor
  · intro hz
    rw [fdiv_of_isFinite ha hb hz]
    refine ⟨?_, signBit_withSign _ _ (roundMag_lt _ _)⟩
    have hd : 0 < mag b := Nat.pos_of_ne_zero (by rw [ne_eq, mag_eq_zero_iff, hz]; decide)
    have h := roundsTo_withSign_roundMag (signBit a != signBit b) (mag a <<< 1074) (mag b) hd
    have e : f64Value a / f64Value b =
        signFactor (signBit a != signBit b) * (((mag a <<< 1074 : ℕ) : ℚ) / (mag b : ℚ)) / 2 ^ 1074 := by
      have hU := unit_pos
      have hs := signFactor_ne_zero (signBit b)
      have hsq := signFactor_sq (signBit b)
      rw [f64Value_eq, f64Value_eq, signFactor_bne, cast_shiftLeft]
      generalize (2 : ℚ) ^ 1074 = U at *
      have hb0 : (mag b : ℚ) ≠ 0 := by exact_mod_cast hd.ne'
      field_simp
      rw [hsq, mul_one]
    rwa [e]
  · intro hb0 ha0
    rw [fdiv_of_infinite (.inr ⟨⟨ha, ha0⟩, hb0⟩)]
    exact ⟨isInf_withSign_infMag _, signBit_withSign _ _ (by decide)⟩

/-- Settles O57, class of operands by class; a difference is the sum with the negated term, which keeps its class. -/
theorem invalidOperationsGiveNaN : Obligations.InvalidOperationsGiveNaN := by
  refine ⟨fun a b h => ?_, fun a b ha hb => ?_, fun a b ha hb => ?_, fun a b ha hb => ?_⟩
  · -- a NaN operand
    have h' : isNaN a = true ∨ isNaN (fneg b) = true := by rwa [isNaN_fneg]
    rw [fadd, fsub, addWith_of_isNaN _ h, addWith_of_isNaN _ h', fmul_of_invalid (.inl h), fdiv_of_invalid (.inl h)]
    exact ⟨isNaN_freeNaN .., isNaN_freeNaN .., isNaN_freeNaN .., isNaN_freeNaN ..⟩
  · -- two infinities
    have hb' : isInf (fneg b) = true := by rwa [isInf_fneg]
    have hmul := fmul_of_isInf (.inl ⟨ha, isZero_of_isInf hb⟩) (isNaN_of_isInf ha) (isNaN_of_isInf hb)
    rw [hmul, fdiv_of_invalid (.inr (.inl ⟨ha, hb⟩)), fadd, fsub]
    refine ⟨fun h => ?_, fun h => ?_, isInf_withSign_infMag _, signBit_withSign _ _ (by decide), isNaN_freeNaN ..⟩
    · rw [addWith_of_like_infinities _ ha hb h, addWith_of_opposite_infinities _ ha hb' (by simp [h])]
      exact ⟨rfl, isNaN_freeNaN ..⟩
    · rw [addWith_of_opposite_infinities _ ha hb h, addWith_of_like_infinities _ ha hb' (by simpa [Bool.eq_not] using h)]
      exact ⟨isNaN_freeNaN .., rfl⟩
  · -- an infinity and a finite value, in either order
    have hb' : isFinite (fneg b) = true := by rwa [isFinite_fneg]
    have ha' : isInf (fneg a) = true := by rwa [isInf_fneg]
    have nan_a := isNaN_of_isInf ha
    have nan_b := isNaN_of_isFinite hb
    rw [fadd, fadd, fsub, fsub, addWith_of_isInf_left _ ha hb, addWith_of_isInf_right _ hb ha, addWith_of_isInf_left _ ha hb',
      addWith_of_isInf_right _ hb ha', fdiv_of_infinite (.inl ⟨ha, hb⟩), fdiv_of_isInf_right hb ha]
    refine ⟨rfl, rfl, rfl, ⟨ha', signBit_fneg a⟩, fun hz => ?_, fun hz => ?_, isInf_withSign_infMag _,
      signBit_withSign _ _ (by decide), isZero_withSign_zero _, ?_⟩
    · rw [fmul_of_invalid (.inr (.inl ⟨ha, hz⟩)), fmul_of_invalid (.inr (.inr ⟨hz, ha⟩))]
      exact ⟨isNaN_freeNaN .., isNaN_freeNaN ..⟩
    · rw [fmul_of_isInf (.inl ⟨ha, hz⟩) nan_a nan_b, fmul_of_isInf (.inr ⟨hz, ha⟩) nan_b nan_a, bne_comm (a := signBit b)]
      exact ⟨isInf_withSign_infMag _, signBit_withSign _ _ (by decide), isInf_withSign_infMag _, signBit_withSign _ _ (by decide)⟩
    · rw [signBit_withSign _ _ (by decide), bne_comm]
  · -- zero over zero
    rw [fdiv_of_invalid (.inr (.inr ⟨ha, hb⟩))]
    exact isNaN_freeNaN ..

/-- Settles O58: a u16 fits the 53 bits kept, so narrowing changes nothing. -/
theorem integerConversionIsExact : Obligations.IntegerConversionIsExact := by
  intro n
  have h63 := roundMag_lt (n.toNat <<< 1074) 1
  have hfin := (roundMag_lt_infMag_iff _ 1 one_pos).2 (by rw [mul_one]; exact u16_units_lt_overflowMag n)
  rw [i2f_eq]
  refine ⟨isFinite_withSign _ _ hfin, signBit_withSign _ _ h63, ?_⟩
  rw [f64Value_withSign _ _ h63, magOfBits_i2f, cast_shiftLeft, signFactor, if_neg (by decide), one_mul, mul_div_cancel_right₀ _ unit_pos.ne']

/-- Settles O59: two finite patterns have one value exactly when they are equal or both are zeros. -/
theorem feqComparesValues : Obligations.FeqComparesValues := by
  refine ⟨fun a b h => ?_, fun a b ha hb => ?_, fun a b ha hb => ?_⟩
  · rcases h with h | h <;> simp [feq, h]
  · rw [f64Value_eq_iff]
    simp [feq, isNaN_of_isFinite ha, isNaN_of_isFinite hb]
  · simp [feq, isNaN_of_isInf ha, hb, isZero_of_isInf ha]

end Sys2Proof.Machine
end

section
/-! PROOFS. The default trig unit at every finite argument (R7, D9; log 4): O60. -/

namespace Sys2Proof.Machine

open Real

/-- What a number of magnitude at most 1 rounds to has magnitude at most 1: neither 1 nor -1 is nearer to it. -/
theorem withinUnit_of_roundsToReal {y : ℝ} {r : F64} (h : roundsToReal y r) (hy : |y| ≤ 1) : withinUnit r := by
  obtain ⟨-, -, hnear, -⟩ := h
  have hT := (Rat.cast_lt (K := ℝ)).2 one_lt_overflowThreshold
  rw [Rat.cast_ofNat] at hT
  obtain ⟨hfin, hnear⟩ := hnear (by linarith)
  have above := (hnear one64 (by decide)).1
  have below := (hnear (fneg one64) (by decide)).1
  rw [f64Value_one64, Rat.cast_one] at above
  rw [f64Value_fneg, f64Value_one64, Rat.cast_neg, Rat.cast_one] at below
  rw [abs_le] at hy
  rw [abs_of_nonneg (show (0 : ℝ) ≤ 1 - y by linarith)] at above
  rw [abs_of_nonpos (show (-1 : ℝ) - y ≤ 0 by linarith)] at below
  refine ⟨hfin, ?_⟩
  rw [← Rat.cast_le (K := ℝ), Rat.cast_abs, Rat.cast_one, abs_le]
  constructor
  · linarith [neg_abs_le ((f64Value r : ℝ) - y)]
  · linarith [le_abs_self ((f64Value r : ℝ) - y)]

theorem signFactor_mul_sin (s : Bool) (θ : ℝ) : ((signFactor s : ℚ) : ℝ) * sin θ = sin ((signFactor s : ℚ) * θ) := by
  cases s <;> simp [signFactor]

theorem cos_signFactor_mul (s : Bool) (θ : ℝ) : cos ((signFactor s : ℚ) * θ) = cos θ := by
  cases s <;> simp [signFactor]

/-- The default SIN of a finite argument other than a zero. -/
theorem sinDefault_rounds (x : F64) (hx : isFinite x = true) (h0 : mag x ≠ 0) :
    roundsToReal (sin (f64Value x)) (sinDefault x) := by
  unfold sinDefault
  rw [hx, if_neg (by decide)]
  split
  · next hsmall => exact sin_small x hx h0 hsmall
  · have h := trigDefault_spec 0 (mag x) h0 (signBit x) (mag_lt_of_finite x hx)
    rwa [Nat.cast_zero, zero_mul, add_zero, signFactor_mul_sin, ← f64Value_real] at h

/-- The default COS of a finite argument other than a zero. -/
theorem cosDefault_rounds (x : F64) (hx : isFinite x = true) (h0 : mag x ≠ 0) :
    roundsToReal (cos (f64Value x)) (cosDefault x) := by
  unfold cosDefault
  rw [hx, if_neg (by decide), dif_neg h0]
  have h := trigDefault_spec 1 (mag x) h0 false (mag_lt_of_finite x hx)
  rw [Nat.cast_one, one_mul, sin_add_pi_div_two, ← cos_signFactor_mul (signBit x), ← f64Value_real] at h
  simpa [signFactor] using h

variable {cfg : Config}

theorem trigSin_rounds (hcfg : cfg.trig = .correctlyRounded) (x : F64) (hx : isFinite x = true) :
    roundsToReal (sin (f64Value x)) (trigSin cfg x) := by
  unfold trigSin
  split
  · next hz =>
    have h0 := (f64Value_eq_zero_iff x).2 hz
    exact roundsToReal_of_eq x hx _ (by simp [h0]) (by simp [h0]) (by simp [h0])
  · next hz =>
    rw [hcfg]
    exact sinDefault_rounds x hx (by rwa [ne_eq, mag_eq_zero_iff])

theorem trigCos_rounds (hcfg : cfg.trig = .correctlyRounded) (x : F64) (hx : isFinite x = true) :
    roundsToReal (cos (f64Value x)) (trigCos cfg x) := by
  unfold trigCos
  split
  · next hz =>
    have hcos : cos (f64Value x) = 1 := by rw [(f64Value_eq_zero_iff x).2 hz, Rat.cast_zero, cos_zero]
    rw [hcos]
    exact roundsToReal_of_eq one64 (by decide) _ (by rw [f64Value_one64, Rat.cast_one]) (.inr ⟨one_pos, by decide⟩) abs_one.le
  · next hz =>
    rw [hcfg]
    exact cosDefault_rounds x hx (by rwa [ne_eq, mag_eq_zero_iff])

/-- Settles O60: a zero is its own sine and has cosine 1, a small argument is its own sine, and elsewhere the evaluation settles on
the rounded value. -/
theorem defaultTrigIsCorrectlyRounded : Obligations.DefaultTrigIsCorrectlyRounded := by
  intro cfg x hcfg hx
  have hsin := trigSin_rounds hcfg x hx
  have hcos := trigCos_rounds hcfg x hx
  exact ⟨hsin, hcos, withinUnit_of_roundsToReal hsin (Real.abs_sin_le_one _), withinUnit_of_roundsToReal hcos (Real.abs_cos_le_one _)⟩

end Sys2Proof.Machine
end

section
/-! SUPPORT. What a step does with each kind of host action, what every command keeps, which instructions write which register, and
which commands are the PACKETs that run. -/

namespace Sys2Proof.Machine

variable {s t : State}

/-! ### Host actions (R30, R31, R280, R266) -/

theorem holds_iff (s : State) : holds s = true ↔ ∃ n, s.cfg.eventCapacity = some n ∧ n ≤ s.events.length := by
  unfold holds
  cases s.cfg.eventCapacity <;> simp

theorem holds_eq_false_of_lt {n : Nat} (hn : s.cfg.eventCapacity = some n) (h : s.events.length < n) : holds s = false := by
  simp [holds, hn, h]

/-- With no action to take the block is idle, or stays in its hold. -/
theorem step_of_no_action (h : s.input = [] ∨ holds s = true ∧ ∀ a ∈ s.input, ∃ c, a = .command c) : step s = .next s := by
  rw [step, nextAction_eq_none.2 h]

/-- A command at the head of the list runs when the block does not hold. -/
theorem step_of_command {c : Command} {rest : List HostAction} (hin : s.input = .command c :: rest) (hh : holds s = false) :
    step s = runCommand c { s with input := rest } := by
  rw [step, hin, hh]; rfl

/-- The host removes the head of the channel, unless its capacity is 0 and it never accepted an event. -/
theorem takeEvent_of_capacity_ne_zero {e : Event} {es : List Event} (he : s.events = e :: es) (hc : s.cfg.eventCapacity ≠ some 0) :
    takeEvent s = { s with events := es } := by
  have hv : ∃ vs, visibleEvents s = e :: vs := by
    unfold visibleEvents
    rcases hn : s.cfg.eventCapacity with _ | _ | n
    · exact ⟨es, he⟩
    · exact absurd hn hc
    · exact ⟨es.take n, by rw [he]; rfl⟩
  obtain ⟨vs, hv⟩ := hv
  rw [takeEvent, hv, he]; rfl

theorem takeEvent_of_nothing_visible (h : s.events = [] ∨ s.cfg.eventCapacity = some 0) : takeEvent s = s := by
  have hv : visibleEvents s = [] := by
    unfold visibleEvents
    rcases h with h | h
    · rw [h]; cases s.cfg.eventCapacity <;> simp
    · rw [h]; rfl
  rw [takeEvent, hv]

section waiting

variable {waiting rest : List HostAction} (hw : waiting = [] ∨ holds s = true ∧ ∀ a ∈ waiting, ∃ c, a = .command c)
include hw

theorem step_of_takeEvent {e : Event} {es : List Event} (hin : s.input = waiting ++ .takeEvent :: rest) (he : s.events = e :: es)
    (hc : s.cfg.eventCapacity ≠ some 0) : step s = .next { s with events := es, input := waiting ++ rest } := by
  rw [step, hin, nextAction_of_waiting waiting rest hw (by simp)]
  exact congrArg Host.Outcome.next (takeEvent_of_capacity_ne_zero (s := { s with input := waiting ++ rest }) he hc)

theorem step_of_takeEvent_of_nothing_visible (hin : s.input = waiting ++ .takeEvent :: rest)
    (h : s.events = [] ∨ s.cfg.eventCapacity = some 0) : step s = .next { s with input := waiting ++ rest } := by
  rw [step, hin, nextAction_of_waiting waiting rest hw (by simp)]
  exact congrArg Host.Outcome.next (takeEvent_of_nothing_visible (s := { s with input := waiting ++ rest }) h)

theorem step_of_reset (hin : s.input = waiting ++ .reset :: rest) :
    step s = .next { State.resetWith s.cfg with input := waiting ++ rest } := by
  rw [step, hin, nextAction_of_waiting waiting rest hw (by simp)]; rfl

end waiting

/-! ### What a command does -/

theorem runCommand_cases {c : Command} (h : runCommand c s = .next t) :
    (∃ i, decode c = .ok i ∧ exec i s = .next t) ∨ ∃ reason, decode c = .error reason ∧ t = raiseIllegal reason c s := by
  unfold runCommand at h
  rcases hd : decode c with reason | i <;> rw [hd] at h
  · cases h; exact .inr ⟨reason, rfl, rfl⟩
  · exact .inl ⟨i, rfl, h⟩

/-- What CAL_WRITE does: UNKNOWN_LASER, or the entry written and its derived fields recomputed (R118). -/
theorem exec_calWrite_cases {laser : Byte} {f : BaseField} {v : F64} (h : exec (.calWrite laser f v) s = .next t) :
    (laserIndex laser = none ∧ t = raise .unknownLaser (encodeWord (.calWrite laser f v)) (laser.zeroExtend 16) 0 0 s) ∨
      ∃ id, laserIndex laser = some id ∧ t = setCalEntry id (deriveEntry s.cfg ((calEntry s id).withBase f v)) s := by
  simp only [exec, execCalWrite] at h
  split at h <;> cases h
  · exact .inl ⟨‹_›, rfl⟩
  · exact .inr ⟨_, ‹_›, rfl⟩

/-- What CAL_READ does: UNKNOWN_LASER, or the stored bits emitted (R119). -/
theorem exec_calRead_cases {laser : Byte} {f : CalField} (h : exec (.calRead laser f) s = .next t) :
    (laserIndex laser = none ∧ t = raise .unknownLaser (encodeWord (.calRead laser f)) (laser.zeroExtend 16) 0 0 s) ∨
      ∃ id, laserIndex laser = some id ∧ t = emit (.calData id f.sel ((calEntry s id).field f)) s := by
  simp only [exec, execCalRead] at h
  split at h <;> cases h
  · exact .inl ⟨‹_›, rfl⟩
  · exact .inr ⟨_, ‹_›, rfl⟩

/-! ### What every command keeps (R23, R31, R36) -/

/-- Bits 31:4 of STATUS are 0 (R23). -/
def reservedZero (s : State) : Prop := s.status &&& 0xFFFFFFF0 = 0

theorem statusValue_reserved (w : U32) : statusValue w &&& 0xFFFFFFF0 = 0 := by
  rw [statusValue, BitVec.and_assoc, show (0x0000000F &&& 0xFFFFFFF0 : U32) = 0#32 from rfl]
  exact BitVec.and_zero

/-- Every write of STATUS masks it, so an update keeps bits 31:4 at 0 when it writes a masked word or nothing. -/
theorem reservedZero_of_status (h : t.status = s.status ∨ ∃ w, t.status = statusValue w) (hs : reservedZero s) : reservedZero t := by
  unfold reservedZero
  rcases h with h | ⟨w, h⟩ <;> rw [h]
  · exact hs
  · exact statusValue_reserved w

theorem reservedZero_processReturn (word : U32) (buf : List Byte) (k j : Nat) (hs : reservedZero s) :
    reservedZero (processReturn word buf k s j) := by
  refine reservedZero_of_status ?_ hs
  unfold processReturn correctReturn
  split
  · exact .inl rfl
  · split
    · exact .inr ⟨_, raise_status ..⟩
    · exact .inl rfl

theorem reservedZero_processBlock (word : U32) (buf : List Byte) (k : Nat) (hs : reservedZero s) :
    reservedZero (processBlock word buf s k) := by
  have hn : reservedZero (noteIdentifier (blockId buf k) s) := by
    unfold noteIdentifier
    split
    · exact reservedZero_of_status (.inr ⟨_, setStatus_status ..⟩) hs
    · exact hs
  have hg : reservedZero (segmentBlock k (blockPos buf k) (noteIdentifier (blockId buf k) s)) := by
    unfold segmentBlock
    split <;> exact hn
  exact List.foldlRecOn _ _ hg fun _ h j _ => reservedZero_processReturn word buf k j h

theorem reservedZero_dataPacket (word : U32) (buf : List Byte) (hs : reservedZero s) : reservedZero (dataPacket word buf s) := by
  have hb : reservedZero (processBlocks word buf s) :=
    List.foldlRecOn _ _ hs fun _ h k _ => reservedZero_processBlock word buf k h
  exact hb

/-- What no command breaks: it writes neither the configuration nor the host's actions, only appends to the event channel, and keeps
bits 31:4 of STATUS at 0. -/
structure Continues (s t : State) : Prop where
  cfg : t.cfg = s.cfg
  input : t.input = s.input
  events : ∃ es, t.events = s.events ++ es
  reserved : reservedZero s → reservedZero t

theorem Continues.of_same (hc : t.cfg = s.cfg) (hi : t.input = s.input) (he : t.events = s.events)
    (hs : t.status = s.status ∨ ∃ w, t.status = statusValue w) : Continues s t :=
  ⟨hc, hi, ⟨[], by rw [he, List.append_nil]⟩, reservedZero_of_status hs⟩

theorem continues_raise (k : ErrorKind) (w : U32) (a b c : U16) : Continues s (raise k w a b c s) :=
  ⟨rfl, rfl, ⟨_, raise_events ..⟩, reservedZero_of_status (.inr ⟨_, raise_status ..⟩)⟩

theorem continues_emit (e : Event) : Continues s (emit e s) := ⟨rfl, rfl, ⟨_, emit_events ..⟩, id⟩

theorem continues_dataPacket (word : U32) (buf : List Byte) : Continues s (dataPacket word buf s) := by
  refine ⟨?_, ?_, ?_, reservedZero_dataPacket word buf⟩ <;> obtain ⟨u, hu, -, -, h⟩ := dataPacket_spec word buf s <;> rw [h]
  · exact hu.cfg
  · exact hu.input
  · exact ⟨_, by rw [hu.events, List.append_assoc]⟩

theorem exec_continues {i : Instr} (h : exec i s = .next t) : Continues s t := by
  cases i with
  | nop => cases h; exact .of_same rfl rfl rfl (.inl rfl)
  | packet len p =>
    obtain ⟨-, rfl⟩ | ⟨-, -, rfl⟩ | ⟨-, -, rfl⟩ := exec_packet_cases h
    · exact continues_raise ..
    · exact ⟨rfl, rfl, ⟨_, emit_events ..⟩, id⟩
    · exact continues_dataPacket ..
  | flush => cases h; exact ⟨rfl, rfl, ⟨_, closeFrame_events ..⟩, id⟩
  | sessionReset => cases h; exact .of_same rfl rfl rfl (.inl rfl)
  | setSkip k => cases h; exact .of_same rfl rfl rfl (.inl rfl)
  | loadDefault => rw [exec_loadDefault_iff] at h; subst h; exact .of_same rfl rfl rfl (.inl rfl)
  | calWrite laser f v =>
    obtain ⟨-, rfl⟩ | ⟨id, -, rfl⟩ := exec_calWrite_cases h
    · exact continues_raise ..
    · exact .of_same rfl rfl rfl (.inl rfl)
  | calRead laser f =>
    obtain ⟨-, rfl⟩ | ⟨id, -, rfl⟩ := exec_calRead_cases h
    · exact continues_raise ..
    · exact continues_emit _
  | regRead r => cases h; exact continues_emit _
  | statusClear m => cases h; exact .of_same rfl rfl rfl (.inr ⟨_, clearStatus_status ..⟩)

theorem runCommand_continues {c : Command} (h : runCommand c s = .next t) : Continues s t := by
  obtain ⟨i, -, hi⟩ | ⟨reason, -, rfl⟩ := runCommand_cases h
  · exact exec_continues hi
  · exact continues_raise ..

/-- The configuration is kept by every action of the host and by every command. -/
theorem step_cfg (h : step s = .next t) : t.cfg = s.cfg := by
  obtain ⟨rfl, -⟩ | ⟨waiting, a, post, -, -, -, hact⟩ := step_cases h
  · rfl
  · obtain ⟨-, rfl | rfl⟩ | ⟨-, rfl⟩ | ⟨c, -, -, -, hc⟩ := hact
    · rfl
    · rfl
    · rfl
    · exact (runCommand_continues hc).cfg

/-! ### Sticky STATUS bits (R23) -/

/-- A data packet sets STATUS bits and clears none. -/
theorem statusHas_dataPacket {b : StatusBit} (word : U32) (buf : List Byte) (hb : statusHas b s = true) :
    statusHas b (dataPacket word buf s) = true := by
  obtain ⟨u, -, -, hu, h⟩ := dataPacket_spec word buf s
  have hub : statusHas b u = true := by rw [hu, hb]; rfl
  rw [h]; exact hub

/-- Only STATUS_CLEAR clears a STATUS bit, and only the bits of its mask (R23, R232). -/
theorem exec_keeps_statusBit {i : Instr} {b : StatusBit} (h : exec i s = .next t) (hb : statusHas b s = true) :
    statusHas b t = true ∨ ∃ m, i = .statusClear m ∧ m.getLsbD b.index = true := by
  have raised (k w a1 a2 a3) : statusHas b (raise k w a1 a2 a3 s) = true := by rw [statusHas_raise, hb]; rfl
  cases i with
  | nop => cases h; exact .inl hb
  | packet len p =>
    obtain ⟨-, rfl⟩ | ⟨-, -, rfl⟩ | ⟨-, -, rfl⟩ := exec_packet_cases h
    · exact .inl (raised ..)
    · exact .inl hb
    · exact .inl (statusHas_dataPacket _ _ hb)
  | flush => cases h; exact .inl hb
  | sessionReset => cases h; exact .inl hb
  | setSkip k => cases h; exact .inl hb
  | loadDefault =>
    have hst : t.status = s.status := by rw [exec_loadDefault_iff.1 h]
    exact .inl ((statusHas_congr hst b).trans hb)
  | calWrite laser f v =>
    obtain ⟨-, rfl⟩ | ⟨id, -, rfl⟩ := exec_calWrite_cases h
    · exact .inl (raised ..)
    · exact .inl hb
  | calRead laser f =>
    obtain ⟨-, rfl⟩ | ⟨id, -, rfl⟩ := exec_calRead_cases h
    · exact .inl (raised ..)
    · exact .inl hb
  | regRead r => cases h; exact .inl hb
  | statusClear m =>
    cases h
    by_cases hm : m.getLsbD b.index = true
    · exact .inr ⟨m, rfl, hm⟩
    · left; rw [statusHas_clearStatus, hb, Bool.eq_false_iff.2 hm]; rfl

/-! ### Which instructions write which register (R24 to R28) -/

/-- The registers 1 to 6 (R84) are the same in both states. -/
structure SameRegisters (s t : State) : Prop where
  lastAz : t.lastAz = s.lastAz
  pendingSkip : t.pendingSkip = s.pendingSkip
  frameCount : t.frameCount = s.frameCount
  curFramePoints : t.curFramePoints = s.curFramePoints
  dataPktCount : t.dataPktCount = s.dataPktCount
  nondataPktCount : t.nondataPktCount = s.nondataPktCount

/-- A PACKET that runs, a FLUSH, a SESSION_RESET and a SET_SKIP write registers; every other instruction leaves them as they are. -/
theorem exec_registers_cases {i : Instr} (h : exec i s = .next t) :
    (SameRegisters s t ∧ ∀ len p, i = .packet len p → p.length ≠ len.toNat) ∨
      (i = .flush ∧ t = closeFrame .flush 0 s) ∨
      (i = .sessionReset ∧ t = { s with lastAz := 0, pendingSkip := 0, curFramePoints := 0, frameCount := 0 }) ∨
      (∃ k, i = .setSkip k ∧ t = { s with pendingSkip := k }) ∨
      (∃ len p, i = .packet len p ∧ p.length = len.toNat ∧ len ≠ 1206 ∧ t = nondataPacket len s) ∨
      ∃ p, i = .packet 1206 p ∧ p.length = 1206 ∧ t = dataPacket 0x100004B6 p s := by
  cases i with
  | nop => cases h; exact .inl ⟨⟨rfl, rfl, rfl, rfl, rfl, rfl⟩, by simp⟩
  | packet len p =>
    obtain ⟨hl, rfl⟩ | ⟨hl, hn, rfl⟩ | ⟨rfl, hl, rfl⟩ := exec_packet_cases h
    · refine .inl ⟨⟨rfl, rfl, rfl, rfl, rfl, rfl⟩, fun _ _ e => ?_⟩
      cases e; exact hl
    · exact .inr (.inr (.inr (.inr (.inl ⟨len, p, rfl, hl, hn, rfl⟩))))
    · exact .inr (.inr (.inr (.inr (.inr ⟨p, rfl, hl, rfl⟩))))
  | flush => cases h; exact .inr (.inl ⟨rfl, rfl⟩)
  | sessionReset => cases h; exact .inr (.inr (.inl ⟨rfl, rfl⟩))
  | setSkip k => cases h; exact .inr (.inr (.inr (.inl ⟨k, rfl, rfl⟩)))
  | loadDefault => rw [exec_loadDefault_iff] at h; subst h; exact .inl ⟨⟨rfl, rfl, rfl, rfl, rfl, rfl⟩, by simp⟩
  | calWrite laser f v =>
    refine .inl ⟨?_, by simp⟩
    obtain ⟨-, rfl⟩ | ⟨id, -, rfl⟩ := exec_calWrite_cases h <;> exact ⟨rfl, rfl, rfl, rfl, rfl, rfl⟩
  | calRead laser f =>
    refine .inl ⟨?_, by simp⟩
    obtain ⟨-, rfl⟩ | ⟨id, -, rfl⟩ := exec_calRead_cases h <;> exact ⟨rfl, rfl, rfl, rfl, rfl, rfl⟩
  | regRead r => cases h; exact .inl ⟨⟨rfl, rfl, rfl, rfl, rfl, rfl⟩, by simp⟩
  | statusClear m => cases h; exact .inl ⟨⟨rfl, rfl, rfl, rfl, rfl, rfl⟩, by simp⟩

/-- A data packet consumes the skip and is counted as one (R25, R28). -/
theorem dataPacket_registers (word : U32) (buf : List Byte) (s : State) :
    (dataPacket word buf s).pendingSkip = 0 ∧ (dataPacket word buf s).dataPktCount = s.dataPktCount + 1 ∧
      (dataPacket word buf s).nondataPktCount = s.nondataPktCount := by
  obtain ⟨u, hu, -, -, h⟩ := dataPacket_spec word buf s
  rw [h]; exact ⟨rfl, rfl, hu.nondataPktCount⟩

theorem blocksProcessed_eq_nil {k : BitVec 4} (hk : 11 < k.toNat) : blocksProcessed k = [] := by
  simp only [blocksProcessed, List.filter_eq_nil_iff, List.mem_range, decide_eq_true_eq]
  omega

/-- A data packet that processes no block leaves LAST_AZ and the frame counters alone (R142, R203). -/
theorem dataPacket_of_no_block (word : U32) (buf : List Byte) (hk : 11 < s.pendingSkip.toNat) :
    (dataPacket word buf s).lastAz = s.lastAz ∧ (dataPacket word buf s).frameCount = s.frameCount ∧
      (dataPacket word buf s).curFramePoints = s.curFramePoints := by
  obtain ⟨u, hu, hl, -, h⟩ := dataPacket_spec word buf s
  rw [blocksProcessed_eq_nil hk] at hu hl
  obtain ⟨hp, hf⟩ := Prod.mk.inj hu.frames
  rw [h]; exact ⟨hl, hf, hp⟩

/-! ### The PACKETs that run, read as numbers (R80, R81) -/

theorem opOfNumber_eq_packet_iff (n : Nat) : opOfNumber n = some .packet ↔ n = 1 := by
  unfold opOfNumber
  split <;> simp_all

/-- Only the opcode of PACKET has a PACKET as its operands. -/
theorem operands_eq_packet_iff (op : Op) (c : Command) (len : U16) (p : List Byte) :
    op.operands c = .ok (.packet len p) ↔ op = .packet ∧ c.word.extractLsb' 0 16 = len ∧ c.payload = p := by
  cases op with
  | packet => simp [Op.operands]
  | calWrite | calRead | regRead => simp only [Op.operands]; split <;> simp
  | nop | flush | sessionReset | setSkip | loadDefault | statusClear => simp [Op.operands]

/-- A PACKET fails no check of R81 exactly when bits 27:16 of its word are 0 and its payload has LEN bytes. -/
theorem firstFailure_packet_eq_zero_iff {c : Command} (h : opNumber c = 1) :
    firstFailure c = 0 ↔ c.word &&& Op.packet.reservedMask = 0 ∧ c.payload.length = Op.packet.payloadLength c.word := by
  have hm : c.word &&& Op.packet.reservedMask = 0 ↔ hasReservedBit c = false := by
    simp [hasReservedBit, h, Op.reservedMask, len16_reserved_iff]
  have hl : Op.packet.payloadLength c.word = requiredLength c := by
    simp only [requiredLength, h, Op.payloadLength, lenField_toNat]
  rw [hm, hl]
  unfold firstFailure
  simp only [h]
  split_ifs <;> simp_all

/-- A command decodes to a PACKET exactly when it has its opcode and fails no check; LEN is then the required length. -/
theorem decode_eq_packet_iff (c : Command) (len : U16) (p : List Byte) :
    decode c = .ok (.packet len p) ↔ opNumber c = 1 ∧ firstFailure c = 0 ∧ requiredLength c = len.toNat ∧ c.payload = p := by
  by_cases h1 : opNumber c = 1
  · have hop : opOfWord c.word = some .packet := by rw [opOfWord_eq]; exact (opOfNumber_eq_packet_iff _).2 h1
    have hlen : c.word.extractLsb' 0 16 = len ↔ requiredLength c = len.toNat := by
      rw [← BitVec.toNat_inj, lenField_toNat]
      simp only [requiredLength, h1]
    rw [firstFailure_packet_eq_zero_iff h1, decode, hop, ← hlen]
    simp only [h1, true_and]
    split_ifs <;> simp_all [operands_eq_packet_iff]
  · have hop : opOfWord c.word ≠ some .packet := by rw [opOfWord_eq]; exact (opOfNumber_eq_packet_iff _).not.2 h1
    refine iff_of_false (fun h => ?_) (fun h => h1 h.1)
    unfold decode at h
    split at h
    · cases h
    · next op ho =>
      split_ifs at h
      rw [((operands_eq_packet_iff ..).1 h).1] at ho
      exact hop ho

/-- The command is a PACKET that runs, so it moves a packet counter (R28). -/
def runsPacket (c : Command) : Prop := opNumber c = 1 ∧ firstFailure c = 0

theorem decode_of_runsPacket {c : Command} (h : runsPacket c) :
    ∃ len, decode c = .ok (.packet len c.payload) ∧ requiredLength c = len.toNat ∧ c.payload.length = len.toNat := by
  obtain ⟨h1, h0⟩ := h
  have hr : requiredLength c = (c.word.extractLsb' 0 16).toNat := by simp only [requiredLength, h1, lenField_toNat]
  have hp : c.payload.length = (c.word.extractLsb' 0 16).toNat := ((firstFailure_packet_eq_zero_iff h1).1 h0).2
  exact ⟨_, (decode_eq_packet_iff ..).2 ⟨h1, h0, hr, rfl⟩, hr, hp⟩

/-- A PACKET that runs moves the counter of its class by one, and only that counter (R28). -/
theorem counters_of_runsPacket {c : Command} (hc : runsPacket c) (h : runCommand c s = .next t) :
    t.dataPktCount = s.dataPktCount + (if requiredLength c = 1206 then 1 else 0) ∧
      t.nondataPktCount = s.nondataPktCount + (if requiredLength c = 1206 then 0 else 1) := by
  obtain ⟨len, hd, hr, hp⟩ := decode_of_runsPacket hc
  rw [runCommand, hd] at h
  obtain ⟨hl, -⟩ | ⟨-, hn, rfl⟩ | ⟨rfl, -, rfl⟩ := exec_packet_cases h
  · exact absurd hp hl
  · have hn' : requiredLength c ≠ 1206 := fun e => hn (BitVec.eq_of_toNat_eq (hr.symm.trans e))
    rw [if_neg hn', if_neg hn']
    exact ⟨(BitVec.add_zero _).symm, rfl⟩
  · obtain ⟨-, hdata, hnon⟩ := dataPacket_registers 0x100004B6 c.payload s
    have hr' : requiredLength c = 1206 := hr
    rw [if_pos hr', if_pos hr']
    exact ⟨hdata, hnon.trans (BitVec.add_zero _).symm⟩

/-- No other command moves a counter (R28). -/
theorem counters_of_not_runsPacket {c : Command} (hc : ¬ runsPacket c) (h : runCommand c s = .next t) :
    t.dataPktCount = s.dataPktCount ∧ t.nondataPktCount = s.nondataPktCount := by
  obtain ⟨i, hd, hi⟩ | ⟨reason, -, rfl⟩ := runCommand_cases h
  · have hpkt : ∀ len p, i ≠ .packet len p := by
      rintro len p rfl
      obtain ⟨h1, h0, -⟩ := (decode_eq_packet_iff ..).1 hd
      exact hc ⟨h1, h0⟩
    obtain ⟨hr, -⟩ | ⟨-, rfl⟩ | ⟨-, rfl⟩ | ⟨k, -, rfl⟩ | ⟨len, p, e, -⟩ | ⟨p, e, -⟩ := exec_registers_cases hi
    · exact ⟨hr.dataPktCount, hr.nondataPktCount⟩
    · exact ⟨rfl, rfl⟩
    · exact ⟨rfl, rfl⟩
    · exact ⟨rfl, rfl⟩
    · exact absurd e (hpkt _ _)
    · exact absurd e (hpkt _ _)
  · exact ⟨rfl, rfl⟩

end Sys2Proof.Machine
end

section
/-! PROOFS. The state and the step (R23 to R36, R266, R280): O6, O7, O12 to O17. -/

namespace Sys2Proof.Machine

/-- Settles O12: every write of STATUS masks it, and so does every read. -/
theorem statusReservedBitsStayZero : Obligations.StatusReservedBitsStayZero := by
  refine ⟨rfl, fun s t hs h => ?_, fun s t h => ?_⟩
  · obtain ⟨rfl, -⟩ | ⟨waiting, a, post, -, -, -, hact⟩ := step_cases h
    · exact hs
    · obtain ⟨-, rfl | rfl⟩ | ⟨-, rfl⟩ | ⟨c, -, -, -, hc⟩ := hact
      · exact hs
      · exact hs
      · exact BitVec.zero_and
      · exact (runCommand_continues hc).reserved hs
  · cases h
    exact ⟨readStatus s, rfl, statusValue_reserved _⟩

/-- Settles O13: an event removal does not touch STATUS, a reset is the second case, and of the commands only STATUS_CLEAR clears. -/
theorem statusBitsAreSticky : Obligations.StatusBitsAreSticky := by
  intro s t b h hb
  obtain ⟨rfl, -⟩ | ⟨waiting, a, post, hin, hw, hh, hact⟩ := step_cases h
  · exact .inl hb
  · obtain ⟨-, rfl | rfl⟩ | ⟨rfl, -⟩ | ⟨c, rfl, -, rfl, hc⟩ := hact
    · exact .inl hb
    · exact .inl hb
    · exact .inr (.inl ⟨waiting, post, hin, or_iff_not_imp_left.2 fun hne => ⟨hh hne, hw⟩⟩)
    · obtain ⟨i, hd, hi⟩ | ⟨reason, -, rfl⟩ := runCommand_cases hc
      · obtain hk | ⟨m, rfl, hm⟩ := exec_keeps_statusBit hi hb
        · exact .inl hk
        · exact .inr (.inr ⟨c, post, m, hin, hd, hm⟩)
      · left
        rw [raiseIllegal, statusHas_raise, show statusHas b { s with input := post } = true from hb]; rfl

/-- Settles O14: no step writes the configuration, and the angle tables are functions of it. -/
theorem configurationNeverChanges : Obligations.ConfigurationNeverChanges := by
  intro s t h
  rw [step_cfg h]
  exact ⟨rfl, rfl, rfl⟩

/-- Settles O15: the cases of a step list the actions it takes and leaves, and a command writes neither the list nor an event already
emitted. -/
theorem stepsTakeActionsInOrderAndOnlyAppendEvents : Obligations.StepsTakeActionsInOrderAndOnlyAppendEvents := by
  refine ⟨fun s t h => ?_, fun c s t h => ⟨(runCommand_continues h).input, (runCommand_continues h).events⟩⟩
  obtain hidle | ⟨waiting, a, post, hin, hw, hh, hact⟩ := step_cases h
  · exact .inl hidle
  · have hwait : waiting = [] ∨ holds s = true ∧ ∀ x ∈ waiting, ∃ c, x = .command c :=
      or_iff_not_imp_left.2 fun hne => ⟨hh hne, hw⟩
    refine .inr ⟨waiting, a, post, hin, ?_, hwait, ?_⟩
    · obtain ⟨-, rfl | rfl⟩ | ⟨-, rfl⟩ | ⟨c, -, -, rfl, hc⟩ := hact
      · rfl
      · rfl
      · rfl
      · exact (runCommand_continues hc).input
    · obtain ⟨rfl, -⟩ | ⟨rfl, -⟩ | ⟨c, rfl, h0, -⟩ := hact
      · simp
      · simp
      · simp [h0]

/-- Settles O16: reset clears both counters, a PACKET that runs moves the one of its class, and no other command moves either. -/
theorem countersCountPackets : Obligations.CountersCountPackets := by
  refine ⟨fun cfg => ⟨rfl, rfl⟩, fun c s t h => ?_⟩
  by_cases hc : runsPacket c
  · obtain ⟨hd, hn⟩ := counters_of_runsPacket hc h
    obtain ⟨h1, h0⟩ := hc
    by_cases hr : requiredLength c = 1206 <;> simpa [h1, h0, hr] using And.intro hd hn
  · obtain ⟨hd, hn⟩ := counters_of_not_runsPacket hc h
    rw [if_neg fun h' => hc ⟨h'.1, h'.2.1⟩, if_neg fun h' => hc ⟨h'.1, h'.2.1⟩]
    exact ⟨hd.trans (BitVec.add_zero _).symm, hn.trans (BitVec.add_zero _).symm⟩

/-- Settles O17, writer by writer; a data packet writes LAST_AZ and the frame counters only if it processes a block. -/
theorem sessionRegistersFrame : Obligations.SessionRegistersFrame := by
  intro i s t h
  obtain ⟨hr, -⟩ | ⟨rfl, rfl⟩ | ⟨rfl, -⟩ | ⟨k, rfl, rfl⟩ | ⟨len, p, -, -, -, rfl⟩ | ⟨p, rfl, hp, rfl⟩ := exec_registers_cases h
  · exact ⟨.inl hr.lastAz, .inl hr.pendingSkip, .inl ⟨hr.frameCount, hr.curFramePoints⟩⟩
  · exact ⟨.inl rfl, .inl rfl, .inr (.inr (.inl rfl))⟩
  · exact ⟨.inr (.inl rfl), .inr (.inl rfl), .inr (.inl rfl)⟩
  · exact ⟨.inl rfl, .inr (.inr (.inl ⟨k, rfl⟩)), .inl ⟨rfl, rfl⟩⟩
  · exact ⟨.inl rfl, .inl rfl, .inl ⟨rfl, rfl⟩⟩
  · by_cases hk : s.pendingSkip.toNat ≤ 11
    · exact ⟨.inr (.inr ⟨p, rfl, hp, hk⟩), .inr (.inr (.inr ⟨p, rfl, hp⟩)), .inr (.inr (.inr ⟨p, rfl, hp, hk⟩))⟩
    · obtain ⟨hl, hf, hc⟩ := dataPacket_of_no_block 0x100004B6 p (not_le.1 hk)
      exact ⟨.inl hl, .inr (.inr (.inr ⟨p, rfl, hp⟩)), .inl ⟨hf, hc⟩⟩

/-- Settles O6: the step takes the command off the list and runs what it decodes to. -/
theorem stepRunsTheDecodedCommand : Obligations.StepRunsTheDecodedCommand := by
  intro s c rest hin hh
  rw [step_of_command hin hh, runCommand]
  exact ⟨fun i hi => by rw [hi], fun reason hr => by rw [hr]⟩

/-- Settles O7. In the last clause one removal leaves the full channel one event short of its capacity, so the command that waited
runs. -/
theorem idleHoldAndHostActions : Obligations.IdleHoldAndHostActions := by
  refine ⟨holds_iff, fun s h => step_of_no_action (.inl h), fun s n hn hle h => ?_, fun s waiting rest hin hw => ?_,
    fun s waiting rest hin hw => step_of_reset hw hin, fun s n c e es rest hn he hlen hin => ?_⟩
  · exact step_of_no_action (.inr ⟨(holds_iff s).2 ⟨n, hn, hle⟩, h⟩)
  · exact ⟨fun e es he hc => step_of_takeEvent hw hin he hc, fun h => step_of_takeEvent_of_nothing_visible hw hin h⟩
  · have hfull : holds s = true := (holds_iff s).2 ⟨n, hn, hlen.ge⟩
    have hn' : n = es.length + 1 := by rw [← hlen, he, List.length_cons]
    have hcap : s.cfg.eventCapacity ≠ some 0 := by simp [hn, hn']
    have hfree : holds { s with events := es, input := .command c :: rest } = false :=
      holds_eq_false_of_lt hn (by rw [hn']; exact Nat.lt_succ_self _)
    exact ⟨_, step_of_takeEvent (waiting := [.command c]) (.inr ⟨hfull, by simp⟩) hin he hcap, hfree, step_of_command rfl hfree⟩

end Sys2Proof.Machine
end

section
/-! SUPPORT. Words and their fields (R80): what the decoder reads from a word built by the encoder, and that the fields it reads, with the
reserved bits 0, make up the word again. -/

namespace Sys2Proof.Machine

open Laws

/-- The number of two bit vectors written one after the other. -/
theorem toNat_append_eq_add {m n : Nat} (x : BitVec m) (y : BitVec n) : (x ++ y).toNat = x.toNat * 2 ^ n + y.toNat := by
  rw [BitVec.toNat_append, ← Nat.shiftLeft_add_eq_or_of_lt y.isLt, Nat.shiftLeft_eq]

/-! ### Opcodes (R80) -/

/-- word[31:28] of an opcode's commands (R80). -/
def opCode : Op → BitVec 4
  | .nop => 0 | .packet => 1 | .flush => 2 | .sessionReset => 3 | .setSkip => 4
  | .loadDefault => 5 | .calWrite => 6 | .calRead => 7 | .regRead => 8 | .statusClear => 9

theorem opOfNumber_eq_some_iff (n : Nat) (op : Op) : opOfNumber n = some op ↔ n = (opCode op).toNat := by
  constructor
  · intro h
    unfold opOfNumber at h
    split at h <;> cases h <;> rfl
  · rintro rfl
    cases op <;> rfl

theorem opOfNumber_eq_none_iff (n : Nat) : opOfNumber n = none ↔ 10 ≤ n := by
  rcases lt_or_ge n 10 with h | h
  · interval_cases n <;> simp [opOfNumber]
  · obtain ⟨m, rfl⟩ := Nat.exists_eq_add_of_le' h
    exact iff_of_true rfl h

theorem opOfWord_sel4 (op : Op) (x : BitVec 4) : opOfWord (opCode op ++ 0#24 ++ x) = some op := by
  rw [opOfWord, (PassesChecks.sel4 _ x).1, opOfNumber_eq_some_iff]

theorem opOfWord_laserField (op : Op) (laser : Byte) (x : BitVec 4) :
    opOfWord (opCode op ++ 0#4 ++ laser ++ 0#12 ++ x) = some op := by
  rw [opOfWord, (PassesChecks.laserField _ laser x).1, opOfNumber_eq_some_iff]

/-- The opcode of an instruction's word (R80). -/
def instrOp : Instr → Op
  | .nop => .nop
  | .packet _ _ => .packet
  | .flush => .flush
  | .sessionReset => .sessionReset
  | .setSkip _ => .setSkip
  | .loadDefault => .loadDefault
  | .calWrite _ _ _ => .calWrite
  | .calRead _ _ => .calRead
  | .regRead _ => .regRead
  | .statusClear _ => .statusClear

/-- The encoder puts the opcode into word[31:28]. -/
theorem opOfWord_encodeWord (i : Instr) : opOfWord (encodeWord i) = some (instrOp i) := by
  cases i with
  | nop | flush | sessionReset | loadDefault => rfl
  | packet len p =>
    have := len.isLt
    rw [opOfWord_eq, encodeWord_packet_toNat, instrOp, opOfNumber_eq_packet_iff]
    omega
  | setSkip k => exact opOfWord_sel4 .setSkip k
  | calWrite laser f v => exact opOfWord_laserField .calWrite laser f.sel
  | calRead laser f => exact opOfWord_laserField .calRead laser f.sel
  | regRead r => exact opOfWord_sel4 .regRead r.sel
  | statusClear m => exact opOfWord_sel4 .statusClear m

/-! ### The checks of R81 -/

/-- A command decodes to an instruction exactly when it passes the first three checks of R81 and its operands pass the last two. -/
theorem decode_eq_ok_iff {c : Command} {i : Instr} :
    decode c = .ok i ↔ ∃ op, opOfWord c.word = some op ∧ c.word &&& op.reservedMask = 0 ∧
      c.payload.length = op.payloadLength c.word ∧ op.operands c = .ok i := by
  unfold decode
  cases opOfWord c.word with
  | none => simp
  | some op =>
    by_cases hr : c.word &&& op.reservedMask = 0#32 <;> by_cases hl : c.payload.length = op.payloadLength c.word <;> simp [hr, hl]

/-- The encoded command of a well-formed instruction passes the first three checks of R81. -/
theorem passesChecks (i : Instr) : PassesChecks.Statement i := by
  cases i with
  | nop => exact PassesChecks.nop
  | packet len p => exact PassesChecks.packet len p
  | flush => exact PassesChecks.flush
  | sessionReset => exact PassesChecks.sessionReset
  | setSkip k => exact PassesChecks.setSkip k
  | loadDefault => exact PassesChecks.loadDefault
  | calWrite laser f v => exact PassesChecks.calWrite laser f v
  | calRead laser f => exact PassesChecks.calRead laser f
  | regRead r => exact PassesChecks.regRead r
  | statusClear m => exact PassesChecks.statusClear m

/-! ### From operands to a word and back (R80, R83 to R85) -/

/-- word[23:16] of layout `laser_field` is LASER. -/
theorem extract_laser (op : BitVec 4) (laser : Byte) (x : BitVec 4) :
    (op ++ 0#4 ++ laser ++ 0#12 ++ x : U32).extractLsb' 16 8 = laser := by
  have hl := laser.isLt
  have hx := x.isLt
  apply BitVec.eq_of_toNat_eq
  rw [laserField_eq, laserField_toNat]
  omega

/-- The decoder reads from an encoded command the operands the encoder put into it. -/
theorem operands_encode (i : Instr) : (instrOp i).operands (encode i) = .ok i := by
  cases i with
  | nop | flush | sessionReset | loadDefault => rfl
  | packet len p => simp only [instrOp, Op.operands, encode, encodeWord, encodePayload, BitVec.extractLsb'_append_eq_right]
  | setSkip x | statusClear x => simp only [instrOp, Op.operands, encode, encodeWord, BitVec.extractLsb'_append_eq_right]
  | calWrite laser f v =>
    have hf : calFieldOfSel f.sel = some (.base f) := calFieldOfSel_sel (.base f)
    simp only [instrOp, Op.operands, encode, encodeWord, encodePayload, BitVec.extractLsb'_append_eq_right, hf, extract_laser,
      f64OfBytes_f64Bytes]
  | calRead laser f =>
    simp only [instrOp, Op.operands, encode, encodeWord, BitVec.extractLsb'_append_eq_right, calFieldOfSel_sel, extract_laser]
  | regRead r => simp only [instrOp, Op.operands, encode, encodeWord, BitVec.extractLsb'_append_eq_right, regOfSel_sel]

section fields

variable {w : U32} {op : BitVec 4} (ho : w.toNat / 2 ^ 28 = op.toNat)
include ho

/-- A word of layout `plain` is its opcode. -/
theorem plain_word_eq (hr : w &&& 0x0FFFFFFF#32 = 0#32) : op ++ 0#28 = w := by
  rw [plain_reserved_iff] at hr
  apply BitVec.eq_of_toNat_eq
  rw [toNat_append_eq_add, BitVec.toNat_ofNat]
  omega

/-- A word of layout `len16` is its opcode and LEN. -/
theorem len16_word_eq (hr : w &&& 0x0FFF0000#32 = 0#32) : op ++ 0#12 ++ w.extractLsb' 0 16 = w := by
  rw [len16_reserved_iff] at hr
  apply BitVec.eq_of_toNat_eq
  rw [toNat_append_eq_add, toNat_append_eq_add, lenField_toNat, BitVec.toNat_ofNat]
  omega

/-- A word of layout `sel4` is its opcode and its selector. -/
theorem sel4_word_eq (hr : w &&& 0x0FFFFFF0#32 = 0#32) : op ++ 0#24 ++ w.extractLsb' 0 4 = w := by
  rw [sel4_reserved_iff] at hr
  apply BitVec.eq_of_toNat_eq
  rw [sel4_toNat, selField_toNat]
  omega

/-- A word of layout `laser_field` is its opcode, LASER and FIELD. -/
theorem laserField_word_eq (hr : w &&& 0x0F00FFF0#32 = 0#32) :
    op ++ 0#4 ++ w.extractLsb' 16 8 ++ 0#12 ++ w.extractLsb' 0 4 = w := by
  rw [laserField_reserved_iff] at hr
  apply BitVec.eq_of_toNat_eq
  rw [laserField_toNat, laserField_eq, selField_toNat]
  omega

end fields

theorem f64Bytes_f64OfBytes_of_length {bs : List Byte} (h : bs.length = 8) : f64Bytes (f64OfBytes bs) = bs := by
  match bs, h with
  | [b0, b1, b2, b3, b4, b5, b6, b7], _ => exact f64Bytes_f64OfBytes b0 b1 b2 b3 b4 b5 b6 b7

/-- Encoding the operands of a command that passes the first three checks of R81 gives the command back. -/
theorem encode_operands {c : Command} {op : Op} {i : Instr} (ho : opOfWord c.word = some op) (hr : c.word &&& op.reservedMask = 0)
    (hl : c.payload.length = op.payloadLength c.word) (hi : op.operands c = .ok i) : encode i = c ∧ i.wellFormed = true := by
  rw [opOfWord_eq, opOfNumber_eq_some_iff] at ho
  obtain ⟨w, p⟩ := c
  have hp (h : op.payloadLength w = 0) : p = [] := List.eq_nil_of_length_eq_zero (hl.trans h)
  have made {j : Instr} (hw : encodeWord j = w) (hb : encodePayload j = p) : encode j = ⟨w, p⟩ := by rw [encode, hw, hb]
  cases op with
  | nop | flush | sessionReset | loadDefault => cases hi; exact ⟨made (plain_word_eq ho hr) (hp rfl).symm, rfl⟩
  | packet => cases hi; exact ⟨made (len16_word_eq ho hr) rfl, beq_iff_eq.2 hl⟩
  | setSkip | statusClear => cases hi; exact ⟨made (sel4_word_eq ho hr) (hp rfl).symm, rfl⟩
  | calWrite =>
    simp only [Op.operands] at hi
    split at hi <;> cases hi
    next f hf =>
    refine ⟨made ?_ (f64Bytes_f64OfBytes_of_length hl), rfl⟩
    rw [encodeWord, show f.sel = _ from sel_of_calFieldOfSel hf]
    exact laserField_word_eq ho hr
  | calRead =>
    simp only [Op.operands] at hi
    split at hi <;> cases hi
    next hf =>
    refine ⟨made ?_ (hp rfl).symm, rfl⟩
    rw [encodeWord, sel_of_calFieldOfSel hf]
    exact laserField_word_eq ho hr
  | regRead =>
    simp only [Op.operands] at hi
    split at hi <;> cases hi
    next hf =>
    refine ⟨made ?_ (hp rfl).symm, rfl⟩
    rw [encodeWord, sel_of_regOfSel hf]
    exact sel4_word_eq ho hr

/-! ### The words of R87 -/

theorem encodeWord_packet_eq_or (len : U16) (p : List Byte) : encodeWord (.packet len p) = 0x10000000 ||| len.zeroExtend 32 := by
  have h := BitVec.setWidth_append_eq_shiftLeft_setWidth_or (b := 0x1#4 ++ 0#12) (b' := len) (w'' := 32)
  rwa [BitVec.setWidth_eq] at h

theorem append_sel_eq_or (hi : BitVec 28) (x : BitVec 4) : (hi ++ x : U32) = (hi.zeroExtend 32 <<< 4) ||| x.zeroExtend 32 := by
  have h := BitVec.setWidth_append_eq_shiftLeft_setWidth_or (b := hi) (b' := x) (w'' := 32)
  rwa [BitVec.setWidth_eq] at h

theorem laserField_eq_or (hi : BitVec 8) (laser : Byte) (x : BitVec 4) :
    (hi ++ laser ++ 0#12 ++ x : U32) = (hi.zeroExtend 32 <<< 24) ||| (laser.zeroExtend 32 <<< 16) ||| x.zeroExtend 32 := by
  have h := BitVec.setWidth_append_append_append_eq_shiftLeft_setWidth_or (b := hi) (b' := laser) (b'' := 0#12) (b''' := x) (w'''' := 32)
  rwa [BitVec.setWidth_eq, BitVec.setWidth_zero, BitVec.zero_shiftLeft, BitVec.or_zero] at h

/-- The binary64 of eight payload bytes has b0 in its least significant byte (R85). -/
theorem f64OfBytes_eq_append (b0 b1 b2 b3 b4 b5 b6 b7 : Byte) :
    f64OfBytes [b0, b1, b2, b3, b4, b5, b6, b7] = b7 ++ b6 ++ b5 ++ b4 ++ b3 ++ b2 ++ b1 ++ b0 := by
  apply BitVec.eq_of_toNat_eq
  have h0 := b0.isLt; have h1 := b1.isLt; have h2 := b2.isLt; have h3 := b3.isLt
  have h4 := b4.isLt; have h5 := b5.isLt; have h6 := b6.isLt; have h7 := b7.isLt
  simp only [f64OfBytes, leNat, BitVec.toNat_ofNat, toNat_append_eq_add]
  omega

end Sys2Proof.Machine
end

section
/-! SUPPORT. Rejected commands: the five checks of R81, read as numbers from the command, are the decoder's. -/

namespace Sys2Proof.Machine

/-! ### Rejection (R81, R253) -/

/-- A rejected command leaves the state R81 and R253 describe. -/
theorem raiseIllegal_eq_rejected (reason : IllegalReason) (c : Command) (s : State) :
    raiseIllegal reason c s = rejected reason.code.toNat c s := by
  cases reason <;> rfl

/-- The sub-reason of an outcome of decoding, 0 for an instruction (R81). -/
def failureOf : Except IllegalReason Instr → Nat
  | .ok _ => 0
  | .error reason => reason.code.toNat

/-! ### The checks read as numbers (R80, R81) -/

/-- Bits that R80's table shows as 0 are those of the opcode's mask. -/
theorem hasReservedBit_iff {c : Command} {op : Op} (ho : opNumber c = (opCode op).toNat) :
    hasReservedBit c = true ↔ c.word &&& op.reservedMask ≠ 0 := by
  unfold hasReservedBit
  rw [ho]
  cases op with
  | nop | flush | sessionReset | loadDefault => simp [opCode, Op.reservedMask, plain_reserved_iff]
  | packet => simp [opCode, Op.reservedMask, len16_reserved_iff]
  | setSkip | regRead | statusClear => simp [opCode, Op.reservedMask, sel4_reserved_iff]
  | calWrite | calRead => simp [opCode, Op.reservedMask, laserField_reserved_iff, ← not_and_or]

/-- The length R80's table requires is the decoder's. -/
theorem requiredLength_eq {c : Command} {op : Op} (ho : opNumber c = (opCode op).toNat) :
    requiredLength c = op.payloadLength c.word := by
  unfold requiredLength
  rw [ho]
  cases op with
  | packet => exact (lenField_toNat c.word).symm
  | nop | flush | sessionReset | setSkip | loadDefault | calWrite | calRead | regRead | statusClear => rfl

/-! ### Selectors as numbers (R83, R84) -/

theorem baseField_sel_lt (f : BaseField) : f.sel.toNat < 5 := by cases f <;> decide

theorem five_le_derivedField_sel (f : DerivedField) : 5 ≤ f.sel.toNat := by cases f <;> decide

theorem calField_sel_lt (f : CalField) : f.sel.toNat < 9 := by rcases f with f | f <;> cases f <;> decide

theorem reg_sel_lt (r : Reg) : r.sel.toNat < 7 := by cases r <;> decide

/-! ### The first failing check -/

/-- Checks 4 and 5 of R81 read the selector as a number. -/
theorem failureOf_operands {c : Command} {op : Op} (ho : opNumber c = (opCode op).toNat) :
    failureOf (op.operands c) =
      if ((opNumber c = 6 ∨ opNumber c = 7) ∧ 9 ≤ selNumber c) ∨ (opNumber c = 8 ∧ 7 ≤ selNumber c) then 4
      else if opNumber c = 6 ∧ 5 ≤ selNumber c then 5
      else 0 := by
  have hs : selNumber c = (c.word.extractLsb' 0 4).toNat := (selField_toNat _).symm
  rw [ho, hs]
  cases op with
  | nop | packet | flush | sessionReset | setSkip | loadDefault | statusClear => rfl
  | calWrite =>
    unfold Op.operands
    generalize c.word.extractLsb' 0 4 = x
    rcases hf : calFieldOfSel x with _ | f | f
    · have h9 := (calFieldOfSel_eq_none_iff x).1 hf
      simp [opCode, failureOf, IllegalReason.code, h9]
    · obtain rfl : f.sel = x := sel_of_calFieldOfSel hf
      have h9 : f.sel.toNat < 9 := calField_sel_lt (.base f)
      simp [opCode, failureOf, h9.not_ge, (baseField_sel_lt f).not_ge]
    · obtain rfl : f.sel = x := sel_of_calFieldOfSel hf
      have h9 : f.sel.toNat < 9 := calField_sel_lt (.derived f)
      simp [opCode, failureOf, IllegalReason.code, h9.not_ge, five_le_derivedField_sel f]
  | calRead =>
    unfold Op.operands
    generalize c.word.extractLsb' 0 4 = x
    rcases hf : calFieldOfSel x with _ | f
    · have h9 := (calFieldOfSel_eq_none_iff x).1 hf
      simp [opCode, failureOf, IllegalReason.code, h9]
    · obtain rfl := sel_of_calFieldOfSel hf
      simp [opCode, failureOf, (calField_sel_lt f).not_ge]
  | regRead =>
    unfold Op.operands
    generalize c.word.extractLsb' 0 4 = x
    rcases hr : regOfSel x with _ | r
    · have h7 := (regOfSel_eq_none_iff x).1 hr
      simp [opCode, failureOf, IllegalReason.code, h7]
    · obtain rfl := sel_of_regOfSel hr
      simp [opCode, failureOf, (reg_sel_lt r).not_ge]

/-- The first failing check of R81, read off the command's numbers, is the one the decoder names. -/
theorem firstFailure_eq_failureOf_decode (c : Command) : firstFailure c = failureOf (decode c) := by
  unfold firstFailure decode
  rcases h : opOfWord c.word with _ | op
  · rw [opOfWord_eq, opOfNumber_eq_none_iff] at h
    exact if_pos h
  · rw [opOfWord_eq, opOfNumber_eq_some_iff] at h
    have ho : opNumber c = (opCode op).toNat := h
    have hlt : ¬ 10 ≤ opNumber c := by rw [ho]; cases op <;> decide
    rw [if_neg hlt, requiredLength_eq ho, ← failureOf_operands ho]
    simp only [hasReservedBit_iff ho]
    split_ifs <;> rfl

end Sys2Proof.Machine
end

section
/-! SUPPORT. The frame ends among a command's events and the frame counters; a calibration entry written twice. -/

namespace Sys2Proof.Machine

/-! ### A calibration entry written again (R118) -/

theorem setCalEntry_setCalEntry (id : BitVec 6) (e e' : CalEntry) (s : State) :
    setCalEntry id e' (setCalEntry id e s) = setCalEntry id e' s := by
  simp [setCalEntry]

theorem laserIndex_of_lt {laser : Byte} (h : laser.toNat < 64) : laserIndex laser = some (laser.setWidth 6) := if_pos h

/-- CAL_WRITE of a laser below 64 writes its entry (R118). -/
theorem exec_calWrite_of_lt {laser : Byte} (h : laser.toNat < 64) (f : BaseField) (v : F64) (s : State) :
    exec (.calWrite laser f v) s =
      .next (setCalEntry (laser.setWidth 6) (deriveEntry s.cfg ((calEntry s (laser.setWidth 6)).withBase f v)) s) := by
  simp only [exec, execCalWrite, laserIndex_of_lt h]

/-- CAL_WRITE again of an entry just written. -/
theorem exec_calWrite_setCalEntry {laser : Byte} (h : laser.toNat < 64) (f : BaseField) (v : F64) (e : CalEntry) (s : State) :
    exec (.calWrite laser f v) (setCalEntry (laser.setWidth 6) e s) =
      .next (setCalEntry (laser.setWidth 6) (deriveEntry s.cfg (e.withBase f v)) s) := by
  rw [exec_calWrite_of_lt h, calEntry_setCalEntry_self, setCalEntry_setCalEntry, setCalEntry_cfg]

/-! ### Frame ends and their counts (R26, R27, R92) -/

theorem framesCountedFrom_cons (c : U32 × U32) (e : Event) (es : List Event) :
    framesCountedFrom c (e :: es) = (framesCountedFrom c [e] && framesCountedFrom (account c e) es) := by
  cases e <;> simp [framesCountedFrom]

theorem framesCountedFrom_append (c : U32 × U32) (es fs : List Event) :
    framesCountedFrom c (es ++ fs) = (framesCountedFrom c es && framesCountedFrom (es.foldl account c) fs) := by
  induction es generalizing c with
  | nil => rfl
  | cons e es ih => rw [List.cons_append, framesCountedFrom_cons, framesCountedFrom_cons c e es, ih, List.foldl_cons, Bool.and_assoc]

/-- Events without a frame end (tag 1, R90) carry no count. -/
theorem framesCountedFrom_of_no_frameEnd {es : List Event} (h : ∀ e ∈ es, e.tag ≠ 1) (c : U32 × U32) :
    framesCountedFrom c es = true := by
  induction es generalizing c with
  | nil => rfl
  | cons e es ih =>
    rw [framesCountedFrom_cons, ih fun e he => h e (List.mem_cons_of_mem _ he), Bool.and_true]
    cases e with
    | frameEnd => exact absurd rfl (h _ (List.mem_cons_self ..))
    | point | packet | calData | regData | error => rfl

/-- A return closes no frame. -/
theorem returnEvents_no_frameEnd {cfg : Config} {cal : Vector CalEntry 64} {word : U32} {p : List Byte} {k j : Nat} {e : Event}
    (h : e ∈ returnEvents cfg cal word p k j) : e.tag ≠ 1 := by
  simp only [returnEvents, eventsOfReturn] at h
  split_ifs at h
  · cases h
  · rw [List.mem_singleton.1 h]; simp [Event.tag]
  · rw [List.mem_singleton.1 h]; simp [Event.tag]

/-- The frame end of a block that splits carries the counts at the block's start. -/
theorem framesCountedFrom_blockEvents (cfg : Config) (cal : Vector CalEntry 64) (word : U32) (p : List Byte) (k : Nat) (last : U16)
    (c : U32 × U32) : framesCountedFrom c (blockEvents cfg cal word p k last c) = true := by
  have hsplit : framesCountedFrom c (splitEvents k (u16At p (100 * k + 2)) last c) = true := by
    unfold splitEvents; split <;> simp [framesCountedFrom]
  have hret (c' : U32 × U32) : framesCountedFrom c' ((List.range 32).flatMap (returnEvents cfg cal word p k)) = true := by
    refine framesCountedFrom_of_no_frameEnd (fun e he => ?_) c'
    obtain ⟨j, -, hj⟩ := List.mem_flatMap.1 he
    exact returnEvents_no_frameEnd hj
  rw [blockEvents, framesCountedFrom_append, hsplit, hret, Bool.and_true]

theorem framesCountedFrom_blocksEvents (cfg : Config) (cal : Vector CalEntry 64) (word : U32) (p : List Byte) (ks : List Nat) (last : U16)
    (c : U32 × U32) : framesCountedFrom c (blocksEvents cfg cal word p ks last c) = true := by
  induction ks generalizing last c with
  | nil => rfl
  | cons k ks ih => rw [blocksEvents_cons, framesCountedFrom_append, framesCountedFrom_blockEvents, ih, Bool.and_true]

/-- `t` is `s` after events whose frame ends carry the counts from `s` on, and its frame counters follow them (R26, R27, R92). -/
def FramesFollow (s t : State) : Prop :=
  ∃ es, t.events = s.events ++ es ∧ framesCountedFrom (s.curFramePoints, s.frameCount) es = true ∧
    (t.curFramePoints, t.frameCount) = es.foldl account (s.curFramePoints, s.frameCount)

variable {s t : State}

/-! ### What each instruction does to the frames -/

theorem framesFollow_of_same (he : t.events = s.events) (hp : t.curFramePoints = s.curFramePoints) (hf : t.frameCount = s.frameCount) :
    FramesFollow s t :=
  ⟨[], by rw [he, List.append_nil], rfl, by rw [hp, hf]; rfl⟩

theorem framesFollow_raise (k : ErrorKind) (w : U32) (a b c : U16) : FramesFollow s (raise k w a b c s) := ⟨_, rfl, rfl, rfl⟩

theorem framesFollow_dataPacket (word : U32) (p : List Byte) : FramesFollow s (dataPacket word p s) := by
  obtain ⟨u, hu, -, -, h⟩ := dataPacket_spec word p s
  rw [h]
  refine ⟨_, by rw [hu.events, List.append_assoc], ?_, ?_⟩
  · rw [framesCountedFrom_append, framesCountedFrom_blocksEvents]; rfl
  · rw [List.foldl_append, ← hu.frames]; rfl

/-- SESSION_RESET alone moves the frame counters without an event. -/
theorem exec_framesFollow {i : Instr} (h : exec i s = .next t) (hi : i ≠ .sessionReset) : FramesFollow s t := by
  cases i with
  | nop => cases h; exact framesFollow_of_same rfl rfl rfl
  | packet len p =>
    obtain ⟨-, rfl⟩ | ⟨-, -, rfl⟩ | ⟨-, -, rfl⟩ := exec_packet_cases h
    · exact framesFollow_raise ..
    · exact ⟨_, rfl, rfl, rfl⟩
    · exact framesFollow_dataPacket ..
  | flush => cases h; exact ⟨_, rfl, by simp [framesCountedFrom], rfl⟩
  | sessionReset => exact absurd rfl hi
  | setSkip k => cases h; exact framesFollow_of_same rfl rfl rfl
  | loadDefault => rw [exec_loadDefault_iff] at h; subst h; exact framesFollow_of_same rfl rfl rfl
  | calWrite laser f v =>
    obtain ⟨-, rfl⟩ | ⟨id, -, rfl⟩ := exec_calWrite_cases h
    · exact framesFollow_raise ..
    · exact framesFollow_of_same rfl rfl rfl
  | calRead laser f =>
    obtain ⟨-, rfl⟩ | ⟨id, -, rfl⟩ := exec_calRead_cases h
    · exact framesFollow_raise ..
    · exact ⟨_, rfl, rfl, rfl⟩
  | regRead r => cases h; exact ⟨_, rfl, rfl, rfl⟩
  | statusClear m => cases h; exact framesFollow_of_same rfl rfl rfl

end Sys2Proof.Machine
end

section
/-! PROOFS. The encoding, the checks of R81, the pseudo-commands and the frame counters: O1 to O5, O19, O33, O35. -/

namespace Sys2Proof.Machine

/-- Settles O1: the encoded command passes the first three checks, and its operands are read back as they were put in. -/
theorem decodeInvertsEncode : Obligations.DecodeInvertsEncode := by
  intro i hi
  obtain ⟨op, ho, hr, hl⟩ := passesChecks i hi
  obtain rfl : instrOp i = op := Option.some.inj ((opOfWord_encodeWord i).symm.trans ho)
  exact decode_eq_ok_iff.2 ⟨_, ho, hr, hl, operands_encode i⟩

/-- Settles O2: the reserved bits being 0, the fields the decoder reads are the whole word. -/
theorem encodeInvertsDecode : Obligations.EncodeInvertsDecode := by
  intro c i h
  obtain ⟨op, ho, hr, hl, hi⟩ := decode_eq_ok_iff.1 h
  exact encode_operands ho hr hl hi

/-- A command made up of an instruction's word and payload decodes to it. -/
theorem decode_of_encode_parts {c : Command} (i : Instr) (hi : i.wellFormed = true) (hw : encodeWord i = c.word)
    (hp : encodePayload i = c.payload) : decode c = .ok i := by
  rw [← decodeInvertsEncode i hi, encode, hw, hp]

/-- Settles O3: each word of the table is the encoder's word of its command. -/
theorem syntaxTableWordsDecode : Obligations.SyntaxTableWordsDecode := by
  refine ⟨rfl, fun len p hl => decode_of_encode_parts (.packet len p) (beq_iff_eq.2 hl) (encodeWord_packet_eq_or len p) rfl, rfl, rfl,
    fun k => decode_of_encode_parts (.setSkip k) rfl (append_sel_eq_or _ k) rfl, rfl,
    fun laser b0 b1 b2 b3 b4 b5 b6 b7 n f hf => ?_, fun laser n f hf => ?_,
    fun n r hr => ?_, fun m => decode_of_encode_parts (.statusClear m) rfl (append_sel_eq_or _ m) rfl⟩
  · obtain rfl : n = f.sel := by cases f <;> simpa [BaseField.sel] using hf
    rw [← f64OfBytes_eq_append]
    exact decode_of_encode_parts (.calWrite laser f _) rfl (laserField_eq_or _ laser f.sel) (f64Bytes_f64OfBytes ..)
  · obtain rfl : n = f.sel := by rcases f with f | f <;> cases f <;> simpa [CalField.sel, BaseField.sel, DerivedField.sel] using hf
    exact decode_of_encode_parts (.calRead laser f) rfl (laserField_eq_or _ laser f.sel) rfl
  · obtain rfl : n = r.sel := by cases r <;> simpa [Reg.sel] using hr
    exact decode_of_encode_parts (.regRead r) rfl (append_sel_eq_or _ r.sel) rfl

/-- Settles O4: each word is the encoding of its command. -/
theorem sampleWordsDecode : Obligations.SampleWordsDecode :=
  ⟨decodeInvertsEncode (.packet 3 [1, 2, 3]) rfl, decodeInvertsEncode (.setSkip 12) rfl,
    decodeInvertsEncode (.calWrite 40 .vOffCorr 0x3FC999999999999A) rfl, decodeInvertsEncode (.calRead 31 (.derived .sinVOff)) rfl,
    decodeInvertsEncode (.regRead .pendingSkip) rfl, decodeInvertsEncode (.statusClear 6) rfl⟩

/-- Settles O5: the checks read as numbers are the decoder's. -/
theorem malformedCommandsAreRejectedInOrder : Obligations.MalformedCommandsAreRejectedInOrder := by
  intro c s
  rw [firstFailure_eq_failureOf_decode, runCommand]
  rcases h : decode c with reason | i
  · refine ⟨fun _ => congrArg Host.Outcome.next (raiseIllegal_eq_rejected reason c s), fun h0 => ?_⟩
    cases reason <;> cases h0
  · exact ⟨fun h0 => absurd rfl h0, fun _ => ⟨i, rfl, (encodeInvertsDecode c i h).2, rfl⟩⟩

/-- Settles O19: a SESSION_RESET emits nothing, and after every other command the counters follow its events. -/
theorem frameCountersFollowEvents : Obligations.FrameCountersFollowEvents := by
  intro c s t h
  by_cases hc : decode c = .ok .sessionReset
  · rw [runCommand, hc] at h
    cases h
    exact ⟨[], (List.append_nil _).symm, rfl, fun hn => absurd hc hn, fun _ => ⟨rfl, rfl, rfl⟩⟩
  · have hf : FramesFollow s t := by
      obtain ⟨i, hd, hi⟩ | ⟨reason, -, rfl⟩ := runCommand_cases h
      · exact exec_framesFollow hi (by rintro rfl; exact hc hd)
      · exact framesFollow_raise ..
    obtain ⟨es, he, hcount, hk⟩ := hf
    exact ⟨es, he, hcount, fun _ => hk, fun h' => absurd h' hc⟩

/-- Settles O33: each CAL_WRITE of the expansion overwrites the entry the one before it wrote, and the derived fields depend on the base
fields alone. -/
theorem pseudoCommandsExpand : Obligations.PseudoCommandsExpand := by
  refine ⟨fun _ => rfl, rfl, fun laser az vert dist voff hoff s h => ?_⟩
  refine ⟨_, _, _, _, rfl, exec_calWrite_of_lt h .., exec_calWrite_setCalEntry h .., exec_calWrite_setCalEntry h ..,
    exec_calWrite_setCalEntry h .., (exec_calWrite_setCalEntry h ..).trans ?_⟩
  have hid : (laser.setWidth 6).toNat = laser.toNat := by rw [BitVec.toNat_setWidth]; exact Nat.mod_eq_of_lt h
  simp only [setCalEntry, hid]
  rfl

/-- Settles O35: the rejection of R81's check 3, with the PACKET's word. -/
theorem packetOfWrongLengthIsRejected : Obligations.PacketOfWrongLengthIsRejected := by
  intro len p s h
  have hx : exec (.packet len p) s = .next (raiseIllegal .payloadLength (encode (.packet len p)) s) := if_pos h
  rw [hx, raiseIllegal_eq_rejected, encode, encodeWord_packet_eq_or]
  rfl

end Sys2Proof.Machine
end

section
/-! SUPPORT. What an instruction does to the calibration RAM and to the reports of UNKNOWN_LASER, and the commands of one opcode that
are rejected. -/

namespace Sys2Proof.Machine

variable {s t : State}

/-! ### The calibration RAM (R32, R115) -/

theorem derivedConsistent_of_same (hcfg : t.cfg = s.cfg) (hcal : t.cal = s.cal) (h : derivedConsistent s) : derivedConsistent t := by
  intro k hk
  simp only [hcfg, hcal]
  exact h k hk

theorem derivedConsistent_of_defaultProfile (h : t.cal = defaultProfile t.cfg) : derivedConsistent t := by
  intro k hk
  simp only [h, getElem_defaultProfile, deriveEntry_defaultEntry]

/-- Writing one entry with its derived fields recomputed keeps all entries consistent. -/
theorem derivedConsistent_setCalEntry (id : BitVec 6) (e : CalEntry) (h : derivedConsistent s) :
    derivedConsistent (setCalEntry id (deriveEntry s.cfg e) s) := by
  intro k hk
  by_cases hid : id.toNat = k
  · subst hid
    simp only [setCalEntry_cal, setCalEntry_cfg, Vector.getElem_set_self, deriveEntry_idem]
  · simp only [setCalEntry_cal, setCalEntry_cfg, Vector.getElem_set_ne _ _ hid]
    exact h k hk

theorem dataPacket_cal (word : U32) (buf : List Byte) (s : State) : (dataPacket word buf s).cal = s.cal := by
  obtain ⟨u, hu, -, -, h⟩ := dataPacket_spec word buf s
  rw [h]; exact hu.cal

theorem toNat_setWidth_of_lt {laser : Byte} (h : laser.toNat < 64) : (laser.setWidth 6).toNat = laser.toNat := by
  rw [BitVec.toNat_setWidth]; exact Nat.mod_eq_of_lt h

theorem laserIndex_eq_none_iff (laser : Byte) : laserIndex laser = none ↔ 64 ≤ laser.toNat := by
  rw [laserIndex, ite_eq_right_iff, ← not_lt]; simp

theorem laserIndex_eq_some_iff (laser : Byte) (id : BitVec 6) :
    laserIndex laser = some id ↔ laser.toNat < 64 ∧ laser.setWidth 6 = id := by
  rw [laserIndex, Option.ite_none_right_eq_some, Option.some.injEq]

/-- LOAD_DEFAULT writes the built-in profile and CAL_WRITE one entry; every other instruction leaves the calibration RAM alone. -/
theorem exec_cal_cases {i : Instr} (h : exec i s = .next t) :
    t.cal = s.cal ∨ (i = .loadDefault ∧ t.cal = defaultProfile s.cfg) ∨
      ∃ laser f v, i = .calWrite laser f v ∧ laser.toNat < 64 ∧
        t = setCalEntry (laser.setWidth 6) (deriveEntry s.cfg ((calEntry s (laser.setWidth 6)).withBase f v)) s := by
  cases i with
  | nop | flush | sessionReset | setSkip | regRead | statusClear => cases h; exact .inl rfl
  | packet len p =>
    obtain ⟨-, rfl⟩ | ⟨-, -, rfl⟩ | ⟨-, -, rfl⟩ := exec_packet_cases h
    · exact .inl rfl
    · exact .inl rfl
    · exact .inl (dataPacket_cal ..)
  | loadDefault => rw [exec_loadDefault_iff] at h; subst h; exact .inr (.inl ⟨rfl, rfl⟩)
  | calWrite laser f v =>
    obtain ⟨-, rfl⟩ | ⟨id, hid, rfl⟩ := exec_calWrite_cases h
    · exact .inl rfl
    · obtain ⟨hlt, rfl⟩ := (laserIndex_eq_some_iff laser id).1 hid
      exact .inr (.inr ⟨laser, f, v, rfl, hlt, rfl⟩)
  | calRead laser f =>
    obtain ⟨-, rfl⟩ | ⟨id, -, rfl⟩ := exec_calRead_cases h <;> exact .inl rfl

/-- Each writer of the calibration RAM recomputes the derived fields of the entries it writes (R115). -/
theorem runCommand_derivedConsistent {c : Command} (h : runCommand c s = .next t) (hs : derivedConsistent s) : derivedConsistent t := by
  have hcfg : t.cfg = s.cfg := (runCommand_continues h).cfg
  obtain ⟨i, -, hi⟩ | ⟨reason, -, rfl⟩ := runCommand_cases h
  · obtain hcal | ⟨-, hcal⟩ | ⟨laser, f, v, -, -, rfl⟩ := exec_cal_cases hi
    · exact derivedConsistent_of_same hcfg hcal hs
    · exact derivedConsistent_of_defaultProfile (by rw [hcal, hcfg])
    · exact derivedConsistent_setCalEntry _ _ hs
  · exact derivedConsistent_of_same rfl rfl hs

/-! ### UNKNOWN_LASER (R120) -/

/-- A packet's returns report no error but AZ_RANGE (R173). -/
theorem error_of_mem_blocksEvents {cfg : Config} {cal : Vector CalEntry 64} {word : U32} {p : List Byte} {ks : List Nat} {last : U16}
    {c : U32 × U32} {kind : ErrorKind} {w : U32} {a1 a2 a3 : U16}
    (h : Event.error kind w a1 a2 a3 ∈ blocksEvents cfg cal word p ks last c) : kind = .azRange := by
  induction ks generalizing last c with
  | nil => cases h
  | cons k ks ih =>
    rw [blocksEvents_cons, blockEvents, List.mem_append, List.mem_append, List.mem_flatMap] at h
    obtain (hsplit | ⟨j, -, hret⟩) | hrest := h
    · unfold splitEvents at hsplit
      split at hsplit <;> simp at hsplit
    · simp only [returnEvents, eventsOfReturn] at hret
      split_ifs at hret
      · cases hret
      · cases List.mem_singleton.1 hret; rfl
      · cases List.mem_singleton.1 hret
    · exact ih hrest

/-- Of the instructions only CAL_WRITE and CAL_READ report UNKNOWN_LASER, with a LASER above 63 as argument 1 (R118, R119). -/
theorem exec_unknownLaser {i : Instr} {es : List Event} {w : U32} {a1 a2 a3 : U16} (h : exec i s = .next t)
    (he : t.events = s.events ++ es) (hm : Event.error .unknownLaser w a1 a2 a3 ∈ es) :
    ∃ laser : Byte, ((∃ f v, i = .calWrite laser f v) ∨ ∃ f, i = .calRead laser f) ∧ 64 ≤ laser.toNat ∧
      a1 = laser.zeroExtend 16 ∧ a2 = 0 ∧ a3 = 0 := by
  have appended {fs : List Event} (hf : t.events = s.events ++ fs) : Event.error .unknownLaser w a1 a2 a3 ∈ fs := by
    rwa [← List.append_cancel_left (he.symm.trans hf)]
  have quiet (hf : t.events = s.events) : False := List.not_mem_nil (appended (hf.trans (List.append_nil _).symm))
  cases i with
  | nop | sessionReset | setSkip | statusClear => cases h; exact (quiet rfl).elim
  | packet len p =>
    obtain ⟨-, rfl⟩ | ⟨-, -, rfl⟩ | ⟨-, -, rfl⟩ := exec_packet_cases h
    · cases List.mem_singleton.1 (appended (raise_events ..))
    · cases List.mem_singleton.1 (appended (emit_events ..))
    · obtain ⟨u, hu, -, -, hd⟩ := dataPacket_spec 0x100004B6 p s
      have hmem := appended (by rw [hd, hu.events, List.append_assoc])
      obtain hb | hb := List.mem_append.1 hmem
      · cases error_of_mem_blocksEvents hb
      · cases List.mem_singleton.1 hb
  | flush => cases h; cases List.mem_singleton.1 (appended (closeFrame_events ..))
  | loadDefault => rw [exec_loadDefault_iff] at h; subst h; exact (quiet rfl).elim
  | calWrite laser f v =>
    obtain ⟨hl, rfl⟩ | ⟨id, -, rfl⟩ := exec_calWrite_cases h
    · cases List.mem_singleton.1 (appended (raise_events ..))
      exact ⟨laser, .inl ⟨f, v, rfl⟩, (laserIndex_eq_none_iff laser).1 hl, rfl, rfl, rfl⟩
    · exact (quiet rfl).elim
  | calRead laser f =>
    obtain ⟨hl, rfl⟩ | ⟨id, -, rfl⟩ := exec_calRead_cases h
    · cases List.mem_singleton.1 (appended (raise_events ..))
      exact ⟨laser, .inr ⟨f, rfl⟩, (laserIndex_eq_none_iff laser).1 hl, rfl, rfl, rfl⟩
    · cases List.mem_singleton.1 (appended (emit_events ..))
  | regRead r => cases h; cases List.mem_singleton.1 (appended (emit_events ..))

/-- word[31:28] and word[23:16] of layout `laser_field` are the opcode and LASER (R80). -/
theorem numbers_of_laserField {c : Command} {op : BitVec 4} {laser : Byte} {x : BitVec 4}
    (h : c.word = op ++ 0#4 ++ laser ++ 0#12 ++ x) : opNumber c = op.toNat ∧ laserNumber c = laser.toNat := by
  have hl := laser.isLt
  have hx := x.isLt
  rw [opNumber, laserNumber, h, laserField_toNat]
  omega

/-- The top byte of layout `laser_field` is the opcode over zeros, and its low half is the selector under zeros (R80). -/
theorem laserField_parts (op : BitVec 4) (laser : Byte) (x : BitVec 4) :
    (op ++ 0#4 ++ laser ++ 0#12 ++ x : U32).toNat / 2 ^ 24 = op.toNat * 2 ^ 4 ∧
      (op ++ 0#4 ++ laser ++ 0#12 ++ x : U32).toNat % 2 ^ 16 = x.toNat := by
  have hl := laser.isLt
  have hx := x.isLt
  rw [laserField_toNat]
  omega

/-! ### CAL_WRITE and CAL_READ, LASER by LASER (R118, R119) -/

theorem exec_calWrite_of_le {laser : Byte} (h : 64 ≤ laser.toNat) (f : BaseField) (v : F64) (s : State) :
    exec (.calWrite laser f v) s =
      .next (raise .unknownLaser (encodeWord (.calWrite laser f v)) (laser.zeroExtend 16) 0 0 s) := by
  simp only [exec, execCalWrite, (laserIndex_eq_none_iff laser).2 h]

theorem exec_calRead_of_le {laser : Byte} (h : 64 ≤ laser.toNat) (f : CalField) (s : State) :
    exec (.calRead laser f) s = .next (raise .unknownLaser (encodeWord (.calRead laser f)) (laser.zeroExtend 16) 0 0 s) := by
  simp only [exec, execCalRead, (laserIndex_eq_none_iff laser).2 h]

theorem exec_calRead_of_lt {laser : Byte} (h : laser.toNat < 64) (f : CalField) (s : State) :
    exec (.calRead laser f) s = .next (emit (.calData (laser.setWidth 6) f.sel ((calEntry s (laser.setWidth 6)).field f)) s) := by
  simp only [exec, execCalRead, laserIndex_of_lt h]

/-- The entry LASER names is the one at its number. -/
theorem calEntry_setWidth {laser : Byte} (h : laser.toNat < 64) (s : State) : calEntry s (laser.setWidth 6) = s.cal[laser.toNat] := by
  simp only [calEntry, toNat_setWidth_of_lt h]

theorem setCalEntry_setWidth {laser : Byte} (h : laser.toNat < 64) (e : CalEntry) (s : State) :
    setCalEntry (laser.setWidth 6) e s = { s with cal := s.cal.set laser.toNat e h } := by
  simp only [setCalEntry, toNat_setWidth_of_lt h]

/-! ### The commands of one opcode (R81) -/

/-- A command of an opcode is rejected unless it is the encoding of an instruction of that opcode. -/
theorem rejectsAllBut_encodings {op : Op} {good : Command → Prop} (h : ∀ i, instrOp i = op → good (encode i)) :
    rejectsAllBut (opCode op).toNat good := by
  intro c s hn hg
  obtain ⟨hrejected, hruns⟩ := malformedCommandsAreRejectedInOrder c s
  have h0 : firstFailure c ≠ 0 := by
    intro h0
    obtain ⟨i, hi, -, -⟩ := hruns h0
    obtain ⟨rfl, -⟩ := encodeInvertsDecode c i hi
    have ho : opOfWord (encodeWord i) = some op := by rw [opOfWord_eq]; exact (opOfNumber_eq_some_iff _ _).2 hn
    exact hg (h i (Option.some.inj ((opOfWord_encodeWord i).symm.trans ho)))
  exact ⟨h0, hrejected h0⟩

end Sys2Proof.Machine
end

section
/-! SUPPORT. Products whatever their order, and the sines, cosines and products of zeros. -/

namespace Sys2Proof.Machine

variable {a b : F64}

/-- A value is a NaN, an infinity or finite. -/
theorem isNaN_or_isInf_or_isFinite (a : F64) : isNaN a = true ∨ isInf a = true ∨ isFinite a = true := by
  rcases hs : isSpecial a
  · simp [isFinite, hs]
  · by_cases hf : fracBits a = 0
    · simp [isInf, hs, hf]
    · simp [isNaN, hs, hf]

/-- A product is invalid, or it does not depend on the order of its factors (R114). -/
theorem fmul_invalid_or_comm (a b : F64) : isNaN (fmul a b) = true ∧ isNaN (fmul b a) = true ∨ fmul a b = fmul b a := by
  have invalid {a b : F64} (h : (isNaN a = true ∨ isNaN b = true) ∨ isInf a = true ∧ isZero b = true) :
      isNaN (fmul a b) = true ∧ isNaN (fmul b a) = true := by
    rw [fmul_of_invalid (h.imp_right .inl), fmul_of_invalid (h.imp Or.symm fun hi => .inr hi.symm)]
    exact ⟨isNaN_freeNaN .., isNaN_freeNaN ..⟩
  have infinite {a b : F64} (ha : isInf a = true) (hb : isNaN b = false) :
      isNaN (fmul a b) = true ∧ isNaN (fmul b a) = true ∨ fmul a b = fmul b a := by
    rcases hz : isZero b
    · rw [fmul_of_isInf (.inl ⟨ha, hz⟩) (isNaN_of_isInf ha) hb, fmul_of_isInf (.inr ⟨hz, ha⟩) hb (isNaN_of_isInf ha), bne_comm]
      exact .inr rfl
    · exact .inl (invalid (.inr ⟨ha, hz⟩))
  obtain ha | ha | ha := isNaN_or_isInf_or_isFinite a
  · exact .inl (invalid (.inl (.inl ha)))
  · rcases hb : isNaN b
    · exact infinite ha hb
    · exact .inl (invalid (.inl (.inr hb)))
  · obtain hb | hb | hb := isNaN_or_isInf_or_isFinite b
    · exact .inl (invalid (.inl (.inr hb)))
    · exact (infinite hb (isNaN_of_isFinite ha)).imp And.symm Eq.symm
    · rw [fmul_of_isFinite ha hb, fmul_of_isFinite hb ha, bne_comm, Nat.mul_comm]
      exact .inr rfl

/-- +0 times a finite value is a zero with that value's sign (R114). -/
theorem fmul_zero64_of_isFinite (h : isFinite a = true) : fmul zero64 a = withSign (signBit a) 0 := by
  have hs : signBit zero64 = false := by decide
  have hm : mag zero64 = 0 := by decide
  rw [fmul_of_isFinite (by decide) h, hs, hm, Nat.zero_mul, roundMag_zero, Bool.false_bne]

theorem toRadians_zero64 : toRadians zero64 = zero64 := by decide +kernel

/-- Every trig unit maps +0 to +0 and to 1.0 (D9). -/
theorem trigSin_zero64 (cfg : Config) : trigSin cfg zero64 = zero64 := if_pos (by decide)

theorem trigCos_zero64 (cfg : Config) : trigCos cfg zero64 = one64 := if_pos (by decide)

/-! ### The sign of a sine -/

theorem abs_f64Value (a : F64) : |f64Value a| = mag a / 2 ^ 1074 := by
  rw [f64Value_eq, abs_div, abs_mul, abs_signFactor, one_mul, Nat.abs_cast, abs_of_pos unit_pos]

theorem f64Value_eq_signFactor_mul_abs (a : F64) : f64Value a = signFactor (signBit a) * |f64Value a| := by
  rw [abs_f64Value, f64Value_eq, mul_div_assoc]

/-- Under the default trig unit the sine of a finite value between -pi and pi has that value's sign. -/
theorem signBit_trigSin {cfg : Config} (hcfg : cfg.trig = .correctlyRounded) (ha : isFinite a = true) (h3 : |f64Value a| ≤ 3) :
    signBit (trigSin cfg a) = signBit a := by
  by_cases hz : isZero a = true
  · rw [trigSin, if_pos hz]
  have habs : 0 < |f64Value a| := abs_pos.2 ((f64Value_eq_zero_iff a).not.2 hz)
  have hval := f64Value_eq_signFactor_mul_abs a
  obtain ⟨hneg, hpos, -, -⟩ := trigSin_rounds hcfg a ha
  obtain ⟨hlo, hhi⟩ : -Real.pi < f64Value a ∧ (f64Value a : ℝ) < Real.pi := by
    have h3' : |(f64Value a : ℝ)| ≤ 3 := by exact_mod_cast h3
    exact abs_lt.1 (h3'.trans_lt Real.pi_gt_three)
  rcases hs : signBit a <;> rw [hs] at hval
  · have h0 : 0 < f64Value a := by rw [hval]; simpa [signFactor] using habs
    exact hpos (Real.sin_pos_of_pos_of_lt_pi (Rat.cast_pos.2 h0) hhi)
  · have h0 : f64Value a < 0 := by rw [hval]; simpa [signFactor] using habs
    exact hneg (Real.sin_neg_of_neg_of_neg_pi_lt (Rat.cast_lt_zero.2 h0) hlo)

end Sys2Proof.Machine
end

section
/-! SUPPORT. The entries of the built-in profile (R116, R117). -/

namespace Sys2Proof.Machine

/-- The built-in angles of the statement are the model's. -/
theorem defaultVert_eq_profileVert (cfg : Config) (k : Nat) : defaultVert cfg k = profileVert cfg k := by
  unfold profileVert
  split
  · rfl
  · rfl
  · next n h31 => rw [defaultVert, if_neg (Nat.succ_ne_zero n), if_neg (by simpa using h31)]; rfl

/-- Entries 32 to 63 of the built-in profile are neutral (R117). -/
theorem defaultEntry_of_le (cfg : Config) {k : Nat} (h : 32 ≤ k) :
    defaultEntry cfg k = ⟨zero64, zero64, zero64, zero64, zero64, zero64, one64, zero64, zero64⟩ := by
  have hs : fmul zero64 zero64 = zero64 := fmul_zero64_of_isFinite (by decide)
  have hc : fmul zero64 one64 = zero64 := fmul_zero64_of_isFinite (by decide)
  simp only [defaultEntry, if_neg (not_lt.2 h), deriveEntry, toRadians_zero64, trigSin_zero64, trigCos_zero64, hs, hc]

/-- The built-in angles in radians are finite, of magnitude at most 3, and have the signs of the angles in degrees. -/
theorem toRadians_defaultVert : ∀ k < 32, isFinite (toRadians (defaultVert defaultConfig k)) = true ∧
    mag (toRadians (defaultVert defaultConfig k)) ≤ 3 <<< 1074 ∧
    signBit (toRadians (defaultVert defaultConfig k)) = signBit (defaultVert defaultConfig k) := by
  decide +kernel

/-- The sine of a negative built-in angle is negative, so +0 times it is -0 (R117). -/
theorem defaultEntry_sinVOff {k : Nat} (hk : k < 32) (h : signBit (defaultVert defaultConfig k) = true) :
    (defaultEntry defaultConfig k).sinVOff = 0x8000000000000000 := by
  obtain ⟨hfin, hmag, hsign⟩ := toRadians_defaultVert k hk
  have h3 : |f64Value (toRadians (defaultVert defaultConfig k))| ≤ 3 := by
    rw [abs_f64Value, div_le_iff₀ unit_pos, ← Nat.cast_ofNat (n := 3), ← cast_shiftLeft]
    exact Nat.cast_le.2 hmag
  have hneg : signBit (trigSin defaultConfig (toRadians (defaultVert defaultConfig k))) = true := by
    rw [signBit_trigSin rfl hfin h3, hsign, h]
  obtain ⟨-, -, hunit, -⟩ := defaultTrigIsCorrectlyRounded defaultConfig _ rfl hfin
  simp only [defaultEntry, deriveEntry, if_pos hk]
  rw [fmul_zero64_of_isFinite hunit.1, hneg]
  rfl

end Sys2Proof.Machine
end

section
/-! PROOFS. The calibration table and the angle tables (R110 to R120): O10, O11, O18, O22, O30 to O32, O51, O52. -/

namespace Sys2Proof.Machine

/-- Settles O10: every entry of the built-in profile comes out of Derive. -/
theorem derivedFieldsConsistentAtReset : Obligations.DerivedFieldsConsistentAtReset := fun _ =>
  derivedConsistent_of_defaultProfile rfl

/-- Settles O11: an event removal does not touch the calibration RAM, reset loads the built-in profile, and a command that writes an entry
derives it. -/
theorem stepKeepsDerivedFieldsConsistent : Obligations.StepKeepsDerivedFieldsConsistent := by
  intro s t hs h
  obtain ⟨rfl, -⟩ | ⟨waiting, a, post, -, -, -, hact⟩ := step_cases h
  · exact hs
  · obtain ⟨-, rfl | rfl⟩ | ⟨-, rfl⟩ | ⟨c, -, -, -, hc⟩ := hact
    · exact derivedConsistent_of_same rfl rfl hs
    · exact derivedConsistent_of_same rfl rfl hs
    · exact derivedConsistent_of_defaultProfile rfl
    · exact runCommand_derivedConsistent hc (derivedConsistent_of_same rfl rfl hs)

/-- Settles O18, writer by writer. -/
theorem calibrationFrame : Obligations.CalibrationFrame := by
  intro i s t h
  obtain hcal | ⟨rfl, -⟩ | ⟨laser, f, v, rfl, hlt, rfl⟩ := exec_cal_cases h
  · exact .inl hcal
  · exact .inr (.inl rfl)
  · refine .inr (.inr ⟨laser, f, v, rfl, hlt, fun k hk hne => ?_⟩)
    simp only [setCalEntry_setWidth hlt, Vector.getElem_set_ne _ _ hne.symm]

/-- Settles O22: the command that reports the error is the encoding of a CAL_WRITE or a CAL_READ, so its word holds LASER. -/
theorem onlyCalCommandsRaiseUnknownLaser : Obligations.OnlyCalCommandsRaiseUnknownLaser := by
  intro c s t es w a1 a2 a3 h he hm
  obtain ⟨i, hd, hi⟩ | ⟨reason, -, rfl⟩ := runCommand_cases h
  · obtain ⟨laser, hcal, hle, rfl, rfl, rfl⟩ := exec_unknownLaser hi he hm
    obtain ⟨rfl, -⟩ := encodeInvertsDecode c i hd
    have harg : (laser.zeroExtend 16).toNat = laser.toNat := by
      rw [BitVec.toNat_setWidth]; exact Nat.mod_eq_of_lt (by have := laser.isLt; omega)
    obtain ⟨f, v, rfl⟩ | ⟨f, rfl⟩ := hcal
    · obtain ⟨hop, hlaser⟩ := numbers_of_laserField (c := encode (.calWrite laser f v)) rfl
      exact ⟨.inl hop, hlaser ▸ hle, harg.trans hlaser.symm, rfl, rfl⟩
    · obtain ⟨hop, hlaser⟩ := numbers_of_laserField (c := encode (.calRead laser f)) rfl
      exact ⟨.inr hop, hlaser ▸ hle, harg.trans hlaser.symm, rfl, rfl⟩
  · rw [← List.append_cancel_left ((raise_events ..).symm.trans he)] at hm
    cases List.mem_singleton.1 hm

/-- Settles O30: each entry is Derive of the profile's base fields; the upper half has the zero angle, and under the default configuration
a negative angle has a negative sine. -/
theorem loadDefaultWritesTheBuiltInProfile : Obligations.LoadDefaultWritesTheBuiltInProfile := by
  refine ⟨fun s => ⟨defaultProfile s.cfg, rfl, fun k hk => ?_, fun k hk hle => ?_, fun hcfg k hk hneg => ?_⟩, rfl,
    rejectsAllBut_encodings (op := .loadDefault) fun i hi => ?_⟩
  · rw [getElem_defaultProfile, ← defaultVert_eq_profileVert]
    exact ⟨rfl, rfl, rfl, rfl, rfl, rfl⟩
  · rw [getElem_defaultProfile]; exact defaultEntry_of_le _ hle
  · rw [getElem_defaultProfile] at hneg ⊢
    rw [hcfg] at hneg ⊢
    exact defaultEntry_sinVOff hk (by simpa [defaultEntry, deriveEntry, hk] using hneg)
  · cases i with
    | loadDefault => rfl
    | nop | packet | flush | sessionReset | setSkip | calWrite | calRead | regRead | statusClear => cases hi

/-- Settles O31: Derive reads vertCorr and vOffCorr alone, so writing another field of a consistent entry recomputes the same values. -/
theorem calWriteWritesOneEntry : Obligations.CalWriteWritesOneEntry := by
  refine ⟨fun laser v s h => ?_, fun laser f v s h => ?_, fun laser f v s t h hf hs ht => ?_,
    rejectsAllBut_encodings (op := .calWrite) fun i hi => ?_⟩
  · simp only [exec_calWrite_of_lt h, calEntry_setWidth h, setCalEntry_setWidth h]
    exact ⟨rfl, rfl, rfl, rfl, rfl⟩
  · rw [exec_calWrite_of_le h, encodeWord, laserField_eq_or]; rfl
  · rw [exec_calWrite_of_lt h, calEntry_setWidth h, setCalEntry_setWidth h] at ht
    cases ht
    simp only [Vector.getElem_set_self]
    rw [hs]
    rcases hf with rfl | rfl | rfl <;> exact ⟨rfl, rfl, rfl, rfl⟩
  · cases i with
    | calWrite laser f v =>
      obtain ⟨htop, hlow⟩ := laserField_parts 0x6#4 laser f.sel
      exact ⟨rfl, htop, hlow.trans_le (Nat.le_of_lt_succ (baseField_sel_lt f))⟩
    | nop | packet | flush | sessionReset | setSkip | loadDefault | calRead | regRead | statusClear => cases hi

/-- Settles O32, selector by selector; a LASER above 63 has no entry. -/
theorem calReadReturnsTheStoredBits : Obligations.CalReadReturnsTheStoredBits := by
  refine ⟨fun laser s h => ?_, fun laser f s h => ?_, rejectsAllBut_encodings (op := .calRead) fun i hi => ?_⟩
  · simp only [exec_calRead_of_lt h, calEntry_setWidth h]
    exact ⟨rfl, rfl, rfl, rfl, rfl, rfl, rfl, rfl, rfl⟩
  · rw [exec_calRead_of_le h, encodeWord, laserField_eq_or]; rfl
  · cases i with
    | calRead laser f =>
      obtain ⟨htop, hlow⟩ := laserField_parts 0x7#4 laser f.sel
      exact ⟨rfl, htop, hlow.trans_le (Nat.le_of_lt_succ (calField_sel_lt f))⟩
    | nop | packet | flush | sessionReset | setSkip | loadDefault | calWrite | regRead | statusClear => cases hi

/-- Settles O51: the angle of entry 0 is +0; entry 36000 is the default unit's value at twice PI64. -/
theorem angleTableEnds : Obligations.AngleTableEnds := by
  have h0 : tickRadians 0 = zero64 := by decide +kernel
  refine ⟨fun cfg => ⟨?_, ?_⟩, ?_⟩
  · rw [lutSin, h0, trigSin_zero64]; rfl
  · rw [lutCos, h0, trigCos_zero64]; rfl
  · decide +kernel

/-- Settles O52: two orders of the factors give different bits only where both give a NaN. -/
theorem deriveRecomputesFromBaseFields : Obligations.DeriveRecomputesFromBaseFields := by
  refine ⟨fun _ _ => rfl, fun a b => ?_, fun s hs => ?_⟩
  · obtain ⟨hab, hba⟩ | h := fmul_invalid_or_comm a b
    · exact ⟨hab.trans hba.symm, fun hn => by rw [hab] at hn; cases hn⟩
    · exact ⟨congrArg isNaN h, fun _ => h⟩
  · refine (fmul_zero64_of_isFinite hs).trans ?_
    cases signBit s <;> rfl

end Sys2Proof.Machine
end

section
/-! SUPPORT. What a data packet appends and leaves in each register, said once, and what the other PACKETs answer. -/

namespace Sys2Proof.Machine

variable {s t : State}

/-! ### The events of a data packet (R142, R145) -/

/-- The events a data packet's blocks append, read from its bytes and the state before it (R145): all but EV_PACKET. -/
def dataEvents (word : U32) (p : List Byte) (s : State) : List Event :=
  blocksEvents s.cfg s.cal word p (blocksProcessed s.pendingSkip) s.lastAz (s.curFramePoints, s.frameCount)

/-- What holds of every frame end of a split and of every event of a return holds of every event of the blocks. -/
theorem forall_mem_blocksEvents {P : Event → Prop} {cfg : Config} {cal : Vector CalEntry 64} {word : U32} {p : List Byte}
    (hsplit : ∀ k points frame, P (.frameEnd .split k points frame)) (hret : ∀ k j, ∀ e ∈ returnEvents cfg cal word p k j, P e)
    (ks : List Nat) (last : U16) (c : U32 × U32) : ∀ e ∈ blocksEvents cfg cal word p ks last c, P e := by
  induction ks generalizing last c with
  | nil => intro e he; cases he
  | cons k ks ih =>
    intro e he
    rw [blocksEvents_cons, blockEvents, List.mem_append, List.mem_append] at he
    obtain (he | he) | he := he
    · unfold splitEvents at he
      split at he
      · rw [List.mem_singleton.1 he]; exact hsplit ..
      · cases he
    · obtain ⟨j, -, hj⟩ := List.mem_flatMap.1 he
      exact hret k j e hj
    · exact ih _ _ e he

/-- AZ_RANGE is the only error a return raises (R173, R251). -/
theorem raises_of_mem_returnEvents {cfg : Config} {cal : Vector CalEntry 64} {word : U32} {p : List Byte} {k j : Nat} {e : Event}
    (he : e ∈ returnEvents cfg cal word p k j) (b : StatusBit) : e.raises b = (decide (b = .azRange) && e.isError) := by
  simp only [returnEvents, eventsOfReturn] at he
  split_ifs at he
  · cases he
  · rw [List.mem_singleton.1 he]; exact (Bool.and_true _).symm
  · rw [List.mem_singleton.1 he]; exact (Bool.and_false _).symm

/-- AZ_RANGE is the only error of a data packet. -/
theorem any_raises_dataEvents (word : U32) (p : List Byte) (s : State) (b : StatusBit) :
    (dataEvents word p s).any (Event.raises b) = (decide (b = .azRange) && (dataEvents word p s).any Event.isError) := by
  have h : ∀ e ∈ dataEvents word p s, e.raises b = (decide (b = .azRange) && e.isError) :=
    forall_mem_blocksEvents (P := fun e => e.raises b = (decide (b = .azRange) && e.isError))
      (fun _ _ _ => (Bool.and_false _).symm) (fun _ _ _ he => raises_of_mem_returnEvents he b) _ _ _
  rw [List.and_any_distrib_left, Bool.eq_iff_iff, List.any_eq_true, List.any_eq_true]
  exact exists_congr fun e => and_congr_right fun he => by rw [h e he]

/-! ### What a data packet leaves (R142) -/

theorem dataPacket_events (word : U32) (p : List Byte) (s : State) :
    (dataPacket word p s).events = s.events ++ dataEvents word p s ++ [.packet .data 1206 (u32At p 1200) s.pendingSkip] := by
  obtain ⟨u, hu, -, -, h⟩ := dataPacket_spec word p s
  rw [h, hu.events, dataEvents]

theorem dataPacket_frames (word : U32) (p : List Byte) (s : State) :
    ((dataPacket word p s).curFramePoints, (dataPacket word p s).frameCount) =
      (dataEvents word p s).foldl account (s.curFramePoints, s.frameCount) := by
  obtain ⟨u, hu, -, -, h⟩ := dataPacket_spec word p s
  rw [h]; exact hu.frames

theorem getLast?_blocksProcessed (start : BitVec 4) :
    (blocksProcessed start).getLast? = if start.toNat ≤ 11 then some 11 else none := by
  revert start; decide

/-- LAST_AZ is the position of block 11, the last one processed, if one was (R203). -/
theorem dataPacket_lastAz (word : U32) (p : List Byte) (s : State) :
    (dataPacket word p s).lastAz = if s.pendingSkip.toNat ≤ 11 then u16At p 1102 else s.lastAz := by
  obtain ⟨u, -, hl, -, h⟩ := dataPacket_spec word p s
  rw [getLast?_blocksProcessed] at hl
  rw [h]
  refine hl.trans ?_
  split <;> rfl

/-- The STATUS bits a data packet sets: BLKID_OTHER for an unknown identifier, AZ_RANGE for an error (R144, R173). -/
theorem dataPacket_statusHas (word : U32) (p : List Byte) (s : State) (b : StatusBit) :
    statusHas b (dataPacket word p s) =
      (statusHas b s || (decide (b = .blkidOther) && (blocksProcessed s.pendingSkip).any (unknownId s.cfg p)) ||
        (decide (b = .azRange) && (dataEvents word p s).any Event.isError)) := by
  obtain ⟨u, -, -, hb, h⟩ := dataPacket_spec word p s
  rw [← any_raises_dataEvents, h]; exact hb b

/-- Two data packets with the same events leave the same session registers, if they find them the same (R24 to R27). -/
theorem dataPacket_session_congr {word : U32} {p q : List Byte} (hskip : t.pendingSkip = s.pendingSkip) (hlast : t.lastAz = s.lastAz)
    (hcur : t.curFramePoints = s.curFramePoints) (hframe : t.frameCount = s.frameCount)
    (hevs : dataEvents word q t = dataEvents word p s) (hpos : u16At q 1102 = u16At p 1102) :
    (dataPacket word q t).pendingSkip = (dataPacket word p s).pendingSkip ∧
      (dataPacket word q t).lastAz = (dataPacket word p s).lastAz ∧
      (dataPacket word q t).curFramePoints = (dataPacket word p s).curFramePoints ∧
      (dataPacket word q t).frameCount = (dataPacket word p s).frameCount := by
  obtain ⟨hps, -, -⟩ := dataPacket_registers word p s
  obtain ⟨hpt, -, -⟩ := dataPacket_registers word q t
  have hf := dataPacket_frames word q t
  rw [hevs, hcur, hframe, ← dataPacket_frames] at hf
  refine ⟨hpt.trans hps.symm, ?_, Prod.mk.inj hf⟩
  rw [dataPacket_lastAz, dataPacket_lastAz, hskip, hlast, hpos]

/-! ### The other answers of PACKET (R81, R141) -/

theorem exec_nondataPacket {len : U16} {p : List Byte} (hn : len ≠ 1206) (hl : p.length = len.toNat) (s : State) :
    exec (.packet len p) s = .next (nondataPacket len s) := by
  have hlen : len.toNat ≠ pktLen := fun h => hn (BitVec.eq_of_toNat_eq h)
  exact (if_neg (not_not.2 hl)).trans (if_pos hlen)

theorem exec_packet_of_length_ne {len : U16} {p : List Byte} (hl : p.length ≠ len.toNat) (s : State) :
    exec (.packet len p) s = .next (raiseIllegal .payloadLength (encode (.packet len p)) s) := if_pos hl

/-! ### STATUS as a word (R23) -/

theorem readStatus_setStatus (b : StatusBit) (s : State) : readStatus (setStatus b s) = readStatus s ||| b.mask := by
  have hm : b.mask &&& 0xF = b.mask := by cases b <;> rfl
  simp only [readStatus, setStatus_status, statusValue_idem]
  unfold statusValue
  rw [BitVec.and_or_distrib_right, hm]

/-- A read of STATUS after BLKID_OTHER and AZ_RANGE are set under two conditions. -/
theorem readStatus_of_statusHas {x y : Bool}
    (h : ∀ b, statusHas b t = (statusHas b s || (decide (b = .blkidOther) && x) || (decide (b = .azRange) && y))) :
    readStatus t = readStatus s ||| (if x then 0x1 else 0) ||| (if y then 0x2 else 0) := by
  have hset (c : Bool) (b : StatusBit) (u : State) :
      readStatus (if c then setStatus b u else u) = readStatus u ||| (if c then b.mask else 0) := by
    cases c
    · exact (BitVec.or_zero).symm
    · exact readStatus_setStatus b u
  have hb : readStatus t = readStatus (if y then setStatus .azRange (if x then setStatus .blkidOther s else s)
      else if x then setStatus .blkidOther s else s) :=
    readStatus_ext fun b => by rw [h]; cases x <;> cases y <;> simp
  rw [hb, hset, hset]; rfl

end Sys2Proof.Machine
end

section
/-! SUPPORT. Which bytes of a data packet decide what it does, and how many points it emits. -/

namespace Sys2Proof.Machine

/-! ### The machine's reads of a packet (R51, R71 to R73) -/

theorem blockId_eq (p : List Byte) (k : Nat) : blockId p k = u16At p (100 * k) := memRead_two ..

theorem blockPos_eq (p : List Byte) (k : Nat) : blockPos p k = u16At p (100 * k + 2) := memRead_two ..

theorem returnDist_eq (p : List Byte) (k j : Nat) : returnDist p k j = u16At p (100 * k + 4 + 3 * j) := memRead_two ..

theorem returnIntensity_eq (p : List Byte) (k j : Nat) : returnIntensity p k j = byteAt p (100 * k + 6 + 3 * j) := memRead_one ..

theorem packetTimestamp_eq (p : List Byte) : packetTimestamp p = u32At p 1200 := memRead_four ..

theorem u16At_congr {p q : List Byte} {a : Nat} (h0 : byteAt p a = byteAt q a) (h1 : byteAt p (a + 1) = byteAt q (a + 1)) :
    u16At p a = u16At q a := by
  rw [u16At, u16At, h0, h1]

theorem u32At_congr {p q : List Byte} {a : Nat} (h : ∀ i < 4, byteAt p (a + i) = byteAt q (a + i)) : u32At p a = u32At q a := by
  have h0 : byteAt p a = byteAt q a := h 0 (by omega)
  rw [u32At, u32At, h0, h 1 (by omega), h 2 (by omega), h 3 (by omega)]

theorem mem_blocksProcessed_lt {start : BitVec 4} {k : Nat} (h : k ∈ blocksProcessed start) : k < 12 :=
  List.mem_range.1 (List.mem_filter.1 h).1

section reads

variable {s : State} {p q : List Byte}

/-! ### Bytes that are never read (R147) -/

section reserved

variable (h : ∀ a < 1204, byteAt p a = byteAt q a)
include h

theorem u16At_eq_of_lt {a : Nat} (ha : a < 1203) : u16At p a = u16At q a := u16At_congr (h _ (by omega)) (h _ (by omega))

theorem packetTimestamp_congr : packetTimestamp p = packetTimestamp q := by
  rw [packetTimestamp_eq, packetTimestamp_eq]
  exact u32At_congr fun i hi => h _ (by omega)

theorem blockHeader_congr {k : Nat} (hk : k < 12) : blockId p k = blockId q k ∧ blockPos p k = blockPos q k := by
  rw [blockId_eq, blockId_eq, blockPos_eq, blockPos_eq]
  exact ⟨u16At_eq_of_lt h (by omega), u16At_eq_of_lt h (by omega)⟩

theorem processReturn_congr (word : U32) {k j : Nat} (hk : k < 12) (hj : j < 32) (s : State) :
    processReturn word p k s j = processReturn word q k s j := by
  obtain ⟨hid, hpos⟩ := blockHeader_congr h hk
  have hdist : returnDist p k j = returnDist q k j := by rw [returnDist_eq, returnDist_eq, u16At_eq_of_lt h (by omega)]
  have hint : returnIntensity p k j = returnIntensity q k j := by rw [returnIntensity_eq, returnIntensity_eq, h _ (by omega)]
  rw [processReturn, processReturn, hid, hpos, hdist, hint, packetTimestamp_congr h]

theorem processBlock_congr (word : U32) {k : Nat} (hk : k < 12) (s : State) : processBlock word p s k = processBlock word q s k := by
  obtain ⟨hid, hpos⟩ := blockHeader_congr h hk
  rw [processBlock, processBlock, hid, hpos]
  exact List.foldl_ext _ _ _ fun u j hj => processReturn_congr h word hk (List.mem_range.1 hj) u

/-- A data packet reads its first 1204 bytes only (R147). -/
theorem dataPacket_congr (word : U32) (s : State) : dataPacket word p s = dataPacket word q s := by
  have hb : processBlocks word p s = processBlocks word q s := by
    unfold processBlocks
    rw [blocksFrom_eq]
    exact List.foldl_ext _ _ _ fun u k hk => processBlock_congr h word (mem_blocksProcessed_lt hk) u
  rw [dataPacket, dataPacket, hb, packetTimestamp_congr h]

end reserved

/-! ### Packets that differ in their identifiers only (R144) -/

/-- With the returns and the positions of two packets the same, so are their events. -/
theorem blocksEvents_congr {cfg : Config} {cal : Vector CalEntry 64} {word : U32} {ks : List Nat}
    (hpos : ∀ k ∈ ks, u16At p (100 * k + 2) = u16At q (100 * k + 2))
    (hret : ∀ k ∈ ks, ∀ j < 32, returnEvents cfg cal word p k j = returnEvents cfg cal word q k j) (last : U16) (c : U32 × U32) :
    blocksEvents cfg cal word p ks last c = blocksEvents cfg cal word q ks last c := by
  induction ks generalizing last c with
  | nil => rfl
  | cons k ks ih =>
    have hk : k ∈ k :: ks := List.mem_cons_self ..
    have hr : (List.range 32).flatMap (returnEvents cfg cal word p k) = (List.range 32).flatMap (returnEvents cfg cal word q k) :=
      List.flatMap_congr fun j hj => hret k hk j (List.mem_range.1 hj)
    have he : blockEvents cfg cal word p k last c = blockEvents cfg cal word q k last c := by
      rw [blockEvents, blockEvents, hpos k hk, hr]
    rw [blocksEvents_cons, blocksEvents_cons, he, hpos k hk,
      ih (fun k' hk' => hpos k' (List.mem_cons_of_mem _ hk')) fun k' hk' => hret k' (List.mem_cons_of_mem _ hk')]

/-- An identifier other than BLKID_LO gives the laser ids BLKID_HI gives (R143, R144). -/
theorem laserIdAt_of_ne_blkidLo {cfg : Config} {k : Nat} (hp : u16At p (100 * k) ≠ cfg.blkidLo) (hq : u16At q (100 * k) ≠ cfg.blkidLo)
    (j : Nat) : laserIdAt cfg p k j = laserIdAt cfg q k j := by
  rw [laserIdAt, laserIdAt, if_neg hp, if_neg hq]

theorem laserIdAt_congr {cfg : Config} {k : Nat} (h : u16At p (100 * k) = u16At q (100 * k)) (j : Nat) :
    laserIdAt cfg p k j = laserIdAt cfg q k j := by
  rw [laserIdAt, laserIdAt, h]

/-- A block's returns are read from bytes 2 to 99 of the block, from the timestamp and from the laser ids. -/
theorem returnEvents_congr {cfg : Config} (cal : Vector CalEntry 64) (word : U32) {k j : Nat} (hj : j < 32)
    (hblock : ∀ r, 2 ≤ r → r < 100 → byteAt p (100 * k + r) = byteAt q (100 * k + r)) (hts : u32At p 1200 = u32At q 1200)
    (hid : laserIdAt cfg p k j = laserIdAt cfg q k j) : returnEvents cfg cal word p k j = returnEvents cfg cal word q k j := by
  have h16 (r : Nat) (h2 : 2 ≤ r) (h99 : r < 99) : u16At p (100 * k + r) = u16At q (100 * k + r) :=
    u16At_congr (hblock r h2 (by omega)) (hblock (r + 1) (by omega) (by omega))
  unfold returnEvents
  rw [hid, hts, h16 2 (by omega) (by omega), Nat.add_assoc (100 * k) 4, h16 (4 + 3 * j) (by omega) (by omega),
    Nat.add_assoc (100 * k) 6, hblock (6 + 3 * j) (by omega) (by omega)]

/-- Packets that differ in their identifiers only, with the same laser ids, have the same events. -/
theorem dataEvents_congr (word : U32) (hbyte : ∀ a, 2 ≤ a % 100 ∨ 1200 ≤ a → byteAt p a = byteAt q a)
    (hid : ∀ k < 12, ∀ j, laserIdAt s.cfg p k j = laserIdAt s.cfg q k j) : dataEvents word p s = dataEvents word q s := by
  have hblock (k r : Nat) (h2 : 2 ≤ r) (h100 : r < 100) : byteAt p (100 * k + r) = byteAt q (100 * k + r) :=
    hbyte _ (.inl (by omega))
  have hts : u32At p 1200 = u32At q 1200 := u32At_congr fun i _ => hbyte _ (.inr (by omega))
  exact blocksEvents_congr (fun k _ => u16At_congr (hblock k 2 (by omega) (by omega)) (hblock k 3 (by omega) (by omega)))
    (fun k hk j hj => returnEvents_congr _ _ hj (hblock k) hts (hid k (mem_blocksProcessed_lt hk) j)) ..

end reads

/-! ### Counting points (R148) -/

theorem pointsOf_append (es fs : List Event) : pointsOf (es ++ fs) = pointsOf es ++ pointsOf fs := List.filterMap_append ..

/-- Return j of block k emits a point: its distance is not 0 and its azimuth is not off the table (R171, R173, R178). -/
def emitsPoint (cfg : Config) (cal : Vector CalEntry 64) (p : List Byte) (k j : Nat) : Bool :=
  u16At p (100 * k + 4 + 3 * j) != 0 &&
    !offTable (cal[(laserIdAt cfg p k j).toNat]'(laserIdAt cfg p k j).isLt).azCorr (u16At p (100 * k + 2))

variable (cfg : Config) (cal : Vector CalEntry 64) (word : U32) (p : List Byte)

theorem length_pointsOf_eventsOfReturn (id : BitVec 6) (az dist : U16) (inty : Byte) (ts : U32) (k : Nat) :
    (pointsOf (eventsOfReturn cfg cal word id az dist inty ts k)).length =
      if dist != 0 && !offTable (cal[id.toNat]'id.isLt).azCorr az then 1 else 0 := by
  unfold eventsOfReturn
  by_cases hd : dist = 0
  · simp [hd, pointsOf]
  · simp only [if_neg hd, bne_iff_ne.2 hd, Bool.true_and]
    cases offTable (cal[id.toNat]'id.isLt).azCorr az <;> rfl

theorem length_pointsOf_returnEvents (k j : Nat) :
    (pointsOf (returnEvents cfg cal word p k j)).length = if emitsPoint cfg cal p k j then 1 else 0 :=
  length_pointsOf_eventsOfReturn ..

theorem length_pointsOf_returns (k : Nat) (js : List Nat) :
    (pointsOf (js.flatMap (returnEvents cfg cal word p k))).length = (js.filter (emitsPoint cfg cal p k)).length := by
  induction js with
  | nil => rfl
  | cons j js ih =>
    rw [List.flatMap_cons, pointsOf_append, List.length_append, length_pointsOf_returnEvents, ih, List.filter_cons]
    split
    · rw [List.length_cons, Nat.add_comm]
    · exact Nat.zero_add _

/-- The points of a packet are those of its returns: a frame end is none. -/
theorem length_pointsOf_blocksEvents (ks : List Nat) (last : U16) (c : U32 × U32) :
    (pointsOf (blocksEvents cfg cal word p ks last c)).length =
      (ks.flatMap fun k => (List.range 32).filter (emitsPoint cfg cal p k)).length := by
  induction ks generalizing last c with
  | nil => rfl
  | cons k ks ih =>
    have hsplit : pointsOf (splitEvents k (u16At p (100 * k + 2)) last c) = [] := by
      unfold splitEvents; split <;> rfl
    rw [blocksEvents_cons, blockEvents, pointsOf_append, pointsOf_append, hsplit, List.nil_append, List.length_append,
      length_pointsOf_returns, ih, List.flatMap_cons, List.length_append]

theorem length_blocksProcessed (start : BitVec 4) : (blocksProcessed start).length = 12 - start.toNat := by
  revert start; decide

/-- At most 32 from each block (R148). -/
theorem length_flatMap_filter_range_le (f : Nat → Nat → Bool) (n : Nat) (ks : List Nat) :
    (ks.flatMap fun k => (List.range n).filter (f k)).length ≤ n * ks.length := by
  have hle : ∀ x ∈ ks.map fun k => ((List.range n).filter (f k)).length, x ≤ n := by
    intro x hx
    obtain ⟨k, -, rfl⟩ := List.mem_map.1 hx
    exact (List.length_filter_le ..).trans_eq List.length_range
  rw [List.length_flatMap]
  refine (List.sum_le_card_nsmul _ n hle).trans_eq ?_
  rw [List.length_map, smul_eq_mul, Nat.mul_comm]

end Sys2Proof.Machine
end

section
/-! PROOFS. The packet decoder (R140 to R148): O34, O36 to O39, O42. -/

namespace Sys2Proof.Machine

/-- Settles O36: register by register, from what a data packet's blocks append and what consuming the skip and counting leave. -/
theorem dataPacketFollowsItsBytes : Obligations.DataPacketFollowsItsBytes := by
  intro p s hp
  obtain ⟨hskip, hdata, hnon⟩ := dataPacket_registers 0x100004B6 p s
  have hc : Continues s (dataPacket 0x100004B6 p s) := continues_dataPacket ..
  exact ⟨_, exec_dataPacket p s hp, dataPacket_events .., dataPacket_frames .., dataPacket_lastAz ..,
    readStatus_of_statusHas fun b => dataPacket_statusHas _ _ _ b, hskip, hdata, hnon, dataPacket_cal .., hc.cfg, hc.input⟩

/-- Settles O37: no block and no return reads beyond byte 1199, and the timestamp ends at byte 1203. -/
theorem reservedPacketBytesAreIgnored : Obligations.ReservedPacketBytesAreIgnored := by
  intro p q s hp hq h
  have hbyte : ∀ a < 1204, byteAt p a = byteAt q a := by
    intro a ha
    rw [byteAt, byteAt, List.getD_eq_getElem?_getD, List.getD_eq_getElem?_getD, ← List.getElem?_take_of_lt ha, h,
      List.getElem?_take_of_lt ha]
  rw [exec_dataPacket p s hp, exec_dataPacket q s hq, dataPacket_congr hbyte]

/-- Settles O38: the frame ends and EV_PACKET are no points, and a block has 32 returns. -/
theorem dataPacketPointCount : Obligations.DataPacketPointCount := by
  intro p s t es hp h he
  rw [exec_dataPacket p s hp] at h
  cases h
  obtain rfl : es = dataEvents 0x100004B6 p s ++ [.packet .data 1206 (u32At p 1200) s.pendingSkip] := by
    rw [dataPacket_events, List.append_assoc] at he
    exact (List.append_cancel_left he).symm
  have hcount : (pointsOf (dataEvents 0x100004B6 p s ++ [.packet .data 1206 (u32At p 1200) s.pendingSkip])).length =
      ((blocksProcessed s.pendingSkip).flatMap fun k => (List.range 32).filter (emitsPoint s.cfg s.cal p k)).length := by
    rw [pointsOf_append, List.length_append, dataEvents, length_pointsOf_blocksEvents]; rfl
  have hle := length_flatMap_filter_range_le (emitsPoint s.cfg s.cal p) 32 (blocksProcessed s.pendingSkip)
  rw [← hcount, length_blocksProcessed] at hle
  exact ⟨hcount, hle, hle.trans (by omega)⟩

/-- Settles O39: BLKID_OTHER is set by no error, and an unknown identifier and BLKID_HI give the same laser ids. -/
theorem blkidOtherIsOnlyANotice : Obligations.BlkidOtherIsOnlyANotice := by
  refine ⟨fun p s t hp h => ?_, fun p q s t u hp hq hne hbyte hid ht hu => ?_⟩
  · rw [exec_dataPacket p s hp] at h
    cases h
    exact (dataPacket_statusHas ..).trans (Bool.or_false _)
  · rw [exec_dataPacket _ s hp] at ht
    rw [exec_dataPacket _ s hq] at hu
    cases ht; cases hu
    have hlaser : ∀ k < 12, ∀ j, laserIdAt s.cfg q k j = laserIdAt s.cfg p k j := by
      intro k hk j
      obtain hsame | ⟨hlo, -, hhi⟩ := hid k hk
      · exact laserIdAt_congr hsame j
      · exact laserIdAt_of_ne_blkidLo (hhi ▸ hne.symm) hlo j
    have hpos : u16At q 1102 = u16At p 1102 := u16At_congr (hbyte _ (by omega)) (hbyte _ (by omega))
    have hts : u32At q 1200 = u32At p 1200 := u32At_congr fun i _ => hbyte _ (by omega)
    have hevs : dataEvents 0x100004B6 q s = dataEvents 0x100004B6 p s := dataEvents_congr _ hbyte hlaser
    obtain ⟨hskip, hlast, hcur, hframe⟩ := dataPacket_session_congr rfl rfl rfl rfl hevs hpos
    obtain ⟨-, hdp, hnp⟩ := dataPacket_registers 0x100004B6 p s
    obtain ⟨-, hdq, hnq⟩ := dataPacket_registers 0x100004B6 q s
    have hcp : Continues s (dataPacket 0x100004B6 p s) := continues_dataPacket ..
    have hcq : Continues s (dataPacket 0x100004B6 q s) := continues_dataPacket ..
    refine ⟨?_, hlast, hskip, hcur, hframe, hdq.trans hdp.symm, hnq.trans hnp.symm, ?_, hcq.cfg.trans hcp.cfg.symm,
      hcq.input.trans hcp.input.symm, fun b hb => ?_⟩
    · rw [dataPacket_events, dataPacket_events, hevs, hts]
    · rw [dataPacket_cal, dataPacket_cal]
    · rw [dataPacket_statusHas, dataPacket_statusHas, hevs, decide_eq_false hb, Bool.false_and, Bool.false_and]

/-- Settles O42: a PACKET that runs is one of the two classes whatever the state, and its events are read from the bytes, the
configuration, Cal and the session registers. -/
theorem packetIsDeterminedByTheSession : Obligations.PacketIsDeterminedByTheSession := by
  intro len p s t s' t' hcfg hcal hskip hlast hcur hframe hs ht
  by_cases hl : p.length = len.toNat
  · by_cases h6 : len = 1206
    · subst h6
      rw [exec_dataPacket p _ hl] at hs ht
      cases hs; cases ht
      have hevs : dataEvents 0x100004B6 p t = dataEvents 0x100004B6 p s := by
        rw [dataEvents, dataEvents, hcfg, hcal, hskip, hlast, hcur, hframe]
      refine ⟨_, (dataPacket_events ..).trans (List.append_assoc ..), ?_, dataPacket_session_congr hskip hlast hcur hframe hevs rfl⟩
      rw [dataPacket_events, hevs, hskip, List.append_assoc]
    · rw [exec_nondataPacket h6 hl] at hs ht
      cases hs; cases ht
      exact ⟨_, rfl, rfl, hskip, hlast, hcur, hframe⟩
  · rw [exec_packet_of_length_ne hl] at hs ht
    cases hs; cases ht
    exact ⟨_, rfl, rfl, hskip, hlast, hcur, hframe⟩

/-- Settles O34: the length decides, and the bytes are not read. -/
theorem nonDataPacketOnlyCounts : Obligations.NonDataPacketOnlyCounts := fun _ _ s hn hl => exec_nondataPacket hn hl s

end Sys2Proof.Machine
end

section
/-! SUPPORT. What the point corrector does with a return, case by case, and its values in the geometry scenario (R170 to R180). -/

namespace Sys2Proof.Machine

variable {word : U32} {id : BitVec 6} {az dist : U16} {inty : Byte} {ts : U32} {k : Nat} {s : State}

theorem isSignedZero_iff (a : F64) : isSignedZero a = true ↔ a = 0x0000000000000000 ∨ a = 0x8000000000000000 := by
  simp [isSignedZero]

theorem offTable_iff (azCorr : F64) (az : U16) :
    offTable azCorr az = true ↔ (azCorr = 0x0000000000000000 ∨ azCorr = 0x8000000000000000) ∧ 36000 < az.toNat := by
  rw [offTable, Bool.and_eq_true, isSignedZero_iff, decide_eq_true_iff]

/-- R173. -/
theorem correctReturn_of_offTable (hd : dist ≠ 0) (h : offTable (calEntry s id).azCorr az = true) :
    correctReturn word id az dist inty ts k s = raise .azRange word (id.zeroExtend 16) (BitVec.ofNat 16 k) az s := by
  rw [correctReturn, if_neg hd, azimuthTrig_eq, if_pos h]

/-- R172, R174 to R178. -/
theorem correctReturn_of_onTable (hd : dist ≠ 0) (h : ¬ offTable (calEntry s id).azCorr az = true) :
    correctReturn word id az dist inty ts k s =
      emitPoint (pointOf (calEntry s id) (azimuthPair s.cfg (calEntry s id).azCorr az).1
        (azimuthPair s.cfg (calEntry s id).azCorr az).2 id az dist inty ts) s := by
  rw [correctReturn, if_neg hd, azimuthTrig_eq, if_neg h]

/-! ### The geometry scenario (R180) -/

/-- `Derive` on base fields that are all zero gives the neutral entry, with sine 0 and cosine 1 (R114, R117). -/
theorem deriveEntry_zero (cfg : Config) : deriveEntry cfg ⟨0, 0, 0, 0, 0, 0, 0, 0, 0⟩ = ⟨0, 0, 0, 0, 0, 0, one64, 0, 0⟩ :=
  defaultEntry_of_le cfg (le_refl 32)

/-- At 90 degrees the default sine is 1.0 and the default cosine that of the binary64 value nearest to a right angle. -/
theorem azimuthPair_ninety_degrees : azimuthPair defaultConfig 0 9000 = (one64, 0x3C91A62633145C07) := by decide +kernel

/-- A return of distance 5000 is 10.0 m away under the neutral entry. -/
theorem distMetres_neutral : distMetres ⟨0, 0, 0, 0, 0, 0, one64, 0, 0⟩ 5000 = 0x4024000000000000 := by decide +kernel

theorem pointOf_geometryScenario : pointOf ⟨0, 0, 0, 0, 0, 0, one64, 0, 0⟩ one64 0x3C91A62633145C07 id 9000 5000 inty ts =
    { x := 0x4024000000000000, y := 0x3CC60FAFBFD97309, z := 0, distance := 0x4024000000000000, intensity := inty,
      laserId := id, azimuth := 9000, timestamp := ts } := by
  rw [pointOf, distMetres_neutral]
  refine (Point.mk.injEq ..).mpr ⟨?_, ?_, ?_, rfl, rfl, rfl, rfl, rfl⟩ <;> decide +kernel

end Sys2Proof.Machine
end

section
/-! SUPPORT. Bounds on the results of the binary64 operations: a rounded result is at most twice the exact one, so an expression of
a few operations on values below 1e300 stays far below overflow (R179). -/

namespace Sys2Proof.Machine

/-- A finite value of magnitude at most `c`. -/
def boundedBy (c : ℚ) (a : F64) : Prop := isFinite a = true ∧ |f64Value a| ≤ c

variable {a b : F64} {c d q : ℚ}

theorem boundedBy_of_withinUnit (h : withinUnit a) : boundedBy 1 a := h

theorem boundedBy_of_mag_le {n : ℕ} (hf : isFinite a = true) (h : mag a ≤ n <<< 1074) : boundedBy n a := by
  refine ⟨hf, ?_⟩
  rw [abs_f64Value, div_le_iff₀ unit_pos, ← cast_shiftLeft]
  exact Nat.cast_le.2 h

theorem thousand_huge_lt_overflowThreshold : 1000 * 10 ^ 300 < overflowThreshold := by
  have h : ((10 : ℚ) ^ 3) ^ 101 ≤ (2 ^ 10) ^ 101 := pow_le_pow_left₀ (by norm_num) (by norm_num) _
  calc (1000 * 10 ^ 300 : ℚ) = (10 ^ 3) ^ 101 := by rw [← pow_mul, show (1000 : ℚ) = 10 ^ 3 by norm_num, ← pow_add]
    _ ≤ (2 ^ 10) ^ 101 := h
    _ = 2 ^ 40 * 2 ^ 970 := by rw [← pow_mul, ← pow_add]
    _ < overflowThreshold := mul_lt_mul_of_pos_right (by norm_num) (by positivity)

/-- Zero is no nearer to `q` than what `q` rounds to, so rounding at most doubles a magnitude. -/
theorem boundedBy_of_roundsTo (h : roundsTo q a) (hq : |q| ≤ c) (hc : c ≤ 1000 * 10 ^ 300) : boundedBy (2 * c) a := by
  obtain ⟨-, -, hnear, -⟩ := h
  obtain ⟨hfin, hnear⟩ := hnear ((hq.trans hc).trans_lt thousand_huge_lt_overflowThreshold)
  have hzero : |f64Value a - q| ≤ |q| := by
    simpa [(f64Value_eq_zero_iff zero64).2 (by decide)] using (hnear zero64 (by decide)).1
  refine ⟨hfin, ?_⟩
  linarith [abs_sub_abs_le_abs_sub (f64Value a) q]

/-! ### Multiples of 1e300 -/

/-- A finite value of magnitude at most `c` times 1e300. -/
def hugeTimes (c : ℚ) (a : F64) : Prop := boundedBy (c * 10 ^ 300) a

theorem hugeTimes_of_belowHuge (h : belowHuge a) : hugeTimes 1 a := ⟨h.1, h.2.le.trans (one_mul _).ge⟩

theorem hugeTimes_of_roundsTo (h : roundsTo q a) (hq : |q| ≤ c * 10 ^ 300) (hc : c ≤ 1000) : hugeTimes (2 * c) a := by
  rw [hugeTimes, mul_assoc]
  exact boundedBy_of_roundsTo h hq (mul_le_mul_of_nonneg_right hc (by positivity))

protected theorem hugeTimes.isFinite (h : hugeTimes c a) : isFinite a = true := h.1

protected theorem hugeTimes.fadd (ha : hugeTimes c a) (hb : hugeTimes d b) (h : c + d ≤ 1000) : hugeTimes (2 * (c + d)) (fadd a b) := by
  obtain ⟨hr, -, -, -⟩ := additionRoundsToNearestEven a b ha.1 hb.1
  refine hugeTimes_of_roundsTo hr ?_ h
  rw [add_mul]
  exact (abs_add_le _ _).trans (add_le_add ha.2 hb.2)

protected theorem hugeTimes.fsub (ha : hugeTimes c a) (hb : hugeTimes d b) (h : c + d ≤ 1000) : hugeTimes (2 * (c + d)) (fsub a b) := by
  obtain ⟨-, hr, -, -⟩ := additionRoundsToNearestEven a b ha.1 hb.1
  refine hugeTimes_of_roundsTo hr ?_ h
  rw [add_mul]
  exact (abs_sub _ _).trans (add_le_add ha.2 hb.2)

protected theorem hugeTimes.fmul (ha : hugeTimes c a) (hb : boundedBy d b) (h : c * d ≤ 1000) : hugeTimes (2 * (c * d)) (fmul a b) := by
  obtain ⟨hr, -⟩ := multiplicationRoundsToNearestEven a b ha.1 hb.1
  refine hugeTimes_of_roundsTo hr ?_ h
  rw [abs_mul, mul_right_comm]
  exact mul_le_mul ha.2 hb.2 (abs_nonneg _) ((abs_nonneg _).trans ha.2)

/-- Dividing by a value of magnitude at least 1. -/
protected theorem hugeTimes.fdiv (ha : hugeTimes c a) (hb : isFinite b = true) (h1 : 1 ≤ |f64Value b|) (h : c ≤ 1000) :
    hugeTimes (2 * c) (fdiv a b) := by
  have hz : isZero b = false := by
    rw [Bool.eq_false_iff, ne_eq, ← f64Value_eq_zero_iff, ← abs_eq_zero]
    exact (one_pos.trans_le h1).ne'
  obtain ⟨hquot, -⟩ := divisionRoundsToNearestEven a b ha.1 hb
  refine hugeTimes_of_roundsTo (hquot hz).1 ?_ h
  rw [abs_div]
  exact (div_le_self (abs_nonneg _) h1).trans ha.2

/-! ### The operands of the formulas -/

theorem hugeTimes_i2f (n : U16) : hugeTimes 1 (i2f n) := by
  obtain ⟨hfin, -, hval⟩ := integerConversionIsExact n
  refine ⟨hfin, ?_⟩
  have hn : (n.toNat : ℚ) ≤ 10 ^ 5 := by exact_mod_cast n.isLt.le.trans (by norm_num)
  rw [hval, Nat.abs_cast, one_mul]
  exact hn.trans (pow_le_pow_right₀ (by norm_num) (by norm_num))

theorem boundedBy_distLsb : boundedBy 1 distLsb := by
  exact_mod_cast boundedBy_of_mag_le (n := 1) (by decide) (by decide +kernel)

theorem boundedBy_pi64 : boundedBy 4 pi64 := by
  exact_mod_cast boundedBy_of_mag_le (n := 4) (by decide) (by decide +kernel)

theorem one_le_abs_of_le_mag (h : 1 <<< 1074 ≤ mag b) : 1 ≤ |f64Value b| := by
  rw [abs_f64Value, le_div_iff₀ unit_pos, ← Nat.cast_one, ← cast_shiftLeft]
  exact Nat.cast_le.2 h

theorem one_le_abs_hundred64 : 1 ≤ |f64Value hundred64| := one_le_abs_of_le_mag (by decide +kernel)

theorem one_le_abs_oneEighty64 : 1 ≤ |f64Value oneEighty64| := one_le_abs_of_le_mag (by decide +kernel)

protected theorem hugeTimes.fmul_pi64 (h : hugeTimes c a) (hc : c ≤ 100) : hugeTimes (2 * (c * 4)) (fmul a pi64) :=
  h.fmul boundedBy_pi64 (by linarith)

protected theorem hugeTimes.toRadians (h : hugeTimes c a) (hc : c ≤ 100) : hugeTimes (2 * (2 * (c * 4))) (toRadians a) :=
  (h.fmul_pi64 hc).fdiv (by decide) one_le_abs_oneEighty64 (by linarith)

end Sys2Proof.Machine
end

section
/-! PROOFS. The point corrector (R170 to R180): O45 to O50. -/

namespace Sys2Proof.Machine

/-- Settles O46: IEEE equality with 0.0 picks out the two zeros, and only their branch looks at the azimuth. -/
theorem fastPathExactlyForSignedZero : Obligations.FastPathExactlyForSignedZero := by
  intro cfg azCorr az
  rw [azimuthTrig_eq]
  refine ⟨fun hz haz => ?_, fun hz => ?_⟩
  · rw [if_neg fun h => haz.not_gt ((offTable_iff ..).1 h).2, azimuthPair, if_pos ((isSignedZero_iff _).2 hz)]
  · rw [if_neg fun h => hz ((offTable_iff ..).1 h).1, azimuthPair, if_neg fun h => hz ((isSignedZero_iff _).1 h)]
    rfl

/-- Settles O47: the return is off the table, and raising AZ_RANGE is all it does. -/
theorem azimuthOffTheTableRaisesAzRange : Obligations.AzimuthOffTheTableRaisesAzRange := by
  intro word id az dist inty ts k s azCorr hd hz haz
  rw [correctReturn_of_offTable hd ((offTable_iff ..).2 ⟨hz, haz⟩), BitVec.ofNat_toNat]
  rfl

/-- Settles O49: each intermediate is at most a small multiple of 1e300, followed operation by operation. -/
theorem modestCalibrationKeepsPointsFinite : Obligations.ModestCalibrationKeepsPointsFinite := by
  refine ⟨?_, ?_, ?_⟩
  · -- Derive
    intro d hd
    have hd := hugeTimes_of_belowHuge hd
    exact ⟨(hd.fmul_pi64 (by norm_num)).isFinite, (hd.toRadians (by norm_num)).isFinite⟩
  · -- the slow path
    intro azCorr az haz deg
    have haz := hugeTimes_of_belowHuge haz
    have hquot := (hugeTimes_i2f az).fdiv (b := hundred64) (by decide) one_le_abs_hundred64 (by norm_num)
    have hdeg : hugeTimes _ deg := hquot.fsub haz (by norm_num)
    exact ⟨hquot.isFinite, hdeg.isFinite, (hdeg.fmul_pi64 (by norm_num)).isFinite, (hdeg.toRadians (by norm_num)).isFinite⟩
  · -- the distance, the range and the coordinates
    intro e sinAz cosAz dist hdc hvo hho hsv hcv hsvo hcvo hsin hcos distM horiz
    have hho := hugeTimes_of_belowHuge hho
    have hsinVOff : hugeTimes _ e.sinVOff := hsvo ▸ (hugeTimes_of_belowHuge hvo).fmul (boundedBy_of_withinUnit hsv) (by norm_num)
    have hcosVOff : hugeTimes _ e.cosVOff := hcvo ▸ (hugeTimes_of_belowHuge hvo).fmul (boundedBy_of_withinUnit hcv) (by norm_num)
    have hmetres := (hugeTimes_i2f dist).fmul boundedBy_distLsb (by norm_num)
    have hdist : hugeTimes _ distM := hmetres.fadd (hugeTimes_of_belowHuge hdc) (by norm_num)
    have hproj := hdist.fmul (boundedBy_of_withinUnit hcv) (by norm_num)
    have hheight := hdist.fmul (boundedBy_of_withinUnit hsv) (by norm_num)
    have hhoriz : hugeTimes _ horiz := hproj.fsub hsinVOff (by norm_num)
    have hhs := hhoriz.fmul (boundedBy_of_withinUnit hsin) (by norm_num)
    have hhc := hhoriz.fmul (boundedBy_of_withinUnit hcos) (by norm_num)
    have hoc := hho.fmul (boundedBy_of_withinUnit hcos) (by norm_num)
    have hos := hho.fmul (boundedBy_of_withinUnit hsin) (by norm_num)
    exact ⟨hsinVOff.isFinite, hcosVOff.isFinite, hmetres.isFinite, hdist.isFinite, hproj.isFinite, hhoriz.isFinite, hhs.isFinite,
      hoc.isFinite, hhc.isFinite, hos.isFinite, hheight.isFinite, (hhs.fsub hoc (by norm_num)).isFinite,
      (hhc.fadd hos (by norm_num)).isFinite, (hheight.fadd hcosVOff (by norm_num)).isFinite⟩

/-- Settles O45: the raw distance is tested before anything else. -/
theorem zeroDistanceReturnDoesNothing : Obligations.ZeroDistanceReturnDoesNothing := fun _ _ _ _ _ _ _ => if_pos rfl

/-- Settles O48: the return is not off the table, so its one Point is emitted and counted. -/
theorem correctorPointFormulas : Obligations.CorrectorPointFormulas := by
  intro word id az dist inty ts k s e sinAz cosAz distM horiz hd hon
  exact correctReturn_of_onTable hd fun h => hon ((offTable_iff ..).1 h)

/-- Settles O50: the entry is neutral, the azimuth 90 degrees, and the formulas evaluate on them. -/
theorem geometryScenario : Obligations.GeometryScenario := by
  intro word id inty ts k s hcfg hcal
  have he : calEntry s id = ⟨0, 0, 0, 0, 0, 0, one64, 0, 0⟩ := hcal.trans (deriveEntry_zero _)
  have hon : ¬ offTable (calEntry s id).azCorr 9000 = true := by rw [he]; decide
  have hpair : azimuthPair s.cfg (calEntry s id).azCorr 9000 = (one64, 0x3C91A62633145C07) := by
    rw [he, hcfg, azimuthPair_ninety_degrees]
  rw [correctReturn_of_onTable (by decide) hon, hpair, he, pointOf_geometryScenario]
  rfl

end Sys2Proof.Machine
end

section
/-! SUPPORT. Runs of commands, and their frames numbered and counted. -/

namespace Sys2Proof.Machine

variable {s t : State}

/-! ### Runs of commands (R30) -/

theorem run_succ_eq_next_iff (M : Host.Core) {n : Nat} {s t : M.State} :
    M.run (n + 1) s = .next t ↔ ∃ u, M.step s = .next u ∧ M.run n u = .next t := by
  rw [Host.Core.run]
  cases M.step s <;> simp

/-- A step from a list of good commands is idle or runs the first of them, and leaves a list of good commands. -/
theorem step_cases_of_commands {good : Command → Prop} (hin : ∀ a ∈ s.input, ∃ c, a = .command c ∧ good c)
    (h : step s = .next t) :
    (∀ a ∈ t.input, ∃ c, a = .command c ∧ good c) ∧
      (t = s ∨ ∃ c rest, good c ∧ runCommand c { s with input := rest } = .next t) := by
  obtain ⟨rfl, -⟩ | ⟨waiting, a, post, e, -, -, hact⟩ := step_cases h
  · exact ⟨hin, .inl rfl⟩
  · obtain ⟨c, rfl, hc⟩ : ∃ c, a = .command c ∧ good c := hin a (by simp [e])
    obtain ⟨h', -⟩ | ⟨h', -⟩ | ⟨c', h', -, rfl, hrun⟩ := hact
    · cases h'
    · cases h'
    · cases h'
      refine ⟨fun a ha => hin a ?_, .inr ⟨c, post, hc, hrun⟩⟩
      rw [(runCommand_continues hrun).input] at ha
      simp [e, ha]

/-- What every good command keeps of the state it finds, a run of good commands keeps. -/
theorem run_induction {good : Command → Prop} {R : State → State → Prop} (hrefl : ∀ s, R s s)
    (htrans : ∀ s t u, R s t → R t u → R s u)
    (hcommand : ∀ c s rest t, good c → runCommand c { s with input := rest } = .next t → R s t) :
    ∀ (n : Nat) (s t : State), (∀ a ∈ s.input, ∃ c, a = .command c ∧ good c) → Sys2Proof.core.run n s = .next t → R s t := by
  intro n
  induction n with
  | zero => intro s t _ h; cases h; exact hrefl s
  | succ n ih =>
    intro s t hin h
    obtain ⟨u, hstep, hrun⟩ := (run_succ_eq_next_iff Sys2Proof.core).1 h
    obtain ⟨hin', rfl | ⟨c, rest, hc, hcmd⟩⟩ := step_cases_of_commands hin hstep
    · exact ih _ _ hin' hrun
    · exact htrans s u t (hcommand c s rest u hc hcmd) (ih u t hin' hrun)

/-! ### Frames numbered and counted (R92, R210) -/

theorem FramesFollow.trans {u : State} (h : FramesFollow s t) (h' : FramesFollow t u) : FramesFollow s u := by
  obtain ⟨es, he, hcount, hk⟩ := h
  obtain ⟨fs, he', hcount', hk'⟩ := h'
  rw [hk] at hcount' hk'
  refine ⟨es ++ fs, by rw [he', he, List.append_assoc], ?_, by rw [hk', List.foldl_append]⟩
  rw [framesCountedFrom_append, hcount, hcount', Bool.and_true]

theorem runCommand_framesFollow {c : Command} (hc : decode c ≠ .ok .sessionReset) (h : runCommand c s = .next t) :
    FramesFollow s t := by
  obtain ⟨es, he, hcount, hk, -⟩ := frameCountersFollowEvents c s t h
  exact ⟨es, he, hcount, hk hc⟩

/-- Frame ends counted from m closed frames and the points `open'` of the open one name the frames that the events close from there on. -/
theorem frameEndsOf_eq_mapIdx_closedFrames {open' : List Point} {m : Nat} {es : List Event}
    (h : framesCountedFrom (BitVec.ofNat 32 open'.length, BitVec.ofNat 32 m) es = true) :
    frameEndsOf es = (closedFrames open' es).mapIdx fun i f => (BitVec.ofNat 32 f.length, BitVec.ofNat 32 (m + i)) := by
  induction es generalizing open' m with
  | nil => rfl
  | cons e es ih =>
    cases e with
    | point q =>
      refine ih (open' := open' ++ [q]) ?_
      rw [List.length_append, List.length_singleton, BitVec.ofNat_add]
      exact h
    | frameEnd cause block points frame =>
      simp only [framesCountedFrom, account, Bool.and_eq_true, decide_eq_true_eq] at h
      obtain ⟨⟨rfl, rfl⟩, h⟩ := h
      have hrest := ih (open' := []) (m := m + 1) (by rw [BitVec.ofNat_add]; exact h)
      simp only [frameEndsOf, closedFrames, List.mapIdx_cons, hrest, Nat.add_zero, Nat.add_assoc, Nat.add_comm 1]
    | packet | calData | regData | error => exact ih h

end Sys2Proof.Machine
end

section
/-! SUPPORT. Where a data packet splits, which of its events do not depend on the frame counters, and what two sessions in step answer. -/

namespace Sys2Proof.Machine

variable {s t : State}

/-! ### Splits (R202, R203) -/

variable {cfg : Config} {cal : Vector CalEntry 64} {word : U32} {p : List Byte}

/-- The events from the returns of block k on, the segmenter's step done (R145, R203). -/
def eventsAfterStep (cfg : Config) (cal : Vector CalEntry 64) (word : U32) (p : List Byte) (k : Nat) (ks : List Nat) (c : U32 × U32) :
    List Event :=
  (List.range 32).flatMap (returnEvents cfg cal word p k) ++
    blocksEvents cfg cal word p ks (u16At p (100 * k + 2)) (((List.range 32).flatMap (returnEvents cfg cal word p k)).foldl account c)

theorem blocksEvents_cons_of_lt {k : Nat} {last : U16} (h : u16At p (100 * k + 2) < last) (ks : List Nat) (c : U32 × U32) :
    blocksEvents cfg cal word p (k :: ks) last c =
      .frameEnd .split (BitVec.ofNat 4 k) c.1 c.2 :: eventsAfterStep cfg cal word p k ks (0, c.2 + 1) := by
  rw [blocksEvents_cons, blockEvents, splitEvents, if_pos h, eventsAfterStep, List.foldl_append, List.append_assoc]; rfl

theorem blocksEvents_cons_of_not_lt {k : Nat} {last : U16} (h : ¬ u16At p (100 * k + 2) < last) (ks : List Nat) (c : U32 × U32) :
    blocksEvents cfg cal word p (k :: ks) last c = eventsAfterStep cfg cal word p k ks c := by
  rw [blocksEvents_cons, blockEvents, splitEvents, if_neg h, List.nil_append, eventsAfterStep]

/-- LAST_AZ after some blocks (R203). -/
def lastAzAfter (p : List Byte) (ks : List Nat) (last : U16) : U16 := (ks.getLast?.map fun k => u16At p (100 * k + 2)).getD last

theorem lastAzAfter_cons (k : Nat) (ks : List Nat) (last : U16) :
    lastAzAfter p (k :: ks) last = lastAzAfter p ks (u16At p (100 * k + 2)) := by
  unfold lastAzAfter
  rw [List.getLast?_cons]
  cases ks.getLast? <;> rfl

theorem lastAzAfter_range' (a n : Nat) (last : U16) :
    lastAzAfter p (List.range' a n) last = if n = 0 then last else u16At p (100 * (a + n - 1) + 2) := by
  rw [lastAzAfter, List.getLast?_range']
  split <;> rfl

theorem blocksEvents_append (ks ks' : List Nat) (last : U16) (c : U32 × U32) :
    blocksEvents cfg cal word p (ks ++ ks') last c =
      blocksEvents cfg cal word p ks last c ++
        blocksEvents cfg cal word p ks' (lastAzAfter p ks last) ((blocksEvents cfg cal word p ks last c).foldl account c) := by
  induction ks generalizing last c with
  | nil => rfl
  | cons k ks ih =>
    rw [List.cons_append, blocksEvents_cons, ih, blocksEvents_cons, lastAzAfter_cons, List.append_assoc, List.foldl_append]

/-- The blocks a data packet processes are consecutive (R142). -/
theorem blocksProcessed_eq_range' (start : BitVec 4) : blocksProcessed start = List.range' start.toNat (12 - start.toNat) := by
  revert start; decide

/-- A data packet that processes block i processes the blocks before it, then the blocks it would process with PENDING_SKIP = i. -/
theorem blocksProcessed_eq_append {start i : BitVec 4} (h : start.toNat ≤ i.toNat) (hi : i.toNat ≤ 11) :
    blocksProcessed start = List.range' start.toNat (i.toNat - start.toNat) ++ blocksProcessed i := by
  rw [blocksProcessed_eq_range', blocksProcessed_eq_range', ← Nat.add_sub_of_le h, Nat.add_sub_cancel_left, List.range'_append_1]
  congr 1; omega

theorem blocksProcessed_eq_cons {i : BitVec 4} (hi : i.toNat ≤ 11) :
    blocksProcessed i = i.toNat :: List.range' (i.toNat + 1) (11 - i.toNat) := by
  rw [blocksProcessed_eq_range', ← List.range'_succ]
  congr 1; omega

/-- A packet's first block splits or not by LAST_AZ, and every later one by the position of the block before it (R202, R203). -/
theorem split_mem_blocksEvents_cons_iff {k : BitVec 4} (a : Nat) (ks : List Nat) (last : U16) (c : U32 × U32) :
    (∃ points frame, Event.frameEnd .split k points frame ∈ blocksEvents cfg cal word p (a :: ks) last c) ↔
      (BitVec.ofNat 4 a = k ∧ u16At p (100 * a + 2) < last) ∨
        ∃ points frame, Event.frameEnd .split k points frame ∈ blocksEvents cfg cal word p ks (u16At p (100 * a + 2))
          ((blockEvents cfg cal word p a last c).foldl account c) := by
  have hsplit : (∃ points frame, Event.frameEnd .split k points frame ∈ splitEvents a (u16At p (100 * a + 2)) last c) ↔
      BitVec.ofNat 4 a = k ∧ u16At p (100 * a + 2) < last := by
    unfold splitEvents
    split <;> simp [*, eq_comm]
  have hret : ¬ ∃ points frame, Event.frameEnd .split k points frame ∈ (List.range 32).flatMap (returnEvents cfg cal word p a) := by
    rintro ⟨points, frame, h⟩
    obtain ⟨j, -, hj⟩ := List.mem_flatMap.1 h
    exact returnEvents_no_frameEnd hj rfl
  rw [blocksEvents_cons, blockEvents]
  simp only [List.mem_append, exists_or]
  rw [hsplit, or_iff_left hret]

/-- Among consecutive blocks the splits name those whose position is below the one before (R202, R206). -/
theorem split_mem_blocksEvents_range'_iff {k : BitVec 4} (a n : Nat) (last : U16) (c : U32 × U32) :
    (∃ points frame, Event.frameEnd .split k points frame ∈ blocksEvents cfg cal word p (List.range' a n) last c) ↔
      ∃ j, a ≤ j ∧ j < a + n ∧ BitVec.ofNat 4 j = k ∧
        u16At p (100 * j + 2) < if j = a then last else u16At p (100 * (j - 1) + 2) := by
  induction n generalizing a last c with
  | zero =>
    refine iff_of_false (fun ⟨_, _, h⟩ => List.not_mem_nil h) fun ⟨j, h1, h2, _⟩ => ?_
    omega
  | succ n ih =>
    have hprev (j : Nat) : (if j = a + 1 then u16At p (100 * a + 2) else u16At p (100 * (j - 1) + 2)) = u16At p (100 * (j - 1) + 2) :=
      ite_eq_right_iff.2 (by rintro rfl; rfl)
    simp only [List.range'_succ, split_mem_blocksEvents_cons_iff, ih, hprev]
    constructor
    · rintro (⟨hk, hd⟩ | ⟨j, h1, h2, hk, hd⟩)
      · exact ⟨a, le_rfl, by omega, hk, by rwa [if_pos rfl]⟩
      · exact ⟨j, by omega, by omega, hk, by rwa [if_neg (by omega)]⟩
    · rintro ⟨j, h1, h2, hk, hd⟩
      by_cases hj : j = a
      · subst hj
        exact .inl ⟨hk, by rwa [if_pos rfl] at hd⟩
      · exact .inr ⟨j, by omega, by omega, hk, by rwa [if_neg hj] at hd⟩

/-! ### Points and boundaries do not depend on the frame counters (R212) -/

theorem frameTrace_append (es fs : List Event) : frameTrace (es ++ fs) = frameTrace es ++ frameTrace fs := List.filterMap_append ..

/-- The points and boundaries of a packet do not depend on the frame counters. -/
theorem frameTrace_blocksEvents_congr (ks : List Nat) (last : U16) (c c' : U32 × U32) :
    frameTrace (blocksEvents cfg cal word p ks last c) = frameTrace (blocksEvents cfg cal word p ks last c') := by
  induction ks generalizing last c c' with
  | nil => rfl
  | cons k ks ih =>
    have hsplit : frameTrace (splitEvents k (u16At p (100 * k + 2)) last c) =
        frameTrace (splitEvents k (u16At p (100 * k + 2)) last c') := by
      unfold splitEvents; split <;> rfl
    simp only [blocksEvents_cons, blockEvents, frameTrace_append, hsplit]
    rw [ih]

theorem frameTrace_eventsAfterStep_congr (k : Nat) (ks : List Nat) (c c' : U32 × U32) :
    frameTrace (eventsAfterStep cfg cal word p k ks c) = frameTrace (eventsAfterStep cfg cal word p k ks c') := by
  rw [eventsAfterStep, eventsAfterStep, frameTrace_append, frameTrace_append, frameTrace_blocksEvents_congr]

/-! ### Sessions in step (R212) -/

/-- `t` is in step with `s`: the configuration, Cal, LAST_AZ and PENDING_SKIP, which decide what frames a session gives, agree (R212). -/
structure InStep (s t : State) : Prop where
  cfg : t.cfg = s.cfg
  cal : t.cal = s.cal
  lastAz : t.lastAz = s.lastAz
  pendingSkip : t.pendingSkip = s.pendingSkip

/-- The points and boundaries of a data packet are the same in two sessions in step. -/
theorem InStep.frameTrace_dataEvents (h : InStep s t) (word : U32) (p : List Byte) :
    frameTrace (dataEvents word p t) = frameTrace (dataEvents word p s) := by
  rw [dataEvents, dataEvents, h.cfg, h.cal, h.lastAz, h.pendingSkip, frameTrace_blocksEvents_congr]

theorem InStep.dataPacket (h : InStep s t) (word : U32) (p : List Byte) : InStep (dataPacket word p s) (dataPacket word p t) where
  cfg := by rw [(continues_dataPacket word p).cfg, (continues_dataPacket word p).cfg, h.cfg]
  cal := by rw [dataPacket_cal, dataPacket_cal, h.cal]
  lastAz := by rw [dataPacket_lastAz, dataPacket_lastAz, h.lastAz, h.pendingSkip]
  pendingSkip := (dataPacket_registers word p t).1.trans (dataPacket_registers word p s).1.symm

/-- Both sessions answer, give the same points and boundaries, and are in step again. -/
def AnswersInStep (i : Instr) (s t : State) : Prop :=
  ∃ s' t' es fs, exec i s = .next s' ∧ exec i t = .next t' ∧ s'.events = s.events ++ es ∧ t'.events = t.events ++ fs ∧
    frameTrace fs = frameTrace es ∧ InStep s' t'

/-- Two answers without an event. -/
theorem answersInStep_of_quiet {i : Instr} {s' t' : State} (hs : exec i s = .next s') (ht : exec i t = .next t')
    (hes : s'.events = s.events) (het : t'.events = t.events) (h : InStep s' t') : AnswersInStep i s t :=
  ⟨s', t', [], [], hs, ht, by rw [hes, List.append_nil], by rw [het, List.append_nil], rfl, h⟩

/-- Two answers of one event each, which say the same about frames. -/
theorem answersInStep_of_event {i : Instr} {s' t' : State} {e f : Event} (hs : exec i s = .next s') (ht : exec i t = .next t')
    (hes : s'.events = s.events ++ [e]) (het : t'.events = t.events ++ [f]) (hef : f.frameItem? = e.frameItem?) (h : InStep s' t') :
    AnswersInStep i s t :=
  ⟨s', t', [e], [f], hs, ht, hes, het, by rw [frameTrace, frameTrace, List.filterMap_cons, List.filterMap_cons, hef], h⟩

theorem exec_packet_answersInStep (h : InStep s t) (len : U16) (p : List Byte) : AnswersInStep (.packet len p) s t := by
  by_cases hl : p.length = len.toNat
  · by_cases h6 : len = 1206
    · subst h6
      refine ⟨_, _, _, _, exec_dataPacket p s hl, exec_dataPacket p t hl, (dataPacket_events ..).trans (List.append_assoc ..),
        (dataPacket_events ..).trans (List.append_assoc ..), ?_, h.dataPacket ..⟩
      rw [frameTrace_append, frameTrace_append, h.frameTrace_dataEvents]; rfl
    · exact answersInStep_of_event (exec_nondataPacket h6 hl s) (exec_nondataPacket h6 hl t) rfl rfl rfl
        ⟨h.cfg, h.cal, h.lastAz, h.pendingSkip⟩
  · exact answersInStep_of_event (exec_packet_of_length_ne hl s) (exec_packet_of_length_ne hl t) (raise_events ..) (raise_events ..) rfl
      ⟨h.cfg, h.cal, h.lastAz, h.pendingSkip⟩

/-- Every command keeps two sessions in step (R212): the counters, STATUS and the events so far decide no point and no boundary. -/
theorem exec_answersInStep (h : InStep s t) (i : Instr) : AnswersInStep i s t := by
  cases i with
  | packet len p => exact exec_packet_answersInStep h len p
  | nop => exact answersInStep_of_quiet rfl rfl rfl rfl h
  | sessionReset => exact answersInStep_of_quiet rfl rfl rfl rfl ⟨h.cfg, h.cal, rfl, rfl⟩
  | setSkip k => exact answersInStep_of_quiet rfl rfl rfl rfl ⟨h.cfg, h.cal, h.lastAz, rfl⟩
  | loadDefault => exact answersInStep_of_quiet rfl rfl rfl rfl ⟨h.cfg, congrArg defaultProfile h.cfg, h.lastAz, h.pendingSkip⟩
  | statusClear m => exact answersInStep_of_quiet rfl rfl rfl rfl ⟨h.cfg, h.cal, h.lastAz, h.pendingSkip⟩
  | flush =>
    exact answersInStep_of_event rfl rfl (closeFrame_events ..) (closeFrame_events ..) rfl ⟨h.cfg, h.cal, h.lastAz, h.pendingSkip⟩
  | regRead r => exact answersInStep_of_event rfl rfl (emit_events ..) (emit_events ..) rfl ⟨h.cfg, h.cal, h.lastAz, h.pendingSkip⟩
  | calWrite laser f v =>
    rcases lt_or_ge laser.toNat 64 with hl | hl
    · refine answersInStep_of_quiet (exec_calWrite_of_lt hl f v s) (exec_calWrite_of_lt hl f v t) rfl rfl
        ⟨h.cfg, ?_, h.lastAz, h.pendingSkip⟩
      simp only [setCalEntry_cal, calEntry, h.cfg, h.cal]
    · exact answersInStep_of_event (exec_calWrite_of_le hl f v s) (exec_calWrite_of_le hl f v t) (raise_events ..) (raise_events ..) rfl
        ⟨h.cfg, h.cal, h.lastAz, h.pendingSkip⟩
  | calRead laser f =>
    rcases lt_or_ge laser.toNat 64 with hl | hl
    · exact answersInStep_of_event (exec_calRead_of_lt hl f s) (exec_calRead_of_lt hl f t) (emit_events ..) (emit_events ..) rfl
        ⟨h.cfg, h.cal, h.lastAz, h.pendingSkip⟩
    · exact answersInStep_of_event (exec_calRead_of_le hl f s) (exec_calRead_of_le hl f t) (raise_events ..) (raise_events ..) rfl
        ⟨h.cfg, h.cal, h.lastAz, h.pendingSkip⟩

/-! ### Random access (R211, R212) -/

/-- Where block i splits: the events before the split, the split, and the events from block i's returns on. -/
theorem dataEvents_eq_of_split {i : BitVec 4} (hskip : s.pendingSkip.toNat ≤ i.toNat) (hi : i.toNat ≤ 11)
    (hdrop : u16At p (100 * i.toNat + 2) < if i = s.pendingSkip then s.lastAz else u16At p (100 * (i.toNat - 1) + 2)) :
    ∃ before points frame c, dataEvents word p s = before ++ [.frameEnd .split i points frame] ++
      eventsAfterStep s.cfg s.cal word p i.toNat (List.range' (i.toNat + 1) (11 - i.toNat)) c := by
  have hlast : u16At p (100 * i.toNat + 2) < lastAzAfter p (List.range' s.pendingSkip.toNat (i.toNat - s.pendingSkip.toNat)) s.lastAz := by
    rw [lastAzAfter_range', Nat.add_sub_of_le hskip]
    refine hdrop.trans_eq (if_congr ?_ rfl rfl)
    rw [← BitVec.toNat_inj]
    omega
  rw [dataEvents, blocksProcessed_eq_append hskip hi, blocksEvents_append, blocksProcessed_eq_cons hi, blocksEvents_cons_of_lt hlast,
    BitVec.ofNat_toNat, BitVec.setWidth_eq]
  exact ⟨_, _, _, _, List.append_cons ..⟩

/-- The state in which a random-access read presents its packet: after SESSION_RESET and SET_SKIP i (R88, R211). -/
def resumedAt (i : BitVec 4) (s : State) : State :=
  { s with lastAz := 0, pendingSkip := i, curFramePoints := 0, frameCount := 0 }

/-- From there block i does not split, because no position is below 0 (R208). -/
theorem dataEvents_resumedAt {i : BitVec 4} (hi : i.toNat ≤ 11) :
    dataEvents word p (resumedAt i s) =
      eventsAfterStep s.cfg s.cal word p i.toNat (List.range' (i.toNat + 1) (11 - i.toNat)) (0, 0) := by
  change blocksEvents s.cfg s.cal word p (blocksProcessed i) 0 (0, 0) = _
  rw [blocksProcessed_eq_cons hi]
  exact blocksEvents_cons_of_not_lt BitVec.not_lt_zero ..

/-! ### A data packet with no block (R142) -/

/-- With PENDING_SKIP above 11 a data packet consumes the skip, is counted and emits EV_PACKET. -/
theorem dataPacket_eq_of_no_block (hk : 11 < s.pendingSkip.toNat) :
    dataPacket word p s =
      { s with
        pendingSkip := 0
        dataPktCount := s.dataPktCount + 1
        events := s.events ++ [.packet .data 1206 (u32At p 1200) s.pendingSkip] } := by
  rw [dataPacket, processBlocks, blocksFrom_eq, blocksProcessed_eq_nil hk, packetTimestamp_eq]
  rfl

end Sys2Proof.Machine
end

section
/-! PROOFS. The angular wraparound detector and its commands (R200 to R212): O20, O27 to O29, O40, O41, O43, O44. -/

namespace Sys2Proof.Machine

/-- Settles O20: every command but SESSION_RESET keeps the counters in step with the events, so a run does, and counters that start at 0
count the frames from 0. -/
theorem sessionFramesAreNumberedAndCounted : Obligations.SessionFramesAreNumberedAndCounted := by
  intro n s t hin hcur hframe hrun
  have hfollow : FramesFollow s t := run_induction (R := FramesFollow) (fun _ => framesFollow_of_same rfl rfl rfl)
    (fun _ _ _ => FramesFollow.trans) (fun _ s rest _ hc h => runCommand_framesFollow (s := { s with input := rest }) hc h) n s t hin hrun
  obtain ⟨es, he, hcount, -⟩ := hfollow
  rw [hcur, hframe] at hcount
  refine ⟨es, he, ?_⟩
  simpa using frameEndsOf_eq_mapIdx_closedFrames (open' := []) (m := 0) hcount

/-- Settles O44: no command reads more of a session than its configuration, Cal, LAST_AZ and PENDING_SKIP to emit points and boundaries. -/
theorem sessionsInStepGiveTheSameFrames : Obligations.SessionsInStepGiveTheSameFrames := by
  intro i s t hcfg hcal hlast hskip
  obtain ⟨s', t', es, fs, hs, ht, hes, hfs, htrace, h⟩ := exec_answersInStep ⟨hcfg, hcal, hlast, hskip⟩ i
  exact ⟨s', t', es, fs, hs, ht, hes, hfs, htrace, h.cfg, h.cal, h.lastAz, h.pendingSkip⟩

/-- Settles O40: the one test of the step is the comparison with LAST_AZ. -/
theorem segmenterStep : Obligations.SegmenterStep := by
  intro k pos s
  refine ⟨fun h => ?_, fun h => ?_⟩
  · rw [segmentBlock, if_pos (BitVec.lt_def.2 h)]; rfl
  · rw [segmentBlock, if_neg fun hlt => h.not_gt (BitVec.lt_def.1 hlt)]

/-- Settles O27: FLUSH is the closing of a frame, and it keeps LAST_AZ for the block after it. -/
theorem flushClosesTheFrame : Obligations.FlushClosesTheFrame := by
  refine ⟨fun _ => rfl, fun s t u ht hu => ?_, fun s t k pos ht hpos => ?_, rfl, rejectsAllBut_encodings (op := .flush) fun i hi => ?_⟩
  · cases ht; cases hu
    exact List.append_assoc ..
  · cases ht
    rw [(segmenterStep k pos (closeFrame .flush 0 s)).1 (BitVec.lt_def.1 hpos)]; rfl
  · cases i with
    | flush => rfl
    | nop | packet | sessionReset | setSkip | loadDefault | calWrite | calRead | regRead | statusClear => cases hi

/-- Settles O28: no position is below the LAST_AZ it leaves. -/
theorem sessionResetClearsTheSession : Obligations.SessionResetClearsTheSession := by
  refine ⟨fun _ => rfl, fun s t k pos ht => ?_, rfl, rejectsAllBut_encodings (op := .sessionReset) fun i hi => ?_⟩
  · cases ht
    rw [(segmenterStep k pos _).2 (Nat.zero_le _)]
    exact ⟨rfl, rfl⟩
  · cases i with
    | sessionReset => rfl
    | nop | packet | flush | setSkip | loadDefault | calWrite | calRead | regRead | statusClear => cases hi

/-- Settles O29: of the PACKETs only a data packet consumes the skip, and a skip above 11 leaves it no block. -/
theorem setSkipWritesPendingSkip : Obligations.SetSkipWritesPendingSkip := by
  refine ⟨fun _ _ => rfl, fun k k' s t ht => ?_, fun k s t u len p ht hn hu => ?_, fun k s t p hk hp ht => ?_, fun k => ?_,
    rejectsAllBut_encodings (op := .setSkip) fun i hi => ?_⟩
  · cases ht; rfl
  · cases ht
    obtain ⟨-, rfl⟩ | ⟨-, -, rfl⟩ | ⟨rfl, -, -⟩ := exec_packet_cases hu
    · rfl
    · rfl
    · exact absurd rfl hn
  · cases ht
    rw [exec_dataPacket p _ hp, dataPacket_eq_of_no_block (s := { s with pendingSkip := k }) hk]
  · exact decode_of_encode_parts (.setSkip k) rfl (append_sel_eq_or _ k) rfl
  · cases i with
    | setSkip k => exact ⟨k, congrArg (Command.mk · []) (append_sel_eq_or _ k)⟩
    | nop | packet | flush | sessionReset | loadDefault | calWrite | calRead | regRead | statusClear => cases hi

/-- Settles O41: the blocks a packet processes are consecutive, so the block before another one has the number before it. -/
theorem splitEventsMarkPositionDrops : Obligations.SplitEventsMarkPositionDrops := by
  intro p s t es k hp h he
  rw [exec_dataPacket p s hp] at h
  cases h
  obtain rfl : es = dataEvents 0x100004B6 p s ++ [.packet .data 1206 (u32At p 1200) s.pendingSkip] := by
    rw [dataPacket_events, List.append_assoc] at he
    exact (List.append_cancel_left he).symm
  have hmem (points frame : U32) : Event.frameEnd .split k points frame ∈
      dataEvents 0x100004B6 p s ++ [.packet .data 1206 (u32At p 1200) s.pendingSkip] ↔
        Event.frameEnd .split k points frame ∈ dataEvents 0x100004B6 p s := by simp
  simp only [hmem]
  rw [dataEvents, blocksProcessed_eq_range', split_mem_blocksEvents_range'_iff]
  have hnum (j : Nat) (hj : j < 12) : BitVec.ofNat 4 j = k ↔ j = k.toNat := by
    rw [← BitVec.toNat_inj, BitVec.toNat_ofNat, Nat.mod_eq_of_lt (by omega)]
  constructor
  · rintro ⟨j, h1, h2, hk, hd⟩
    obtain rfl := (hnum j (by omega)).1 hk
    exact ⟨h1, by omega, by simpa only [BitVec.toNat_inj] using hd⟩
  · rintro ⟨h1, h2, hd⟩
    exact ⟨k.toNat, h1, by omega, (hnum _ (by omega)).2 rfl, by simpa only [BitVec.toNat_inj] using hd⟩

/-- Settles O43: after the split at block i both runs go through the same blocks with the same LAST_AZ, and only the frame counters
differ. -/
theorem randomAccessReplaysTheFrame : Obligations.RandomAccessReplaysTheFrame := by
  intro p s t i hp hcfg hcal hskip hi hdrop
  obtain ⟨before, points, frame, c, hevs⟩ := dataEvents_eq_of_split (word := 0x100004B6) hskip hi hdrop
  have hsplit : (dataPacket 0x100004B6 p s).events = s.events ++ before ++ [.frameEnd .split i points frame] ++
      (eventsAfterStep s.cfg s.cal 0x100004B6 p i.toNat (List.range' (i.toNat + 1) (11 - i.toNat)) c ++
        [.packet .data 1206 (u32At p 1200) s.pendingSkip]) := by
    rw [dataPacket_events, hevs]
    simp only [List.append_assoc]
  refine ⟨_, _, resumedAt i t, _, before, _, _, points, frame, exec_dataPacket p s hp, hsplit, rfl, rfl, exec_dataPacket p _ hp,
    (dataPacket_events ..).trans (List.append_assoc ..), ?_, ?_, ?_, ?_, ?_⟩
  · rw [dataEvents_resumedAt hi, frameTrace_append, frameTrace_append, hcfg, hcal, frameTrace_eventsAfterStep_congr _ _ _ c]
    rfl
  · rw [dataPacket_lastAz, dataPacket_lastAz, if_pos (hskip.trans hi)]
    exact if_pos hi
  · exact (dataPacket_registers ..).1.trans (dataPacket_registers ..).1.symm
  · rw [dataPacket_cal, dataPacket_cal]
    exact hcal
  · rw [(continues_dataPacket 0x100004B6 p).cfg, (continues_dataPacket 0x100004B6 p).cfg]
    exact hcfg

end Sys2Proof.Machine
end

section
/-! SUPPORT. What the control commands leave in STATUS, bit by bit, and the words of REG_READ as numbers (R80, R231, R232). -/

namespace Sys2Proof.Machine

/-- STATUS_CLEAR keeps the defined bits whose MASK bit is 0 (R232). -/
theorem getLsbD_clearStatus (m : BitVec 4) (s : State) (i : Nat) :
    (clearStatus m s).status.getLsbD i = (s.status.getLsbD i && decide (i < 4) && !m.getLsbD i) := by
  rw [clearStatus_status, getLsbD_statusValue, BitVec.getLsbD_and]
  by_cases hi : i < 4
  · simp [hi, show i < 32 by omega]
  · simp [hi]

/-- A REG_READ is a word of opcode 8 whose selector is one of R84. -/
theorem encodeWord_regRead_le (r : Reg) : (encodeWord (.regRead r)).toNat ≤ 0x80000006 := by
  rw [encodeWord, sel4_toNat]
  exact Nat.add_le_add_left (Nat.le_of_lt_succ (reg_sel_lt r)) _

end Sys2Proof.Machine
end

section
/-! PROOFS. The control commands (R230 to R232): O24 to O26. -/

namespace Sys2Proof.Machine

/-- Settles O24: NOP has one encoding. -/
theorem nopChangesNothing : Obligations.NopChangesNothing := by
  refine ⟨fun _ => rfl, rfl, rejectsAllBut_encodings (op := .nop) fun i hi => ?_⟩
  cases i with
  | nop => rfl
  | packet | flush | sessionReset | setSkip | loadDefault | calWrite | calRead | regRead | statusClear => cases hi

/-- Settles O25, register by register: each selector reads its own register. -/
theorem regReadReturnsTheRegister : Obligations.RegReadReturnsTheRegister := by
  refine ⟨fun _ => ⟨rfl, rfl, rfl, rfl, rfl, rfl, rfl⟩, decodeInvertsEncode (.regRead .status) rfl,
    decodeInvertsEncode (.regRead .lastAz) rfl, decodeInvertsEncode (.regRead .pendingSkip) rfl,
    decodeInvertsEncode (.regRead .frameCount) rfl, decodeInvertsEncode (.regRead .curFramePoints) rfl,
    decodeInvertsEncode (.regRead .dataPktCount) rfl, decodeInvertsEncode (.regRead .nondataPktCount) rfl,
    rejectsAllBut_encodings (op := .regRead) fun i hi => ?_⟩
  cases i with
  | regRead r => exact ⟨rfl, encodeWord_regRead_le r⟩
  | nop | packet | flush | sessionReset | setSkip | loadDefault | calWrite | calRead | statusClear => cases hi

/-- Settles O26: the commands of opcode 9 that decode are those of the sixteen masks. -/
theorem statusClearClearsTheMask : Obligations.StatusClearClearsTheMask := by
  refine ⟨fun m s => ⟨_, rfl, getLsbD_clearStatus m s⟩, fun m => ?_, rejectsAllBut_encodings (op := .statusClear) fun i hi => ?_⟩
  · exact decode_of_encode_parts (.statusClear m) rfl (append_sel_eq_or _ m) rfl
  · cases i with
    | statusClear m => exact ⟨m, congrArg (Command.mk · []) (append_sel_eq_or _ m)⟩
    | nop | packet | flush | sessionReset | setSkip | loadDefault | calWrite | calRead | regRead => cases hi

end Sys2Proof.Machine
end

section
/-! SUPPORT. What every command answers, and which errors it reports: the EV_ERRORs it emits against the STATUS bits it sets (R251 to R257). -/

namespace Sys2Proof.Machine

variable {s t : State}

/-! ### Every command answers a next state (R256, R257) -/

theorem exec_packet_answers (len : U16) (p : List Byte) (s : State) : ∃ t, exec (.packet len p) s = .next t := by
  by_cases hl : p.length = len.toNat
  · by_cases hn : len = 1206
    · subst hn; exact ⟨_, exec_dataPacket p s hl⟩
    · exact ⟨_, exec_nondataPacket hn hl s⟩
  · exact ⟨_, exec_packet_of_length_ne hl s⟩

theorem exec_answers (i : Instr) (s : State) : ∃ t, exec i s = .next t := by
  cases i with
  | packet len p => exact exec_packet_answers len p s
  | calWrite laser f v =>
    obtain h | h := lt_or_ge laser.toNat 64
    · exact ⟨_, exec_calWrite_of_lt h f v s⟩
    · exact ⟨_, exec_calWrite_of_le h f v s⟩
  | calRead laser f =>
    obtain h | h := lt_or_ge laser.toNat 64
    · exact ⟨_, exec_calRead_of_lt h f s⟩
    · exact ⟨_, exec_calRead_of_le h f s⟩
  | nop | flush | sessionReset | setSkip | loadDefault | regRead | statusClear => exact ⟨_, rfl⟩

theorem runCommand_answers (c : Command) (s : State) : ∃ t, runCommand c s = .next t := by
  unfold runCommand
  cases decode c with
  | ok i => exact exec_answers i s
  | error reason => exact ⟨_, rfl⟩

/-! ### Errors as events and as STATUS bits (R251, R95) -/

/-- The event, if it is an EV_ERROR, carries the command word `word` (R95). -/
def Event.carriesWord (word : U32) : Event → Prop
  | .error _ w _ _ _ => w = word
  | .point _ | .frameEnd _ _ _ _ | .packet _ _ _ _ | .calData _ _ _ | .regData _ _ => True

theorem bit_eq_iff {j k : ErrorKind} : j.bit = k.bit ↔ j = k := by cases j <;> cases k <;> decide

/-- BLKID_OTHER is a notice, not an error (R144, R258). -/
theorem bit_ne_blkidOther (k : ErrorKind) : k.bit ≠ .blkidOther := by cases k <;> decide

/-- An event raises the bit of an error exactly when it is an EV_ERROR of its kind. -/
theorem raises_bit_iff {e : Event} {k : ErrorKind} : e.raises k.bit = true ↔ ∃ w a1 a2 a3, e = .error k w a1 a2 a3 := by
  cases e with
  | error j w a1 a2 a3 => simp [Event.raises, bit_eq_iff, eq_comm]
  | point | frameEnd | packet | calData | regData => simp [Event.raises]

theorem carriesWord_of_not_isError {e : Event} (h : e.isError = false) (word : U32) : e.carriesWord word := by
  cases e with
  | error => cases h
  | point | frameEnd | packet | calData | regData => trivial

theorem raises_of_not_isError {e : Event} (h : e.isError = false) {b : StatusBit} : e.raises b = false := by
  cases e with
  | error => cases h
  | point | frameEnd | packet | calData | regData => rfl

/-- The three errors of R258 are those of the three kinds. -/
theorem noRecordedFault_iff (s : State) : noRecordedFault s = true ↔ ∀ k : ErrorKind, statusHas k.bit s = false := by
  simp only [noRecordedFault, Bool.and_eq_true, Bool.not_eq_true']
  exact ⟨fun ⟨⟨haz, hlaser⟩, hillegal⟩ k => by cases k <;> assumption, fun h => ⟨⟨h .azRange, h .unknownLaser⟩, h .illegalCmd⟩⟩

/-! ### What a command reports (R251) -/

/-- From `s` to `t` the events `es` are appended, their EV_ERRORs carry `word`, and an error bit is set by them alone. -/
structure Reports (word : U32) (es : List Event) (s t : State) : Prop where
  events : t.events = s.events ++ es
  words : ∀ e ∈ es, e.carriesWord word
  status : ∀ k : ErrorKind, statusHas k.bit t = (statusHas k.bit s || es.any (Event.raises k.bit))

theorem reports_nil {word : U32} (he : t.events = s.events) (hst : t.status = s.status) : Reports word [] s t where
  events := he.trans (List.append_nil _).symm
  words := by simp
  status k := by rw [statusHas_congr hst, List.any_nil, Bool.or_false]

/-- One event other than EV_ERROR, with STATUS left alone, reports nothing. -/
theorem reports_notice {word : U32} {e : Event} (hn : e.isError = false) (he : t.events = s.events ++ [e])
    (hst : t.status = s.status) : Reports word [e] s t where
  events := he
  words := by
    intro f hf
    rw [List.mem_singleton.1 hf]
    exact carriesWord_of_not_isError hn word
  status k := by
    rw [statusHas_congr hst, List.any_cons, raises_of_not_isError hn, List.any_nil, Bool.or_false, Bool.or_false]

theorem reports_raise (word : U32) (j : ErrorKind) (a1 a2 a3 : U16) :
    Reports word [.error j word a1 a2 a3] s (raise j word a1 a2 a3 s) where
  events := raise_events ..
  words e he := by rw [List.mem_singleton.1 he]; rfl
  status k := by rw [statusHas_raise, List.any_cons, List.any_nil, Bool.or_false]; rfl

/-- The EV_ERRORs of a data packet are those of its returns, and carry the PACKET's word (R173). -/
theorem carriesWord_of_mem_dataEvents {word : U32} {p : List Byte} : ∀ e ∈ dataEvents word p s, e.carriesWord word := by
  refine forall_mem_blocksEvents (fun _ _ _ => trivial) (fun k j e he => ?_) _ _ _
  simp only [returnEvents, eventsOfReturn] at he
  split_ifs at he
  · cases he
  · rw [List.mem_singleton.1 he]; rfl
  · rw [List.mem_singleton.1 he]; exact trivial

theorem reports_dataPacket (word : U32) (p : List Byte) (s : State) :
    Reports word (dataEvents word p s ++ [.packet .data 1206 (u32At p 1200) s.pendingSkip]) s (dataPacket word p s) where
  events := (dataPacket_events word p s).trans (List.append_assoc ..)
  words e he := by
    obtain he | he := List.mem_append.1 he
    · exact carriesWord_of_mem_dataEvents e he
    · rw [List.mem_singleton.1 he]; exact trivial
  status k := by
    rw [dataPacket_statusHas, ← any_raises_dataEvents, decide_eq_false (bit_ne_blkidOther k), Bool.false_and, Bool.or_false,
      List.any_append, List.any_cons, List.any_nil, Event.raises, Bool.or_false, Bool.or_false]

/-- Every instruction but STATUS_CLEAR sets an error bit by its EV_ERROR alone, and the EV_ERROR carries its word (R251, R95). -/
theorem exec_reports_cases {i : Instr} (h : exec i s = .next t) :
    (∃ es, Reports (encodeWord i) es s t) ∨ ∃ m, i = .statusClear m ∧ t = clearStatus m s := by
  cases i with
  | nop => cases h; exact .inl ⟨_, reports_nil rfl rfl⟩
  | packet len p =>
    obtain ⟨-, rfl⟩ | ⟨-, -, rfl⟩ | ⟨rfl, -, rfl⟩ := exec_packet_cases h
    · exact .inl ⟨_, reports_raise ..⟩
    · exact .inl ⟨_, reports_notice rfl rfl rfl⟩
    · exact .inl ⟨_, reports_dataPacket ..⟩
  | flush => cases h; exact .inl ⟨_, reports_notice rfl rfl rfl⟩
  | sessionReset => cases h; exact .inl ⟨_, reports_nil rfl rfl⟩
  | setSkip k => cases h; exact .inl ⟨_, reports_nil rfl rfl⟩
  | loadDefault => rw [exec_loadDefault_iff] at h; subst h; exact .inl ⟨_, reports_nil rfl rfl⟩
  | calWrite laser f v =>
    obtain ⟨-, rfl⟩ | ⟨id, -, rfl⟩ := exec_calWrite_cases h
    · exact .inl ⟨_, reports_raise ..⟩
    · exact .inl ⟨_, reports_nil rfl rfl⟩
  | calRead laser f =>
    obtain ⟨-, rfl⟩ | ⟨id, -, rfl⟩ := exec_calRead_cases h
    · exact .inl ⟨_, reports_raise ..⟩
    · exact .inl ⟨_, reports_notice rfl rfl rfl⟩
  | regRead r => cases h; exact .inl ⟨_, reports_notice rfl rfl rfl⟩
  | statusClear m => cases h; exact .inr ⟨m, rfl, rfl⟩

/-- A rejected command reports ILLEGAL_CMD (R253), any other what its instruction does. -/
theorem runCommand_reports_cases {c : Command} (h : runCommand c s = .next t) :
    (∃ es, Reports c.word es s t) ∨ ∃ m, decode c = .ok (.statusClear m) ∧ t = clearStatus m s := by
  obtain ⟨i, hd, hi⟩ | ⟨reason, -, rfl⟩ := runCommand_cases h
  · obtain ⟨rfl, -⟩ := encodeInvertsDecode c i hd
    obtain hes | ⟨m, rfl, ht⟩ := exec_reports_cases hi
    · exact .inl hes
    · exact .inr ⟨m, hd, ht⟩
  · exact .inl ⟨_, reports_raise ..⟩

/-! ### Commands that report no error (R258) -/

/-- If no error is recorded in `t`, none was in `s`, and none is among the events appended in between. -/
def SafeBetween (s t : State) : Prop :=
  noRecordedFault t = true → noRecordedFault s = true ∧ ∃ es, t.events = s.events ++ es ∧ ∀ e ∈ es, e.isError = false

theorem SafeBetween.refl (s : State) : SafeBetween s s := fun h => ⟨h, [], (List.append_nil _).symm, by simp⟩

theorem SafeBetween.trans {u : State} (h : SafeBetween s t) (h' : SafeBetween t u) : SafeBetween s u := by
  intro hu
  obtain ⟨ht, fs, he', hfs⟩ := h' hu
  obtain ⟨hs, es, he, hes⟩ := h ht
  exact ⟨hs, es ++ fs, by rw [he', he, List.append_assoc], List.forall_mem_append.2 ⟨hes, hfs⟩⟩

/-- Each EV_ERROR leaves its bit at 1, so error bits at 0 show that there was none. -/
theorem Reports.safeBetween {word : U32} {es : List Event} (h : Reports word es s t) : SafeBetween s t := by
  intro ht
  have hclear (k : ErrorKind) : statusHas k.bit s = false ∧ es.any (Event.raises k.bit) = false := by
    rw [← Bool.or_eq_false_iff, ← h.status]; exact (noRecordedFault_iff t).1 ht k
  refine ⟨(noRecordedFault_iff s).2 fun k => (hclear k).1, es, h.events, fun e he => ?_⟩
  cases e with
  | error k w a1 a2 a3 => exact absurd (raises_bit_iff.2 ⟨w, a1, a2, a3, rfl⟩) (List.any_eq_false.1 (hclear k).2 _ he)
  | point | frameEnd | packet | calData | regData => rfl

/-- A command's opcode is that of the instruction it decodes to (R80). -/
theorem opNumber_of_decode {c : Command} {i : Instr} (h : decode c = .ok i) : opNumber c = (opCode (instrOp i)).toNat := by
  obtain ⟨rfl, -⟩ := encodeInvertsDecode c i h
  have ho := opOfWord_encodeWord i
  rw [opOfWord_eq] at ho
  exact (opOfNumber_eq_some_iff _ _).1 ho

/-- Only STATUS_CLEAR takes the record of an error away. -/
theorem runCommand_safeBetween {c : Command} (hc : opNumber c ≠ 9) (h : runCommand c s = .next t) : SafeBetween s t := by
  obtain ⟨es, hes⟩ | ⟨m, hd, -⟩ := runCommand_reports_cases h
  · exact hes.safeBetween
  · exact absurd (opNumber_of_decode hd) hc

end Sys2Proof.Machine
end

section
/-! PROOFS. The error mechanism (R251 to R258): O8, O21, O23, O53. -/

namespace Sys2Proof.Machine

/-- Settles O23, by induction on the run: every command other than STATUS_CLEAR leaves a record of each error it reports. -/
theorem safeRunReportsNoError : Obligations.SafeRunReportsNoError := fun n s t hin hrun =>
  run_induction (R := SafeBetween) SafeBetween.refl (fun _ _ _ => SafeBetween.trans)
    (fun _ s rest _ hc h => runCommand_safeBetween (s := { s with input := rest }) hc h) n s t hin hrun

/-- Settles O21: a command that reports sets each error bit with its EV_ERROR, and STATUS_CLEAR neither emits an event nor sets a bit. -/
theorem errorEventsAndStatusBitsAgree : Obligations.ErrorEventsAndStatusBitsAgree := by
  intro c s t h
  obtain ⟨es, hes⟩ | ⟨m, -, rfl⟩ := runCommand_reports_cases h
  · refine ⟨es, hes.events, fun k w a1 a2 a3 hmem => ⟨?_, hes.words _ hmem⟩, fun k ht hs => ?_⟩
    · have hany : es.any (Event.raises k.bit) = true := List.any_eq_true.2 ⟨_, hmem, raises_bit_iff.2 ⟨w, a1, a2, a3, rfl⟩⟩
      rw [hes.status, hany, Bool.or_true]
    · rw [hes.status, hs, Bool.false_or, List.any_eq_true] at ht
      obtain ⟨e, hmem, he⟩ := ht
      obtain ⟨w, a1, a2, a3, rfl⟩ := raises_bit_iff.1 he
      exact ⟨w, a1, a2, a3, hmem⟩
  · refine ⟨[], (List.append_nil _).symm, by simp, fun k ht hs => ?_⟩
    rw [statusHas_clearStatus, hs] at ht
    cases ht

/-- Settles O8: each host action has its outcome, and a command answers whether it decodes or not. -/
theorem everyStepAnswersANextState : Obligations.EveryStepAnswersANextState := by
  refine ⟨exec_answers, fun s => ?_⟩
  unfold step
  match nextAction (holds s) s.input with
  | none | some (.takeEvent, _) | some (.reset, _) => exact ⟨_, rfl⟩
  | some (.command c, rest) => exact runCommand_answers c { s with input := rest }

/-- Settles O53: each kind has its own bit and its own code. -/
theorem raiseSetsTheBitThenEmits : Obligations.RaiseSetsTheBitThenEmits := by
  refine ⟨fun kind word a1 a2 a3 s => ?_, rfl, rfl, rfl⟩
  cases kind with
  | azRange | unknownLaser | illegalCmd => rfl

end Sys2Proof.Machine
end

section
/-! PROOFS. Reset (R280, R281): O9. -/

namespace Sys2Proof.Machine

/-- LOAD_DEFAULT changes nothing exactly when the calibration RAM holds the built-in profile (R117). -/
theorem exec_loadDefault_eq_self_iff {s : State} : exec .loadDefault s = .next s ↔ s.cal = defaultProfile s.cfg := by
  rw [exec_loadDefault_iff]
  cases s
  simp only [State.mk.injEq, true_and, and_true]

/-- SESSION_RESET changes nothing exactly when the four session registers are 0 already (R208). -/
theorem exec_sessionReset_eq_self_iff {s : State} :
    exec .sessionReset s = .next s ↔ s.lastAz = 0 ∧ s.pendingSkip = 0 ∧ s.frameCount = 0 ∧ s.curFramePoints = 0 := by
  obtain ⟨hexec, -⟩ := sessionResetClearsTheSession
  rw [hexec]
  cases s
  simp only [Host.Outcome.next.injEq, State.mk.injEq, true_and, and_true, eq_comm]

/-- Settles O9: reset loads the profile LOAD_DEFAULT would, and leaves 0 in the session registers SESSION_RESET clears. -/
theorem resetLeavesTheDefaultState : Obligations.ResetLeavesTheDefaultState := fun _ =>
  ⟨rfl, rfl, rfl, rfl, rfl, rfl, rfl, rfl, rfl, rfl, exec_loadDefault_eq_self_iff.2 rfl,
    exec_sessionReset_eq_self_iff.2 ⟨rfl, rfl, rfl, rfl⟩, rfl⟩

end Sys2Proof.Machine
end
